-- ==== Sys2Proof/Word.lean ====
section
/-! DEFINITION. The widths of the block's values (spec/10_state.md R16, R29) and the message kinds (R113). -/

namespace Sys2Proof

/-- One byte of the stream or of a frame. -/
abbrev Byte := BitVec 8

/-- One slot of the history `H`: a 12-bit signed sample (R16). -/
abbrev Sample := BitVec 12

/-- One entry of a power bank: a 28-bit unsigned power sample (R16, R35). -/
abbrev Power := BitVec 28

/-- A frame: 14 bytes, `F[0]` first (R34, R48). -/
abbrev Frame := Vector Byte 14

/-- The ME payload: 56 bits (R49). -/
abbrev Payload := BitVec 56

/-- The history file `H[0..7]` (R18). -/
abbrev History := Vector Sample 8

/-- The kind a type code selects (R113). -/
inductive Kind
  | ident
  | position
  | velocity
  | none
  deriving DecidableEq, Repr

end Sys2Proof
end

