-- ==== Sys2Proof/Config.lean ====
section
/-! DEFINITION. The configuration record of spec/92_eei_decisions.md (its last paragraph) and the free values:
constants without a body, of which nothing can be proved. -/

namespace Sys2Proof

/-- What the spec asks a model to hold as configuration fields, because the values are general knowledge or
cautioned (spec/93_implementation_defined.md G1 to G7). The values this hardware is given are `Machine.iqd`. -/
structure Config where
  /-- `NEXT_OFS`: distance of the later peak sum of the acceptance test (R8, R89, G6). -/
  nextOfs : Nat
  /-- Polarity of R90: `true` where a 1 bit is "first sub-position below second" (G7). -/
  oneIsRising : Bool
  /-- `ALT_LSB`: lowest bit of the altitude field in the payload (R9, D20, G2). -/
  altLsb : Nat
  /-- `PAR_BIT`: the parity bit of the payload (R9, D20, G2). -/
  parBit : Nat
  /-- `ALT_PERM`: the bits of `ALT` from which `U[11]`, `U[10]`, …, `U[0]` are taken (R117, D21, G3). -/
  altPerm : List Nat
  /-- `TC_CLASS`: the kinds of the type codes 0, 1, …, 31 (R113, D19, G1). -/
  tcClass : List Kind
  /-- `FT_TO_M`: metres in a foot (R122, D22, G4). -/
  ftToM : ℚ

/-- FREE VALUE (log 12). The open parameter `NL_EQUATOR` is 60 where this is `true` and 59 where it is `false`
(R133 (c), U6). -/
opaque Config.nlEquatorIsSixty : Bool

/-- FREE VALUE (log 13). Whether `CPR.NL ≥ n` at a folded latitude within the last printed digit of the threshold
`Λ(n)` (R132, U10). -/
opaque Config.nlWithinDigit : Nat → ℚ → Bool

/-- FREE VALUE (log 30). The result of `GRAY.DEC(g, w)` outside the domain of its operand line (R118). -/
opaque Config.grayOutsideDomain : Nat → Nat → Nat

/-- FREE VALUE (log 7). How many entries the host's byte source gave up in the `k`-th failing read (R144, U15). -/
opaque Config.streamLost : Nat → Nat

end Sys2Proof
end

