-- ==== Sys2Proof/Syntax.lean ====
section
/-! DEFINITION. The operations (spec/30_encoding.md R45) and the data formats (R47 to R51), one constructor for each row of
spec/opcode_table.json. -/

namespace Sys2Proof

/-- A message: a time stamp and 14 bytes (R52). -/
structure Message where
  ts : BitVec 64
  bytes : Frame
  deriving DecidableEq, Repr

/-- The operand of `RM.TC`: "14 bytes (or the payload)" (R114). -/
inductive TcOperand
  | frame (bytes : Frame)
  | payload (me : Payload)
  deriving DecidableEq, Repr

/-- One operation of the block with its operands, or one data word presented under its format. -/
inductive Instr
  | reset
  | sdRead (n : Nat)
  | pcRead (n : Nat)
  | pwInit
  | pwGet (i : Int)
  | pwFull
  | pwAdv
  | pwAdvn (n : Int)
  | pwPos
  | dmNext
  | crcBit (bytes : List Byte)
  | crcByte (bytes : List Byte)
  | crcChk (bytes : List Byte)
  | bitsX (value : BitVec 64) (start size : Int)
  | rmParse (ts : BitVec 64) (bytes : List Byte)
  | rmDf (bytes : Frame)
  | rmIcao (bytes : Frame)
  | rmMe (bytes : Frame)
  | rmTc (src : TcOperand)
  | rmClass (tc : BitVec 5)
  | grayDec (g w : Nat)
  | altDec (alt : BitVec 12)
  | posDec (msg : Message)
  | cprNl (lat : ℚ)
  | cprDec (x0 y0 x1 y1 : BitVec 17) (recent : Bool)
  | fmtSampleWord (u : BitVec 12)
  | fmtFrame (bytes : Frame)
  | fmtFrameDf17 (bytes : Frame)
  | fmtMe (me : Payload)
  | fmtMePosition (me : Payload)
  | fmtAltQ1 (alt : BitVec 12)
  | fmtAltQ0 (alt : BitVec 12)
  deriving DecidableEq, Repr

end Sys2Proof
end

