-- ==== Sys2Proof/Machine/Params.lean ====
section
/-! DEFINITION. The constants of spec/00_scope.md R8 and R9 with the values of this hardware. -/

namespace Sys2Proof.Machine

/-- `BIAS` (R8): the recentring offset. -/
def bias : Int := 2048

/-- `BATCH` (R8): the capacity of each bank, in power samples. -/
def batch : Nat := 65536

/-- `FRAME_SPAN` (R8): the samples skipped after a frame is returned. -/
def frameSpan : Nat := 1200

/-- `TS_SCALE` (R8): time stamp units per sample. -/
def tsScale : Nat := 100

/-- `DF_ADSB` (R8): the required downlink format. -/
def dfAdsb : BitVec 5 := 17

/-- `GEN` (R8): the CRC-24 generator. -/
def gen : BitVec 24 := 0xFFF409

/-- `HALF` (R8): the distance between the two sub-positions of a bit. -/
def half : Nat := 5

/-- `DATA_OFS` (R9, D13): the first sub-position of frame bit 0. -/
def dataOfs : Nat := 80

/-- `BIT_SPAN` (R9, D13): samples per frame bit. -/
def bitSpan : Nat := 10

/-- The table of R113 (general knowledge G1, log 15). -/
def tcClassTable : List Kind :=
  [.none] ++ List.replicate 4 .ident ++ List.replicate 4 .none ++ List.replicate 10 .position ++ [.velocity] ++
    List.replicate 3 .position ++ List.replicate 9 .none

/-- The configuration of this hardware: the values the spec takes (R8, R9; log 15, log 16). -/
def iqd : Config where
  nextOfs := 10
  oneIsRising := true
  altLsb := 36
  parBit := 34
  altPerm := [4, 2, 0, 10, 8, 6, 5, 3, 1, 11, 9, 7]
  tcClass := tcClassTable
  ftToM := 381 / 1250

/-- The kind the type code `tc` selects (R113). -/
def classOf (cfg : Config) (tc : BitVec 5) : Kind :=
  cfg.tcClass.getD tc.toNat .none

end Sys2Proof.Machine
end

