-- ==== Sys2Proof/Machine/State.lean ====
section
/-! DEFINITION. The state of the block (spec/10_state.md R16, R17, R26), its faults, refusals and results, and the state
after reset (spec/70_reset_and_hazards.md R150, R151). Plain data. -/

namespace Sys2Proof.Machine

/-- The causes that the register `FAULT` records (R141). -/
inductive Cause
  /-- code 1, raised by `RESET` -/
  | batchSize
  /-- code 2, raised by `SD.READ`, `PC.READ`, `CRC.CHK`, `RM.PARSE` -/
  | bufferSize
  /-- code 3, raised by `PW.INIT` -/
  | wsize
  /-- code 4, raised by `PW.GET` -/
  | index
  /-- code 5, raised by `PW.ADVN` -/
  | count
  /-- code 6, raised by `BITS.X` -/
  | bitRange
  /-- code 7, raised by `SD.READ` and what calls it -/
  | ioError
  deriving DecidableEq, Repr

/-- The number of a cause (R141); 0 is `NONE`. -/
def Cause.code : Option Cause → Nat
  | none => 0
  | some .batchSize => 1
  | some .bufferSize => 2
  | some .wsize => 3
  | some .index => 4
  | some .count => 5
  | some .bitRange => 6
  | some .ioError => 7

/-- What stops the machine for good. The faults of R141 are not among them: they are next states (log 26). -/
inductive Fault
  /-- Raised by every operation that reads the stream (`SD.READ`, `PC.READ`, `PW.INIT`, `PW.ADV`, `PW.ADVN`, `DM.NEXT`)
  when the byte source blocks for ever: "a `StreamRead` that never returns makes the operation that issued it never
  return" (R145, U8, U9 `stuck`). Safe: no result is given (log 8). -/
  | neverReturns
  deriving DecidableEq, Repr

/-- Why a call is not performed (R143): it has no transition. All are safe: the spec calls each of them refused. -/
inductive Refusal
  /-- Raised in `exec` by an arm without a meaning. Safe. -/
  | notModelled (mnemonic : String)
  /-- Raised by every operation but `RESET` while `FAULT ≠ NONE` (R143, U4). Safe. -/
  | faultLatched
  /-- Raised by `PW.GET`, `PW.FULL`, `PW.POS`, `PW.ADV`, `PW.ADVN`, `DM.NEXT` while `INITED = 0` (R143, U4). Safe. -/
  | notInitialised
  /-- Raised by `PW.INIT` while `INITED = 1` (R75, R143, U4). Safe. -/
  | alreadyInitialised
  /-- Raised by what reads the stream when a sample word is above 4095 (R33, U1). Safe. -/
  | illFormedStream
  /-- Raised by `PW.ADV`, `PW.ADVN`, `DM.NEXT` when `POS × 100` would pass 2^63 − 1 or `NLOADED` 2^64 − 1
  (R21, R163, U5). Safe. -/
  | counterRange
  /-- Raised by `step` on an operation code 0x19 to 0x1F (R45, R54, U4). Safe. -/
  | unassignedCode
  /-- Raised by `step` on request bytes that are no request of the model's encoding (log 2). Safe. -/
  | malformedRequest
  deriving DecidableEq, Repr

/-- One event of the host's byte source, in stream order (R31, log 6). The end of the list is the end of the stream. -/
inductive SourceEvent
  /-- the next byte of the stream -/
  | byte (b : Byte)
  /-- a read that reaches this point ends here though the stream goes on (U7) -/
  | shortRead
  /-- a read that reaches this point signals a read error (R145, U14) -/
  | ioError
  /-- a read that reaches this point never returns (U9) -/
  | blocks
  deriving DecidableEq, Repr

/-- A power bank: the entries that are not 0, by rising index (log 5). -/
abbrev Bank := List (Nat × Power)

/-- The memory: `BANK[0]` and `BANK[1]` (R23, R35). -/
structure Memory where
  bank0 : Bank
  bank1 : Bank
  deriving DecidableEq, Repr

/-- The instantiation parameters, which the host fixes before `RESET` (R17, R153, log 17). -/
structure Params where
  wsize : Int
  pcBatch : Int
  sdBatch : Int
  deriving DecidableEq, Repr

/-- The result record of `POS.DEC` (R52, R124). -/
structure PositionRecord where
  ts : BitVec 64
  icao : BitVec 24
  altFt : Int
  /-- `false` even, `true` odd -/
  par : Bool
  x : BitVec 17
  y : BitVec 17
  deriving DecidableEq, Repr

/-- The fields of a frame (R48). -/
structure FrameFields where
  df : BitVec 5
  low : BitVec 3
  icao : BitVec 24
  me : Payload
  pi : BitVec 24
  deriving DecidableEq, Repr

/-- The fields of a payload of class POSITION (R50). -/
structure PositionFields where
  tc : BitVec 5
  alt : BitVec 12
  par : Bool
  y : BitVec 17
  x : BitVec 17
  deriving DecidableEq, Repr

/-- The named bits of an altitude field with Q = 0 (R51); D1 is the Q bit, 0. -/
structure ModeCBits where
  c1 : Bool
  a1 : Bool
  c2 : Bool
  a2 : Bool
  c4 : Bool
  a4 : Bool
  b1 : Bool
  b2 : Bool
  d2 : Bool
  b4 : Bool
  d4 : Bool
  deriving DecidableEq, Repr

/-- What an operation gives the host: a result, `none`, the no-frame sentinel, or a fault (R14, R140). -/
inductive Reply
  /-- the operation has no result value (R45, result column empty) -/
  | done
  /-- "no result: the input was discarded" (R14) -/
  | noResult
  /-- the no-frame sentinel of `DM.NEXT` at the end of the stream (R22, R92) -/
  | noFrame
  /-- the outcome *fault(code)* (R140) -/
  | fault (c : Cause)
  | samples (count : Nat) (s : List Int)
  | powers (count : Nat) (p : List Power)
  | power (p : Power)
  | bool (b : Bool)
  | pos (p : BitVec 64)
  | frame (ts : BitVec 64) (bytes : Frame)
  | crc (c : BitVec 24)
  | bits (u : Nat)
  | message (m : Message)
  | df (d : BitVec 5)
  | icao (a : BitVec 24)
  | me (m : Payload)
  | tc (t : BitVec 5)
  | kind (k : Kind)
  | gray (v : Nat)
  | altitude (feet : Int)
  | position (p : PositionRecord)
  | zones (n : Nat)
  | global (lonT32 latT32 : Int)
  | sampleValue (s : Int)
  | frameFields (f : FrameFields)
  | payloadFields (tc : BitVec 5) (rest : BitVec 51)
  | positionFields (f : PositionFields)
  | altQ1 (high : BitVec 7) (low : BitVec 4) (value : Nat)
  | altQ0 (b : ModeCBits)
  deriving DecidableEq, Repr

end Sys2Proof.Machine

namespace Sys2Proof.Machine

/-- The state of one block instance. -/
structure State where
  /-- `H[0..7]` (R18) -/
  h : History
  /-- `K` (R18) -/
  k : BitVec 3
  /-- `BANK[0..1][0..65535]` (R23) -/
  mem : Memory
  /-- `CUR` (R23) -/
  cur : Fin 2
  /-- `PIB` (R23) -/
  pib : BitVec 16
  /-- `POS` (R21) -/
  pos : BitVec 64
  /-- `NLOADED` (R16) -/
  nloaded : BitVec 64
  /-- `PREV` (R19) -/
  prev : BitVec 30
  /-- `FAULT` (R20); `none` is `NONE` -/
  fault : Option Cause
  /-- `INITED` (R16) -/
  inited : Bool
  /-- `WSIZE` (R17, log 17) -/
  wsize : Int
  /-- `PC_BATCH` (R17, log 17) -/
  pcBatch : Int
  /-- `SD_BATCH` (R17, log 17) -/
  sdBatch : Int
  /-- the instantiation parameters (R17, R153) -/
  params : Params
  /-- the host's byte stream from its cursor on (R26, R31, log 6) -/
  source : List SourceEvent
  /-- the model's: the request bytes the host will invoke, oldest first (log 1) -/
  requests : List Byte
  /-- the model's: what the last operation gave the host (log 4) -/
  out : Option Reply
  /-- the model's: how many free values were taken (log 7) -/
  freeCtr : Nat
  deriving DecidableEq, Repr

/-- The instantiation parameters of the demodulator chain (R17, R151). -/
def Params.chain : Params :=
  ⟨1200, 65536, 131072⟩

/-- The machine right after reset (R151), of the demodulator chain; the model's own fields are empty (log 18). -/
def State.reset : State where
  h := Vector.replicate 8 0
  k := 0
  mem := ⟨[], []⟩
  cur := 0
  pib := 0
  pos := 0
  nloaded := 0
  prev := 0
  fault := none
  inited := false
  wsize := Params.chain.wsize
  pcBatch := Params.chain.pcBatch
  sdBatch := Params.chain.sdBatch
  params := Params.chain
  source := []
  requests := []
  out := none
  freeCtr := 0

end Sys2Proof.Machine
end

