-- ==== Sys2Proof/Machine/Ops.lean ====
section
/-! DEFINITION. The named operations over the registers, the power banks and the byte stream (spec/00_scope.md R13,
spec/20_memory.md R31, R35), the outcome of a unit's rule, and the raising of a fault (spec/60_exceptions.md R140). -/

namespace Sys2Proof.Machine

/-! ### The power banks -/

/-- `BANK[b][k]` of one bank: an entry that is not listed is 0, its reset value (R151). -/
def bankRead : Bank → Nat → Power
  | [], _ => 0
  | (j, u) :: r, k => if j = k then u else bankRead r k

/-- `BANK[b][k] <- v` on one bank, keeping the canonical form (log 5). -/
def bankWrite (k : Nat) (v : Power) : Bank → Bank
  | [] => if v = 0 then [] else [(k, v)]
  | (j, u) :: r =>
    if k < j then (if v = 0 then (j, u) :: r else (k, v) :: (j, u) :: r)
    else if k = j then (if v = 0 then r else (k, v) :: r)
    else (j, u) :: bankWrite k v r

/-- The bank that holds `p₀, p₁, …` at the indices `k, k + 1, …` and nothing else. -/
def bankOf : Nat → List Power → Bank
  | _, [] => []
  | k, p :: ps => if p = 0 then bankOf (k + 1) ps else (k, p) :: bankOf (k + 1) ps

/-- A bank as the destination buffer of a batch: entry `j` receives the `j`-th sample, the entries from the count on
keep their contents (R35, R68, D8). -/
def bankFill (ps : List Power) (b : Bank) : Bank :=
  bankOf 0 ps ++ b.filter fun e => decide (ps.length ≤ e.1)

/-- The canonical form of a bank from index `lo` on: rising indices below 65536, no entry 0. -/
def bankWfFrom : Nat → Bank → Bool
  | _, [] => true
  | lo, (j, u) :: r => decide (lo ≤ j) && decide (j < 65536) && decide (u ≠ 0) && bankWfFrom (j + 1) r

/-- The canonical form of a bank. -/
def bankWf (b : Bank) : Bool :=
  bankWfFrom 0 b

/-- The canonical form of the memory. -/
def Memory.wf (m : Memory) : Bool :=
  bankWf m.bank0 && bankWf m.bank1

/-- `BANK[b]`. -/
def memBank (m : Memory) (b : Fin 2) : Bank :=
  if b = 0 then m.bank0 else m.bank1

/-- The memory with `BANK[b]` replaced. -/
def memSetBank (m : Memory) (b : Fin 2) (x : Bank) : Memory :=
  if b = 0 then { m with bank0 := x } else { m with bank1 := x }

/-- `MemRead(b, k)` (R13, R35). -/
def memRead (m : Memory) (b : Fin 2) (k : Nat) : Power :=
  bankRead (memBank m b) k

/-- `MemWrite(b, k, v)` (R13, R35). -/
def memWrite (m : Memory) (b : Fin 2) (k : Nat) (v : Power) : Memory :=
  memSetBank m b (bankWrite k v (memBank m b))

/-- The batch `ps` written to bank `b` (R35): `MemWrite(b, j, ps[j])` for each `j` below the count. -/
def memFill (m : Memory) (b : Fin 2) (ps : List Power) : Memory :=
  memSetBank m b (bankFill ps (memBank m b))

/-! ### The history file -/

/-- `H[i]` as the signed number it holds; indices are taken modulo 8 (R67). -/
def histGet (h : History) (i : Nat) : Int :=
  (h[i % 8]'(Nat.mod_lt i (by decide))).toInt

/-- `H[i] <- v` (R13). -/
def histPut (h : History) (i : Nat) (v : Int) : History :=
  h.set (i % 8) (BitVec.ofInt 12 v) (Nat.mod_lt i (by decide))

/-! ### The outcome of a rule -/

/-- How a rule of a unit ends: with a value, at a `raise` (R140), refused (R143), or never (R145). -/
inductive Res (α : Type) where
  | ok (a : α) (s : State)
  | raised (c : Cause) (s : State)
  | refused (r : Refusal)
  | stuck (f : Fault)

/-- Go on after a rule that ended with a value; every other ending passes up to the outermost operation (R140). -/
@[inline] def andThen {α β : Type} (r : Res α) (f : α → State → Res β) : Res β :=
  match r with
  | .ok a s => f a s
  | .raised c s => .raised c s
  | .refused x => .refused x
  | .stuck x => .stuck x

/-- The state with a result for the host (R14, log 4). -/
def State.reply (s : State) (v : Reply) : State :=
  { s with out := some v }

/-- TAKING A FAULT (R140): `FAULT <- code`, the outcome is *fault(code)*, "Nothing else is saved". There is no return
(R148): only `RESET` clears `FAULT`. -/
def State.takeFault (s : State) (c : Cause) : State :=
  { s with fault := some c, out := some (.fault c) }

/-- The end of the outermost operation (R140): its result to the host, or its fault taken. -/
def deliver {α : Type} (r : Res α) (f : α → Reply) : Host.Outcome State Fault Refusal :=
  match r with
  | .ok a s => .next (s.reply (f a))
  | .raised c s => .next (s.takeFault c)
  | .refused x => .refused x
  | .stuck x => .fault x

/-- `if FAULT ≠ NONE: refused`, the first line of every operation but `RESET` (R143). -/
@[inline] def guarded (s : State) (body : Host.Outcome State Fault Refusal) : Host.Outcome State Fault Refusal :=
  if s.fault = none then body else .refused .faultLatched

/-- `if FAULT ≠ NONE or INITED = 0: refused` (R143, R147). -/
@[inline] def guardedInit (s : State) (body : Host.Outcome State Fault Refusal) : Host.Outcome State Fault Refusal :=
  guarded s (if s.inited then body else .refused .notInitialised)

/-- A stateless operation (R25): its result and nothing else, behind the implied test of R143. -/
def stateless (s : State) (v : Reply) : Host.Outcome State Fault Refusal :=
  guarded s (.next (s.reply v))

/-! ### The byte stream -/

/-- What `StreamRead(n)` finds at the host's cursor (R31). -/
inductive ReadResult where
  | bytes (b : List Byte) (rest : List SourceEvent)
  | error
  | blocks
  deriving DecidableEq, Repr

/-- Up to `n` bytes in stream order: all `n`, or fewer at the end of the stream or at a short read; or a read error; or
no return (R31, R145). -/
def readSource : Nat → List SourceEvent → ReadResult
  | 0, src => .bytes [] src
  | _ + 1, [] => .bytes [] []
  | _ + 1, .shortRead :: r => .bytes [] r
  | _ + 1, .ioError :: _ => .error
  | _ + 1, .blocks :: _ => .blocks
  | n + 1, .byte b :: r =>
    match readSource n r with
    | .bytes bs rest => .bytes (b :: bs) rest
    | .error => .error
    | .blocks => .blocks

/-- `StreamRead(n)` (R31). After an `IOError` the host's stream stands at a place unknown to the block: a free value
(R144, U15, log 7). -/
def streamRead (n : Nat) (s : State) : Res (List Byte) :=
  match readSource n s.source with
  | .bytes b rest => .ok b { s with source := rest }
  | .error =>
    .raised .ioError
      { s with source := s.source.drop (Config.streamLost s.freeCtr), freeCtr := s.freeCtr + 1 }
  | .blocks => .stuck .neverReturns

/-! ### Counters -/

/-- `POS × 100 ≤ 2^63 − 1`: the position is inside the model (R21, R163). -/
def posInRange (p : Nat) : Bool :=
  decide (p * tsScale ≤ 2 ^ 63 - 1)

end Sys2Proof.Machine
end

