-- ==== Sys2Proof/Machine/Crc.lean ====
section
/-! DEFINITION. Unit CRC (spec/44_crc24.md). -/

namespace Sys2Proof.Machine

/-- One bit of the long division: shift it in, subtract the generator where a 1 leaves at the top (R101). -/
def crcShift (c : BitVec 24) (o : Bool) : BitVec 24 :=
  let shifted := c <<< 1 ||| BitVec.ofNat 24 o.toNat
  if c.getLsbD 23 then shifted ^^^ gen else shifted

/-- The eight bits of a byte, the most significant first (R101). -/
def crcBitByte (c : BitVec 24) (o : Byte) : BitVec 24 :=
  [7, 6, 5, 4, 3, 2, 1, 0].foldl (fun c r => crcShift c (o.getLsbD r)) c

/-- The three flush bytes (R100). -/
def flush : List Byte :=
  [0, 0, 0]

/-- The bitwise reference algorithm (R101). -/
def crcBitwise (b : List Byte) : BitVec 24 :=
  (b ++ flush).foldl crcBitByte 0

/-- `CRCTAB[i] = CRC.BIT([i])` (R24, R37, R102). -/
def crcTab (i : Byte) : BitVec 24 :=
  crcBitwise [i]

/-- One byte of the table method: `c <- (((c << 8) | o) & 0xFFFFFF) ^ CRCTAB[c[23:16]]` (R103). -/
def crcTabByte (c : BitVec 24) (o : Byte) : BitVec 24 :=
  (c <<< 8 ||| BitVec.setWidth 24 o) ^^^ crcTab (c.extractLsb' 16 8)

/-- The byte-at-a-time computation (R103). -/
def crcBytewise (b : List Byte) : BitVec 24 :=
  (b ++ flush).foldl crcTabByte 0

/-- `CRC.BIT(B) -> c` (R101). -/
def execCrcBit (b : List Byte) (s : State) : Host.Outcome State Fault Refusal :=
  stateless s (.crc (crcBitwise b))

/-- `CRC.BYTE(B) -> c` (R103). -/
def execCrcByte (b : List Byte) (s : State) : Host.Outcome State Fault Refusal :=
  stateless s (.crc (crcBytewise b))

/-- `CRC.CHK(F)` behind the test of `FAULT` (R105). -/
def crcChk (b : List Byte) (s : State) : Res Bool :=
  if b.length ≠ 14 then .raised .bufferSize s else .ok (crcBytewise b == 0) s

/-- `CRC.CHK(F) -> bool` (R105). -/
def execCrcChk (b : List Byte) (s : State) : Host.Outcome State Fault Refusal :=
  guarded s (deliver (crcChk b s) fun v => .bool v)

end Sys2Proof.Machine
end

