-- ==== Sys2Proof/Machine/Operands.lean ====
section
/-! DEFINITION. The field extractions of spec/30_encoding.md R53: frames, payloads and altitude fields. -/

namespace Sys2Proof.Machine

/-- The unsigned integer `v[lo + width - 1 : lo]` (R10). -/
def field (v lo width : Nat) : Nat :=
  (v >>> lo) % 2 ^ width

/-- `w = (hi << 8) | lo` (R32, R60). -/
def sampleWord (lo hi : Byte) : Nat :=
  hi.toNat <<< 8 ||| lo.toNat

/-- `F[0][7:3]` of the first byte of a frame (R48, R110). -/
def dfOfByte (b : Byte) : BitVec 5 :=
  BitVec.ofNat 5 (field b.toNat 3 5)

/-- `DF` (R53, R110). -/
def frameDf (f : Frame) : BitVec 5 :=
  dfOfByte f[0]

/-- `ICAO = (F[1] << 16) | (F[2] << 8) | F[3]` (R53, R111). -/
def frameIcao (f : Frame) : BitVec 24 :=
  BitVec.ofNat 24 (f[1].toNat <<< 16 ||| f[2].toNat <<< 8 ||| f[3].toNat)

/-- `ME`: bytes 4 to 10, `F[4]` most significant (R53, R112). -/
def frameMe (f : Frame) : Payload :=
  BitVec.ofNat 56 (f[4].toNat <<< 48 ||| f[5].toNat <<< 40 ||| f[6].toNat <<< 32 ||| f[7].toNat <<< 24 |||
    f[8].toNat <<< 16 ||| f[9].toNat <<< 8 ||| f[10].toNat)

/-- `PI`: bytes 11 to 13 (R48). -/
def framePi (f : Frame) : BitVec 24 :=
  BitVec.ofNat 24 (f[11].toNat <<< 16 ||| f[12].toNat <<< 8 ||| f[13].toNat)

/-- `F[0][2:0]`, which no operation of the block uses (R48). -/
def frameLow (f : Frame) : BitVec 3 :=
  BitVec.ofNat 3 (field f[0].toNat 0 3)

/-- `TC = ME[55:51]` (R49, R114). -/
def payloadTc (me : Payload) : BitVec 5 :=
  BitVec.ofNat 5 (field me.toNat 51 5)

/-- `ALT`, twelve bits of the payload from `ALT_LSB` on (R50, R53). -/
def payloadAlt (cfg : Config) (me : Payload) : BitVec 12 :=
  BitVec.ofNat 12 (field me.toNat cfg.altLsb 12)

/-- `PAR`, the bit `PAR_BIT` of the payload: `false` even, `true` odd (R50, R123). -/
def payloadPar (cfg : Config) (me : Payload) : Bool :=
  me.getLsbD cfg.parBit

/-- `LON`, that is `X = ME[16:0]` (R50, R123). -/
def payloadX (me : Payload) : BitVec 17 :=
  BitVec.ofNat 17 (field me.toNat 0 17)

/-- `LAT`, that is `Y = ME[33:17]` (R50, R123). -/
def payloadY (me : Payload) : BitVec 17 :=
  BitVec.ofNat 17 (field me.toNat 17 17)

/-- `Q = ALT[4]` (R51). -/
def altQ (alt : BitVec 12) : Bool :=
  alt.getLsbD 4

/-- `high = ALT[11:5]` of the form Q = 1 (R51). -/
def altHigh (alt : BitVec 12) : BitVec 7 :=
  BitVec.ofNat 7 (field alt.toNat 5 7)

/-- `low = ALT[3:0]` of the form Q = 1 (R51). -/
def altLow (alt : BitVec 12) : BitVec 4 :=
  BitVec.ofNat 4 (field alt.toNat 0 4)

/-- The Q = 1 value `(ALT[11:5] << 4) | ALT[3:0]` (R51, R119). -/
def altValue (alt : BitVec 12) : Nat :=
  (altHigh alt).toNat <<< 4 ||| (altLow alt).toNat

end Sys2Proof.Machine
end

