-- ==== Sys2Proof/Machine/Message.lean ====
section
/-! DEFINITION. Units BITS and RM, the message-type field parser (spec/45_message_fields.md). -/

namespace Sys2Proof.Machine

/-- `BITS.X(value, start, size)` behind the test of `FAULT` (R108). -/
def bitsX (value : BitVec 64) (start size : Int) (s : State) : Res Nat :=
  if ¬(0 ≤ size ∧ size ≤ 31) then .raised .bitRange s
  else if ¬(0 ≤ start ∧ start + size ≤ 64) then .raised .bitRange s
  else .ok (field value.toNat start.toNat size.toNat) s

/-- `BITS.X(value, start, size) -> u` (R108). -/
def execBitsX (value : BitVec 64) (start size : Int) (s : State) : Host.Outcome State Fault Refusal :=
  guarded s (deliver (bitsX value start size s) fun u => .bits u)

/-- The list as a frame, where it has 14 bytes (R52). -/
def frameOfList (b : List Byte) : Option Frame :=
  if h : b.length = 14 then some ⟨b.toArray, by simpa using h⟩ else none

/-- `RM.PARSE(TS, F)` behind the test of `FAULT` (R109). -/
def rmParse (ts : BitVec 64) (b : List Byte) (s : State) : Res (Option Message) :=
  match frameOfList b with
  | none => .raised .bufferSize s
  | some f => .ok (if crcBytewise b = 0 then some ⟨ts, f⟩ else none) s

/-- The result of `RM.PARSE` for the host. -/
def messageReply : Option Message → Reply
  | some m => .message m
  | none => .noResult

/-- `RM.PARSE(TS, F) -> message | none` (R109). -/
def execRmParse (ts : BitVec 64) (b : List Byte) (s : State) : Host.Outcome State Fault Refusal :=
  guarded s (deliver (rmParse ts b s) messageReply)

/-- `RM.DF(F) -> df` (R110). -/
def execRmDf (f : Frame) (s : State) : Host.Outcome State Fault Refusal :=
  stateless s (.df (frameDf f))

/-- `RM.ICAO(F) -> a` (R111). -/
def execRmIcao (f : Frame) (s : State) : Host.Outcome State Fault Refusal :=
  stateless s (.icao (frameIcao f))

/-- `RM.ME(F) -> me` (R112). -/
def execRmMe (f : Frame) (s : State) : Host.Outcome State Fault Refusal :=
  stateless s (.me (frameMe f))

/-- The payload that `RM.TC` reads: of the frame, or the operand itself (R114). -/
def tcPayload : TcOperand → Payload
  | .frame f => frameMe f
  | .payload me => me

/-- `RM.TC(F) -> tc` (R114). -/
def execRmTc (src : TcOperand) (s : State) : Host.Outcome State Fault Refusal :=
  stateless s (.tc (payloadTc (tcPayload src)))

/-- `RM.CLASS(tc) -> kind` (R113). -/
def execRmClass (tc : BitVec 5) (s : State) : Host.Outcome State Fault Refusal :=
  stateless s (.kind (classOf iqd tc))

end Sys2Proof.Machine
end

