-- ==== Sys2Proof/Machine/Altitude.lean ====
section
/-! DEFINITION. Units GRAY, ALT and POS (spec/46_altitude_position.md). -/

namespace Sys2Proof.Machine

/-- `GRAY.DEC(g, w)`: `v <- v ^ (g >> k)` for `k` in `0 … w−1` (R118). -/
def grayDec (g w : Nat) : Nat :=
  (List.range w).foldl (fun v k => v ^^^ (g >>> k)) 0

/-- The operands that R118 admits: "`w`, a width with 1 ≤ w ≤ 31; `g`, an unsigned value below 2^w". -/
def grayInDomain (g w : Nat) : Bool :=
  decide (1 ≤ w) && decide (w ≤ 31) && decide (g < 2 ^ w)

/-- The result of `GRAY.DEC`: the decode of R118 on its domain, a free value outside it (log 30). -/
def grayResult (g w : Nat) : Nat :=
  if grayInDomain g w then grayDec g w else Config.grayOutsideDomain g w

/-- `GRAY.DEC(g, w) -> v` (R118). -/
def execGrayDec (g w : Nat) (s : State) : Host.Outcome State Fault Refusal :=
  stateless s (.gray (grayResult g w))

/-- `U`: the bits of `ALT` that `ALT_PERM` names, the first in the most significant place (R117). -/
def altReorder (cfg : Config) (alt : BitVec 12) : Nat :=
  cfg.altPerm.foldl (fun u b => 2 * u + (alt.getLsbD b).toNat) 0

/-- The altitude in feet with Q = 1 (R119). -/
def altLinear (alt : BitVec 12) : Int :=
  (altValue alt : Int) * 25 - 1000

/-- The altitude in feet from the decoded low and high groups, in the order of R120: the invalid values, the remap of 7
to 5, the complement `6 − low` for an odd high group (C1). -/
def altFromGroups (low high : Nat) : Option Int :=
  if low = 0 ∨ low = 5 ∨ low = 6 then none
  else
    let low1 : Int := if low = 7 then 5 else low
    let low2 : Int := if high % 2 = 1 then 6 - low1 else low1
    some (low2 * 100 + (high : Int) * 500 - 1300)

/-- The altitude in feet with Q = 0 (R120). -/
def altGray (cfg : Config) (alt : BitVec 12) : Option Int :=
  let u := altReorder cfg alt
  altFromGroups (grayDec (field u 0 3) 3) (grayDec (field u 3 9) 9)

/-- `ALT.DEC(ALT)` (R121). -/
def altDec (cfg : Config) (alt : BitVec 12) : Option Int :=
  if altQ alt then some (altLinear alt) else altGray cfg alt

/-- The result of `ALT.DEC` for the host. -/
def altReply : Option Int → Reply
  | some ft => .altitude ft
  | none => .noResult

/-- `ALT.DEC(ALT) -> ALT_FT | none` (R121). -/
def execAltDec (alt : BitVec 12) (s : State) : Host.Outcome State Fault Refusal :=
  stateless s (altReply (altDec iqd alt))

/-- `ALT_M = ALT_FT × 381 / 1250`, exactly (R122). -/
def altMetres (cfg : Config) (feet : Int) : ℚ :=
  (feet : ℚ) * cfg.ftToM

/-- A local coordinate `X / 2^17` (R123, R128). -/
def localOf (x : BitVec 17) : ℚ :=
  (x.toNat : ℚ) / 131072

/-- `POS.DEC(msg)` (R124). -/
def posDec (cfg : Config) (msg : Message) : Option PositionRecord :=
  let me := frameMe msg.bytes
  if classOf cfg (payloadTc me) ≠ .position then none
  else
    (altDec cfg (payloadAlt cfg me)).map fun a =>
      { ts := msg.ts, icao := frameIcao msg.bytes, altFt := a, par := payloadPar cfg me, x := payloadX me,
        y := payloadY me }

/-- The result of `POS.DEC` for the host. -/
def positionReply : Option PositionRecord → Reply
  | some p => .position p
  | none => .noResult

/-- `POS.DEC(msg) -> position | none` (R124). -/
def execPosDec (msg : Message) (s : State) : Host.Outcome State Fault Refusal :=
  stateless s (positionReply (posDec iqd msg))

end Sys2Proof.Machine
end

