-- ==== Sys2Proof/Machine/Cpr.lean ====
section
/-! DEFINITION. Unit CPR, the position combiner (spec/47_cpr.md): exact rational arithmetic (R12, R133); `CPR.NL` by the table
of R132, undecided within the last printed digit (log 13). -/

namespace Sys2Proof.Machine

/-- `rne(q)`: the nearest integer, a tie going to the even one (R12). -/
def rne (q : ℚ) : Int :=
  let f := q.floor
  let d := q - f
  if d < 1 / 2 then f else if 1 / 2 < d then f + 1 else if f % 2 = 0 then f else f + 1

/-- `angle(z, zones, local)`, in turns (R129). -/
def angle (z : Int) (zones : Int) (l : ℚ) : ℚ :=
  1 / (zones : ℚ) * (((if z < 0 then z + zones else z : Int) : ℚ) + l)

/-- `center(t)` (R129). -/
def center (t : ℚ) : ℚ :=
  if 1 / 2 ≤ t then t - 1 else t

/-- `T32(t) = rne(t × 2^32)` (R12, R129). -/
def t32 (t : ℚ) : Int :=
  rne (t * 4294967296)

/-- One threshold of R132: `Λ(n)` is `num / den` up to `slack / den`, the last printed digit (0 where it is exact). -/
structure ZoneRow where
  n : Nat
  num : Nat
  den : Nat
  slack : Nat
  deriving DecidableEq, Repr

/-- The thresholds `Λ(59)` to `Λ(40)` of R132. -/
def zoneTableA : List ZoneRow :=
  [⟨59, 290846424999133, 10 ^ 16, 1⟩, ⟨58, 411893732463542, 10 ^ 16, 1⟩, ⟨57, 505173988075394, 10 ^ 16, 1⟩,
   ⟨56, 584149859056371, 10 ^ 16, 1⟩, ⟨55, 65402902404365, 10 ^ 15, 1⟩, ⟨54, 717479085294127, 10 ^ 16, 1⟩,
   ⟨53, 776082975033866, 10 ^ 16, 1⟩, ⟨52, 830871023814399, 10 ^ 16, 1⟩, ⟨51, 882558252133639, 10 ^ 16, 1⟩,
   ⟨50, 931664843416263, 10 ^ 16, 1⟩, ⟨49, 978583221610124, 10 ^ 16, 1⟩, ⟨48, 102361808544265, 10 ^ 15, 1⟩,
   ⟨47, 10670116367812, 10 ^ 14, 1⟩, ⟨46, 110896019009275, 10 ^ 15, 1⟩, ⟨45, 114962550896119, 10 ^ 15, 1⟩,
   ⟨44, 118914278117877, 10 ^ 15, 1⟩, ⟨43, 122762637539425, 10 ^ 15, 1⟩, ⟨42, 126517408962785, 10 ^ 15, 1⟩,
   ⟨41, 130187034791632, 10 ^ 15, 1⟩, ⟨40, 133778864669351, 10 ^ 15, 1⟩]

/-- The thresholds `Λ(39)` to `Λ(20)` of R132. -/
def zoneTableB : List ZoneRow :=
  [⟨39, 137299345534881, 10 ^ 15, 1⟩, ⟨38, 140754171265385, 10 ^ 15, 1⟩, ⟨37, 144148401921355, 10 ^ 15, 1⟩,
   ⟨36, 147486559799889, 10 ^ 15, 1⟩, ⟨35, 150772707563137, 10 ^ 15, 1⟩, ⟨34, 154010512347085, 10 ^ 15, 1⟩,
   ⟨33, 157203298783498, 10 ^ 15, 1⟩, ⟨32, 160354093162948, 10 ^ 15, 1⟩, ⟨31, 163465660448569, 10 ^ 15, 1⟩,
   ⟨30, 166540535463724, 10 ^ 15, 1⟩, ⟨29, 169581049284621, 10 ^ 15, 1⟩, ⟨28, 172589351644732, 10 ^ 15, 1⟩,
   ⟨27, 175567429982832, 10 ^ 15, 1⟩, ⟨26, 178517125626874, 10 ^ 15, 1⟩, ⟨25, 181440147491169, 10 ^ 15, 1⟩,
   ⟨24, 184338083566184, 10 ^ 15, 1⟩, ⟨23, 187212410391241, 10 ^ 15, 1⟩, ⟨22, 190064500613426, 10 ^ 15, 1⟩,
   ⟨21, 19289562864289, 10 ^ 14, 1⟩, ⟨20, 195706974305211, 10 ^ 15, 1⟩]

/-- The thresholds `Λ(19)` to `Λ(2)` of R132. -/
def zoneTableC : List ZoneRow :=
  [⟨19, 198499624250805, 10 ^ 15, 1⟩, ⟨18, 201274570686915, 10 ^ 15, 1⟩, ⟨17, 204032706712996, 10 ^ 15, 1⟩,
   ⟨16, 206774817103476, 10 ^ 15, 1⟩, ⟨15, 209501562684816, 10 ^ 15, 1⟩, ⟨14, 212213455299846, 10 ^ 15, 1⟩,
   ⟨13, 214910818370228, 10 ^ 15, 1⟩, ⟨12, 217593724525632, 10 ^ 15, 1⟩, ⟨11, 220261895151581, 10 ^ 15, 1⟩,
   ⟨10, 222914533702237, 10 ^ 15, 1⟩, ⟨9, 225550037479776, 10 ^ 15, 1⟩, ⟨8, 22816547168085, 10 ^ 14, 1⟩,
   ⟨7, 230755540131106, 10 ^ 15, 1⟩, ⟨6, 23331037674946, 10 ^ 14, 1⟩, ⟨5, 235810171963947, 10 ^ 15, 1⟩,
   ⟨4, 238209489470678, 10 ^ 15, 1⟩, ⟨3, 240376027708669, 10 ^ 15, 1⟩, ⟨2, 87, 360, 0⟩]

/-- The thresholds of R132, for `n` from 59 down to 2. -/
def zoneTable : List ZoneRow :=
  zoneTableA ++ zoneTableB ++ zoneTableC

/-- The zone count of a folded latitude above 0: the first row whose threshold it does not pass (R132). Within the last
printed digit the row is a free value (U10, log 13). -/
def zonesFrom : List ZoneRow → ℚ → Nat
  | [], _ => 1
  | r :: rest, phi =>
    if phi * r.den ≤ (r.num : ℚ) - r.slack then r.n
    else if (r.num : ℚ) + r.slack ≤ phi * r.den then zonesFrom rest phi
    else if Config.nlWithinDigit r.n phi then r.n
    else zonesFrom rest phi

/-- `NL_EQUATOR`, 59 or 60: the open parameter (R133 (c), U6, log 12). -/
def nlEquator : Nat :=
  if Config.nlEquatorIsSixty then 60 else 59

/-- The latitude folded into `[0, 1/4]` turn: `φ = |center(lat)|`, and `1/2 − φ` where that is above a quarter (R132). A
latitude outside `[0, 1)` is first reduced by whole turns, which `cos` does not see (R131, log 14). -/
def foldLat (lat : ℚ) : ℚ :=
  let phi := |center (lat - lat.floor)|
  if 1 / 4 < phi then 1 / 2 - phi else phi

/-- `CPR.NL(lat)` (R131, in the table form of R132). -/
def zoneCount (lat : ℚ) : Nat :=
  if foldLat lat = 0 then nlEquator else zonesFrom zoneTable (foldLat lat)

/-- `CPR.NL(lat) -> n` (R131). -/
def execCprNl (lat : ℚ) (s : State) : Host.Outcome State Fault Refusal :=
  stateless s (.zones (zoneCount lat))

/-- `−2^30 ≤ LAT ≤ 2^30` (R130, step 4). -/
def latInRange (l : Int) : Bool :=
  decide (-1073741824 ≤ l) && decide (l ≤ 1073741824)

/-- The longitudes of steps 5 and 6 of R130: even, then odd. -/
def longitudes (n0 : Nat) (x0 x1 : ℚ) : Int × Int :=
  if n0 = 1 then (t32 (center x0), t32 (center x1))
  else
    let zlam := rne (x0 * ((n0 : ℚ) - 1) - x1 * n0)
    (t32 (center (angle zlam n0 x0)), t32 (center (angle zlam ((n0 : Int) - 1) x1)))

/-- `CPR.DEC` on locals in `[0, 1)`, from the zone counts of the two latitudes on (R130, steps 3 to 7): longitude, then
latitude. -/
def cprFrom (n0 n1 : Nat) (lat0 lat1 x0 x1 : ℚ) (recent : Bool) : Option (Int × Int) :=
  if n0 ≠ n1 then none
  else
    let l0 := t32 (center lat0)
    let l1 := t32 (center lat1)
    if latInRange l0 && latInRange l1 then
      let lon := longitudes n0 x0 x1
      some (if recent then (lon.2, l1) else (lon.1, l0))
    else none

/-- `zphi` (R130, step 1). -/
def zphi (y0 y1 : ℚ) : Int :=
  rne (y0 * 59 - y1 * 60)

/-- `CPR.DEC` on locals in `[0, 1)` (R128, R130). -/
def cprLocal (x0 y0 x1 y1 : ℚ) (recent : Bool) : Option (Int × Int) :=
  let lat0 := angle (zphi y0 y1) 60 y0
  let lat1 := angle (zphi y0 y1) 59 y1
  cprFrom (zoneCount lat0) (zoneCount lat1) lat0 lat1 x0 x1 recent

/-- `CPR.DEC` on the four raw 17-bit fields (R130). -/
def cprDec (x0 y0 x1 y1 : BitVec 17) (recent : Bool) : Option (Int × Int) :=
  cprLocal (localOf x0) (localOf y0) (localOf x1) (localOf y1) recent

/-- The result of `CPR.DEC` for the host. -/
def globalReply : Option (Int × Int) → Reply
  | some (lon, lat) => .global lon lat
  | none => .noResult

/-- `CPR.DEC(X0, Y0, X1, Y1, recent) -> (LON_T32, LAT_T32) | none` (R130). -/
def execCprDec (x0 y0 x1 y1 : BitVec 17) (recent : Bool) (s : State) : Host.Outcome State Fault Refusal :=
  stateless s (globalReply (cprDec x0 y0 x1 y1 recent))

end Sys2Proof.Machine
end

