-- ==== Sys2Proof/Machine/Flags.lean ====
section
/-! DEFINITION. The block has no flags and no condition codes (spec/10_state.md R22): its status values, computed on demand
and stored nowhere. The counts of `SD.READ` and `PC.READ` and the no-frame sentinel are results (`Reply`). -/

namespace Sys2Proof.Machine

/-- `POS + WSIZE ≤ NLOADED`, on mathematical integers (R78, R138). -/
def windowFull (s : State) : Bool :=
  decide ((s.pos.toNat : Int) + s.wsize ≤ (s.nloaded.toNat : Int))

/-- A count returned by a read: zero means the end of the stream (R22, R63). -/
def readCount {α : Type} (xs : List α) : Nat :=
  xs.length

end Sys2Proof.Machine
end

