-- ==== Sys2Proof/Machine/Chain.lean ====
section
/-! DEFINITION. Unit SD (spec/40_sample_decoder.md) and unit PC (spec/41_power_computer.md). -/

namespace Sys2Proof.Machine

/-! ### Unit SD -/

/-- The samples `w − 2048` of the words of a byte list; a lone last byte is dropped (R38, R60 to R62). `none` where a word
is above 4095 (R33, U1). -/
def samplesOf : List Byte → Option (List Int)
  | lo :: hi :: r =>
    if sampleWord lo hi ≤ 4095 then (samplesOf r).map fun s => ((sampleWord lo hi : Int) - bias) :: s else none
  | _ => some []

/-- `SD.READ(n)` behind the test of `FAULT` (R62). -/
def sdRead (n : Int) (s : State) : Res (List Int) :=
  if n ≠ s.sdBatch then .raised .bufferSize s
  else
    andThen (streamRead (2 * s.sdBatch).toNat s) fun b s1 =>
      match samplesOf b with
      | some xs => .ok xs s1
      | none => .refused .illFormedStream

/-- `SD.READ(n) -> (c, S[0..c-1])` (R62). -/
def execSdRead (n : Nat) (s : State) : Host.Outcome State Fault Refusal :=
  guarded s (deliver (sdRead n s) fun xs => .samples (readCount xs) xs)

/-! ### Unit PC -/

/-- The in-phase sum `I` over the history, `i` the oldest slot (R67). -/
def sumI (h : History) (i : Nat) : Int :=
  histGet h (i + 1) - histGet h (i + 3) + histGet h (i + 5) - histGet h (i + 7)

/-- The quadrature sum `Q` over the history (R67). -/
def sumQ (h : History) (i : Nat) : Int :=
  histGet h i - histGet h (i + 2) + histGet h (i + 4) - histGet h (i + 6)

/-- `I × I + Q × Q` (R67). -/
def powerAt (h : History) (i : Nat) : Int :=
  sumI h i * sumI h i + sumQ h i * sumQ h i

/-- The history after a pair: `H[K] <- a`, `H[K+1] <- b` (R67). -/
def histPair (h : History) (k : BitVec 3) (a b : Int) : History :=
  histPut (histPut h k.toNat a) (k.toNat + 1) b

/-- `PairStep` over the pairs of a sample list, a lone last sample dropped: the history, `K` and the power samples
(R67, R68). -/
def pairSteps : History → BitVec 3 → List Int → History × BitVec 3 × List Power
  | h, k, a :: b :: r =>
    let h1 := histPair h k a b
    let k1 := k + 2
    let p := BitVec.ofInt 28 (powerAt h1 k1.toNat)
    let t := pairSteps h1 k1 r
    (t.1, t.2.1, p :: t.2.2)
  | h, k, _ => (h, k, [])

/-- `PC.READ(n)` behind the test of `FAULT` (R68). -/
def pcRead (n : Int) (s : State) : Res (List Power) :=
  if n ≠ s.pcBatch then .raised .bufferSize s
  else
    andThen (sdRead (2 * s.pcBatch) s) fun xs s1 =>
      let t := pairSteps s1.h s1.k xs
      .ok t.2.2 { s1 with h := t.1, k := t.2.1 }

/-- `PC.READ(n) -> (m, Pw[0..m-1])` (R68). -/
def execPcRead (n : Nat) (s : State) : Host.Outcome State Fault Refusal :=
  guarded s (deliver (pcRead n s) fun ps => .powers (readCount ps) ps)

end Sys2Proof.Machine
end

