-- ==== Sys2Proof/Machine/Window.lean ====
section
/-! DEFINITION. Unit PW, the power window (spec/42_power_window.md). -/

namespace Sys2Proof.Machine

/-- `Locate(i)`: the bank and the index of a window offset (R76). -/
def locate (s : State) (i : Nat) : Fin 2 × Nat :=
  let k := s.pib.toNat + i
  if k < 65536 then (s.cur, k) else (1 - s.cur, k - 65536)

/-- The bank entry at a window offset: `MemRead(Locate(i))` (R77). -/
def windowAt (s : State) (i : Nat) : Power :=
  memRead s.mem (locate s i).1 (locate s i).2

/-- One `PC.READ(65536)` with a whole bank as its buffer; the value is the count `m` (R73, R35). -/
def refill (b : Fin 2) (s : State) : Res Nat :=
  andThen (pcRead batch s) fun ps s1 => .ok (readCount ps) { s1 with mem := memFill s1.mem b ps }

/-- `PW.INIT` behind its two refusal tests (R75). -/
def pwInit (s : State) : Res Unit :=
  if ¬(1 ≤ s.wsize ∧ s.wsize < 65536) then .raised .wsize s
  else
    andThen (refill 0 s) fun m s1 =>
      .ok () { s1 with nloaded := BitVec.ofNat 64 m, cur := 0, pib := 0, pos := 0, inited := true }

/-- `PW.INIT() ->` (R75). -/
def execPwInit (s : State) : Host.Outcome State Fault Refusal :=
  guarded s (if s.inited then .refused .alreadyInitialised else deliver (pwInit s) fun _ => .done)

/-- `PW.GET(i)` behind its refusal tests (R77). -/
def pwGet (i : Int) (s : State) : Res Power :=
  if ¬(0 ≤ i ∧ i < s.wsize) then .raised .index s else .ok (windowAt s i.toNat) s

/-- `PW.GET(i) -> v` (R77). -/
def execPwGet (i : Int) (s : State) : Host.Outcome State Fault Refusal :=
  guardedInit s (deliver (pwGet i s) fun p => .power p)

/-- `PW.FULL() -> bool` (R78). -/
def execPwFull (s : State) : Host.Outcome State Fault Refusal :=
  guardedInit s (.next (s.reply (.bool (windowFull s))))

/-- `PW.POS() -> POS` (R79). -/
def execPwPos (s : State) : Host.Outcome State Fault Refusal :=
  guardedInit s (.next (s.reply (.pos s.pos)))

/-- The refill of `PW.ADV`, made where the last window sample enters the spare bank (R80). -/
def advRefill (s : State) : Res Unit :=
  if (s.pib.toNat : Int) + 1 + s.wsize - 1 = 65536 then
    andThen (refill (1 - s.cur) s) fun m s1 =>
      if s1.nloaded.toNat + m < 2 ^ 64 then .ok () { s1 with nloaded := s1.nloaded + BitVec.ofNat 64 m }
      else .refused .counterRange
  else .ok () s

/-- The registers after one sample: `POS <- POS + 1`, and the swap where the first window sample leaves the current bank
(R80). -/
def advRegs (s : State) : State :=
  if s.pib.toNat + 1 = 65536 then { s with pos := s.pos + 1, cur := 1 - s.cur, pib := 0 }
  else { s with pos := s.pos + 1, pib := s.pib + 1 }

/-- `PW.ADV` behind its refusal tests (R80, R163). -/
def pwAdv (s : State) : Res Unit :=
  andThen (advRefill s) fun _ s1 =>
    if posInRange (s1.pos.toNat + 1) then .ok () (advRegs s1) else .refused .counterRange

/-- `PW.ADV() ->` (R80). -/
def execPwAdv (s : State) : Host.Outcome State Fault Refusal :=
  guardedInit s (deliver (pwAdv s) fun _ => .done)

/-- `repeat n times: PW.ADV()` (R81). -/
def advTimes : Nat → State → Res Unit
  | 0, s => .ok () s
  | n + 1, s => andThen (pwAdv s) fun _ s1 => advTimes n s1

/-- `PW.ADVN(n)` behind its refusal tests (R81). -/
def pwAdvn (n : Int) (s : State) : Res Unit :=
  if n ≤ 0 then .raised .count s else advTimes n.toNat s

/-- `PW.ADVN(n) ->` (R81). -/
def execPwAdvn (n : Int) (s : State) : Host.Outcome State Fault Refusal :=
  guardedInit s (deliver (pwAdvn n s) fun _ => .done)

end Sys2Proof.Machine
end

