-- ==== Sys2Proof/Machine/Demod.lean ====
section
/-! DEFINITION. Unit DM, the preamble detector and frame extractor (spec/43_demodulator.md). -/

namespace Sys2Proof.Machine

/-- `g(i)`: the power sample at a window offset, as a number (R85). -/
def g (s : State) (i : Nat) : Nat :=
  (windowAt s i).toNat

/-- `peak(o)` (R87). -/
def peak (s : State) (o : Nat) : Nat :=
  g s (o + 0) + g s (o + 10) + g s (o + 35) + g s (o + 45)

/-- `valley(o)` (R87). -/
def valley (s : State) (o : Nat) : Nat :=
  g s (o + 5) + g s (o + 15) + g s (o + 20) + g s (o + 25) + g s (o + 30) + g s (o + 40)

/-- The acceptance test (R89). -/
def accepts (cfg : Config) (s : State) : Bool :=
  decide (2 * valley s 0 ≤ peak s 0) && decide (peak s cfg.nextOfs < peak s 0) && decide (s.prev.toNat < peak s 0)

/-- `Bit(k)` (R90), with the polarity a configuration field (G7, log 16). -/
def frameBit (cfg : Config) (s : State) (k : Nat) : Bool :=
  let first := g s (dataOfs + bitSpan * k)
  let second := g s (dataOfs + half + bitSpan * k)
  if cfg.oneIsRising then decide (first < second) else decide (second < first)

/-- `Byte(j)`: bits `8j … 8j+7`, the first in the most significant place (R91). -/
def frameByte (cfg : Config) (s : State) (j : Nat) : Byte :=
  (List.range 8).foldl (fun v r => v + BitVec.ofNat 8 ((frameBit cfg s (8 * j + r)).toNat <<< (7 - r))) 0

/-- `[Byte(0), …, Byte(13)]` (R92). -/
def frameBytes (cfg : Config) (s : State) : Frame :=
  Vector.ofFn fun j => frameByte cfg s j

/-- The highest window offset that the sums of R87 read. -/
def sumReach (cfg : Config) : Nat :=
  max 45 (cfg.nextOfs + 45)

/-- The highest window offset that `Byte(j)` reads (R90). -/
def byteReach (j : Nat) : Nat :=
  dataOfs + half + bitSpan * (8 * j + 7)

/-- `g(i)` is `PW.GET(i)`: a rule that reads up to `reach` raises where `reach` is no legal index (R77, log 19). In the
chain, `WSIZE = 1200`, this never happens (R92). -/
def needIndex (reach : Nat) (s : State) : Res Unit :=
  if (reach : Int) < s.wsize then .ok () s else .raised .index s

/-- One scanned position (R92): the sums, `PREV`, the acceptance test, the DF test and the CRC test. The value is the
frame, if all tests pass. -/
def scan (cfg : Config) (s : State) : Res (Option Frame) :=
  andThen (needIndex (sumReach cfg) s) fun _ s =>
    let s1 := { s with prev := BitVec.ofNat 30 (peak s 0) }
    if accepts cfg s then
      andThen (needIndex (byteReach 0) s1) fun _ s1 =>
        if dfOfByte (frameByte cfg s1 0) = dfAdsb then
          andThen (needIndex (byteReach 13) s1) fun _ s1 =>
            if crcBytewise (frameBytes cfg s1).toList = 0 then .ok (some (frameBytes cfg s1)) s1 else .ok none s1
        else .ok none s1
    else .ok none s1

/-- A frame was found (R92): `TS <- POS × 100` (R86), then the window moves past it. -/
def takeFrameAt (f : Frame) (s : State) : Res (Option (BitVec 64 × Frame)) :=
  if posInRange s.pos.toNat then
    andThen (pwAdvn frameSpan s) fun _ s1 => .ok (some (BitVec.ofNat 64 (s.pos.toNat * tsScale), f)) s1
  else .refused .counterRange

/-- The loop of `DM.NEXT` (R92), on fuel. -/
def dmLoop (cfg : Config) : Nat → State → Res (Option (BitVec 64 × Frame))
  | 0, _ => .stuck .neverReturns
  | fuel + 1, s =>
    if windowFull s then
      andThen (scan cfg s) fun found s1 =>
        match found with
        | some f => takeFrameAt f s1
        | none => andThen (pwAdv s1) fun _ s2 => dmLoop cfg fuel s2
    else .ok none s

/-- Enough fuel: every iteration moves the window by one sample at least, and no more than one sample is loaded for each
event left in the byte source. -/
def dmFuel (s : State) : Nat :=
  ((s.nloaded.toNat : Int) + s.source.length - s.wsize - s.pos.toNat).toNat + 2

/-- `DM.NEXT` behind its refusal tests (R92). -/
def dmNext (cfg : Config) (s : State) : Res (Option (BitVec 64 × Frame)) :=
  dmLoop cfg (dmFuel s) s

/-- The result of `DM.NEXT` for the host. -/
def frameReply : Option (BitVec 64 × Frame) → Reply
  | some (ts, f) => .frame ts f
  | none => .noFrame

/-- `DM.NEXT() -> frame(TS, F[0..13]) | none` (R92). -/
def execDmNext (s : State) : Host.Outcome State Fault Refusal :=
  guardedInit s (deliver (dmNext iqd s) frameReply)

end Sys2Proof.Machine
end

