-- ==== Sys2Proof/Machine/Formats.lean ====
section
/-! DEFINITION. The data-format rows of spec/opcode_table.json (spec/30_encoding.md R47 to R51, R56): a data word presented
under its format is taken apart into the fields its rule names (log 3). -/

namespace Sys2Proof.Machine

/-- The fields of a frame (R48). -/
def fieldsOfFrame (f : Frame) : FrameFields :=
  { df := frameDf f, low := frameLow f, icao := frameIcao f, me := frameMe f, pi := framePi f }

/-- The fields of a payload of class POSITION (R50). -/
def fieldsOfPosition (cfg : Config) (me : Payload) : PositionFields :=
  { tc := payloadTc me, alt := payloadAlt cfg me, par := payloadPar cfg me, y := payloadY me, x := payloadX me }

/-- The named bits of an altitude field with Q = 0 (R51). -/
def modeCBits (alt : BitVec 12) : ModeCBits :=
  { c1 := alt.getLsbD 11, a1 := alt.getLsbD 10, c2 := alt.getLsbD 9, a2 := alt.getLsbD 8, c4 := alt.getLsbD 7,
    a4 := alt.getLsbD 6, b1 := alt.getLsbD 5, b2 := alt.getLsbD 3, d2 := alt.getLsbD 2, b4 := alt.getLsbD 1,
    d4 := alt.getLsbD 0 }

/-- FMT.SAMPLE_WORD: the sample is `u − 2048` (R47, R61). -/
def execFmtSampleWord (u : BitVec 12) (s : State) : Host.Outcome State Fault Refusal :=
  .next (s.reply (.sampleValue ((u.toNat : Int) - bias)))

/-- FMT.FRAME: the fields of any frame whose DF is not 17 (R48, R56). -/
def execFmtFrame (f : Frame) (s : State) : Host.Outcome State Fault Refusal :=
  .next (s.reply (.frameFields (fieldsOfFrame f)))

/-- FMT.FRAME.DF17: the fields of a frame with DF = 17 (R48, R56). -/
def execFmtFrameDf17 (f : Frame) (s : State) : Host.Outcome State Fault Refusal :=
  .next (s.reply (.frameFields (fieldsOfFrame f)))

/-- FMT.ME: the type code and the 51 bits that depend on the kind (R49). -/
def execFmtMe (me : Payload) (s : State) : Host.Outcome State Fault Refusal :=
  .next (s.reply (.payloadFields (payloadTc me) (BitVec.ofNat 51 (field me.toNat 0 51))))

/-- FMT.ME.POSITION: the fields of a position payload (R50). -/
def execFmtMePosition (me : Payload) (s : State) : Host.Outcome State Fault Refusal :=
  .next (s.reply (.positionFields (fieldsOfPosition iqd me)))

/-- FMT.ALT.Q1: the two groups and their recombination (R51). -/
def execFmtAltQ1 (alt : BitVec 12) (s : State) : Host.Outcome State Fault Refusal :=
  .next (s.reply (.altQ1 (altHigh alt) (altLow alt) (altValue alt)))

/-- FMT.ALT.Q0: the named bits (R51). -/
def execFmtAltQ0 (alt : BitVec 12) (s : State) : Host.Outcome State Fault Refusal :=
  .next (s.reply (.altQ0 (modeCBits alt)))

end Sys2Proof.Machine
end

