-- ==== Sys2Proof/Machine/Reset.lean ====
section
/-! DEFINITION. `RESET` (spec/70_reset_and_hazards.md R150, R151). -/

namespace Sys2Proof.Machine

/-- `PC_BATCH ≤ 0 or PC_BATCH mod 8 ≠ 0 or SD_BATCH ≤ 0` (R150). -/
def batchIllegal (p : Params) : Bool :=
  decide (p.pcBatch ≤ 0) || decide (p.pcBatch % 8 ≠ 0) || decide (p.sdBatch ≤ 0)

/-- The registers of R16 and R17 at their reset values (R151); the configuration registers are read again from the
instantiation parameters (R17). The host's stream, the requests and the model's counter are not touched (R151, log 18). -/
def resetRegs (s : State) : State :=
  { s with
    h := Vector.replicate 8 0
    k := 0
    mem := ⟨[], []⟩
    cur := 0
    pib := 0
    pos := 0
    nloaded := 0
    prev := 0
    inited := false
    fault := if batchIllegal s.params then some .batchSize else none
    wsize := s.params.wsize
    pcBatch := s.params.pcBatch
    sdBatch := s.params.sdBatch }

/-- `RESET() ->`, never refused (R150). An illegal batch size is "latched, not raised to anyone". -/
def execReset (s : State) : Host.Outcome State Fault Refusal :=
  .next ((resetRegs s).reply .done)

end Sys2Proof.Machine
end

