-- ==== Sys2Proof/Machine/Dispatch.lean ====
section
/-! DEFINITION. One arm for each row of spec/opcode_table.json. -/

namespace Sys2Proof.Machine

def exec (i : Instr) (s : State) : Host.Outcome State Fault Refusal :=
  match i with
  | .reset => Sys2Proof.Machine.execReset s
  | .sdRead n => Sys2Proof.Machine.execSdRead n s
  | .pcRead n => Sys2Proof.Machine.execPcRead n s
  | .pwInit => Sys2Proof.Machine.execPwInit s
  | .pwGet idx => Sys2Proof.Machine.execPwGet idx s
  | .pwFull => Sys2Proof.Machine.execPwFull s
  | .pwAdv => Sys2Proof.Machine.execPwAdv s
  | .pwAdvn n => Sys2Proof.Machine.execPwAdvn n s
  | .pwPos => Sys2Proof.Machine.execPwPos s
  | .dmNext => Sys2Proof.Machine.execDmNext s
  | .crcBit b => Sys2Proof.Machine.execCrcBit b s
  | .crcByte b => Sys2Proof.Machine.execCrcByte b s
  | .crcChk b => Sys2Proof.Machine.execCrcChk b s
  | .bitsX value start size => Sys2Proof.Machine.execBitsX value start size s
  | .rmParse ts b => Sys2Proof.Machine.execRmParse ts b s
  | .rmDf f => Sys2Proof.Machine.execRmDf f s
  | .rmIcao f => Sys2Proof.Machine.execRmIcao f s
  | .rmMe f => Sys2Proof.Machine.execRmMe f s
  | .rmTc src => Sys2Proof.Machine.execRmTc src s
  | .rmClass tc => Sys2Proof.Machine.execRmClass tc s
  | .grayDec g w => Sys2Proof.Machine.execGrayDec g w s
  | .altDec alt => Sys2Proof.Machine.execAltDec alt s
  | .posDec msg => Sys2Proof.Machine.execPosDec msg s
  | .cprNl lat => Sys2Proof.Machine.execCprNl lat s
  | .cprDec x0 y0 x1 y1 recent => Sys2Proof.Machine.execCprDec x0 y0 x1 y1 recent s
  | .fmtSampleWord u => Sys2Proof.Machine.execFmtSampleWord u s
  | .fmtFrame f => Sys2Proof.Machine.execFmtFrame f s
  | .fmtFrameDf17 f => Sys2Proof.Machine.execFmtFrameDf17 f s
  | .fmtMe me => Sys2Proof.Machine.execFmtMe me s
  | .fmtMePosition me => Sys2Proof.Machine.execFmtMePosition me s
  | .fmtAltQ1 alt => Sys2Proof.Machine.execFmtAltQ1 alt s
  | .fmtAltQ0 alt => Sys2Proof.Machine.execFmtAltQ0 alt s

end Sys2Proof.Machine
end

