-- ==== Sys2Proof/WellFormed.lean ====
section
/-! DEFINITION. Which terms of `Instr` are operations with legal operand types (spec/30_encoding.md R45 and the operand
lines of the unit files), within the operand sizes of the request encoding (log 2). -/

namespace Sys2Proof

/-- A buffer length, or the operand `g` of `GRAY.DEC`, fits the four bytes of its operand (log 2). -/
def lengthOk (n : Nat) : Bool :=
  decide (n < 2 ^ 32)

/-- An integer operand fits the eight bytes of its two's complement (log 2). -/
def intOk (i : Int) : Bool :=
  decide (-2 ^ 63 ≤ i) && decide (i < 2 ^ 63)

/-- The well-formed operations and data words. -/
def WellFormed : Instr → Bool
  | .sdRead n | .pcRead n => lengthOk n
  | .pwGet i => intOk i
  | .pwAdvn n => intOk n
  | .crcBit b | .crcByte b | .crcChk b => lengthOk b.length
  | .bitsX _ start size => intOk start && intOk size
  | .rmParse _ b => lengthOk b.length
  | .grayDec g w => lengthOk g && decide (w < 256)
  | .cprNl lat => intOk lat.num && decide (lat.den ≤ 2 ^ 64)
  -- R48, R56: a frame with DF = 17 is the row FMT.FRAME.DF17
  | .fmtFrame f => Machine.frameDf f != Machine.dfAdsb
  | .fmtFrameDf17 f => Machine.frameDf f == Machine.dfAdsb
  -- R50: a payload of class POSITION is the row FMT.ME.POSITION
  | .fmtMe me => Machine.classOf Machine.iqd (Machine.payloadTc me) != .position
  | .fmtMePosition me => Machine.classOf Machine.iqd (Machine.payloadTc me) == .position
  -- R51: the Q bit tells the two altitude rows apart
  | .fmtAltQ1 alt => Machine.altQ alt
  | .fmtAltQ0 alt => !Machine.altQ alt
  | .reset | .pwInit | .pwFull | .pwAdv | .pwPos | .dmNext => true
  | .rmDf _ | .rmIcao _ | .rmMe _ | .rmTc _ | .rmClass _ => true
  | .altDec _ | .posDec _ | .cprDec .. | .fmtSampleWord _ => true

end Sys2Proof
end

