-- ==== Sys2Proof/Decode.lean ====
section
/-! DEFINITION. The request encoding: decoder and encoder. The select codes and the data formats are the spec's
(spec/30_encoding.md R45, R47 to R51); the operand bytes and the tag of a data word are the model's (log 2, log 3). -/

namespace Sys2Proof

/-- Why bytes are no request. -/
inductive DecodeError
  /-- the bytes end before the operands do -/
  | truncated
  /-- an operation code 0x19 to 0x1F (R45, R54) -/
  | unassignedCode
  /-- bits that the encoding fixes at zero are not zero (R47; log 2) -/
  | reservedBits
  deriving DecidableEq, Repr

/-- The `n` bytes of `v`, least significant first. -/
def leBytes : Nat → Nat → List Byte
  | 0, _ => []
  | n + 1, v => BitVec.ofNat 8 v :: leBytes n (v / 256)

/-- The `n` bytes of `v`, most significant first. -/
def beBytes (n v : Nat) : List Byte :=
  (leBytes n v).reverse

/-- The bytes of an integer operand: eight, two's complement, least significant first (log 2). -/
def intBytes (i : Int) : List Byte :=
  leBytes 8 (BitVec.ofInt 64 i).toNat

/-- Take `n` bytes off the front. -/
def takeBytes : Nat → List Byte → Except DecodeError (List Byte × List Byte)
  | 0, r => .ok ([], r)
  | _ + 1, [] => .error .truncated
  | n + 1, b :: r =>
    match takeBytes n r with
    | .ok (bs, r') => .ok (b :: bs, r')
    | .error e => .error e

/-- The number whose bytes are given, least significant first. -/
def leValue : List Byte → Nat
  | [] => 0
  | b :: r => b.toNat + 256 * leValue r

/-- Take an `n`-byte number, least significant byte first. -/
def takeNat (n : Nat) (r : List Byte) : Except DecodeError (Nat × List Byte) :=
  match takeBytes n r with
  | .ok (bs, r') => .ok (leValue bs, r')
  | .error e => .error e

/-- Take an eight-byte two's complement integer. -/
def takeInt (r : List Byte) : Except DecodeError (Int × List Byte) :=
  match takeNat 8 r with
  | .ok (v, r') => .ok ((BitVec.ofNat 64 v).toInt, r')
  | .error e => .error e

/-- Take an `n`-byte number that fits `w` bits. -/
def takeBits (n w : Nat) (r : List Byte) : Except DecodeError (BitVec w × List Byte) :=
  match takeNat n r with
  | .ok (v, r') => if v < 2 ^ w then .ok (BitVec.ofNat w v, r') else .error .reservedBits
  | .error e => .error e

/-- Take the 14 bytes of a frame, `F[0]` first. -/
def takeFrame : List Byte → Except DecodeError (Frame × List Byte)
  | f0 :: f1 :: f2 :: f3 :: f4 :: f5 :: f6 :: f7 :: f8 :: f9 :: f10 :: f11 :: f12 :: f13 :: r =>
    .ok (#v[f0, f1, f2, f3, f4, f5, f6, f7, f8, f9, f10, f11, f12, f13], r)
  | _ => .error .truncated

/-- Take the seven bytes of a payload, the most significant first (R34). -/
def takePayload (r : List Byte) : Except DecodeError (Payload × List Byte) :=
  match takeBytes 7 r with
  | .ok (bs, r') => .ok (BitVec.ofNat 56 (leValue bs.reverse), r')
  | .error e => .error e

/-- Take a byte list: four bytes of length, then the bytes (log 2). -/
def takeList (r : List Byte) : Except DecodeError (List Byte × List Byte) :=
  match takeNat 4 r with
  | .ok (n, r') => takeBytes n r'
  | .error e => .error e

/-- The operation codes of R45. -/
def opCode : Instr → Option Nat
  | .reset => some 0x00
  | .sdRead _ => some 0x01
  | .pcRead _ => some 0x02
  | .pwInit => some 0x03
  | .pwGet _ => some 0x04
  | .pwFull => some 0x05
  | .pwAdv => some 0x06
  | .pwAdvn _ => some 0x07
  | .pwPos => some 0x08
  | .dmNext => some 0x09
  | .crcBit _ => some 0x0A
  | .crcByte _ => some 0x0B
  | .crcChk _ => some 0x0C
  | .bitsX .. => some 0x0D
  | .rmParse .. => some 0x0E
  | .rmDf _ => some 0x0F
  | .rmIcao _ => some 0x10
  | .rmMe _ => some 0x11
  | .rmTc _ => some 0x12
  | .rmClass _ => some 0x13
  | .grayDec .. => some 0x14
  | .altDec _ => some 0x15
  | .posDec _ => some 0x16
  | .cprNl _ => some 0x17
  | .cprDec .. => some 0x18
  | .fmtSampleWord _ | .fmtFrame _ | .fmtFrameDf17 _ | .fmtMe _ | .fmtMePosition _ | .fmtAltQ1 _ | .fmtAltQ0 _ => none

/-- The tag byte before a 16-bit sample word (log 3). -/
def tagSample : Nat := 0x20
/-- The tag byte before a 112-bit frame (log 3). -/
def tagFrame : Nat := 0x40
/-- The tag byte before a 56-bit payload (log 3). -/
def tagPayload : Nat := 0x60
/-- The tag byte before a 12-bit altitude field (log 3). -/
def tagAlt : Nat := 0x80

/-- The operands of `RM.TC`: a form bit in a byte, 0 for a frame and 1 for a payload (R114, log 2). -/
def takeTc (r : List Byte) : Except DecodeError (Instr × List Byte) := do
  let (form, r) ← takeBits 1 1 r
  if form = 0 then
    let (f, r) ← takeFrame r
    .ok (.rmTc (.frame f), r)
  else
    let (me, r) ← takePayload r
    .ok (.rmTc (.payload me), r)

/-- The operands of `GRAY.DEC`: a byte `w` and four bytes `g`, at every value (R118, log 2, log 30). -/
def takeGray (r : List Byte) : Except DecodeError (Instr × List Byte) := do
  let (w, r) ← takeNat 1 r
  let (g, r) ← takeNat 4 r
  .ok (.grayDec g w, r)

/-- The operand of `CPR.NL`: eight bytes of numerator and eight bytes of denominator less one (log 2). -/
def takeNl (r : List Byte) : Except DecodeError (Instr × List Byte) := do
  let (num, r) ← takeInt r
  let (den', r) ← takeNat 8 r
  .ok (.cprNl (mkRat num (den' + 1)), r)

/-- The operands of `CPR.DEC`: three bytes for each 17-bit field and one for `recent` (log 2). -/
def takeCpr (r : List Byte) : Except DecodeError (Instr × List Byte) := do
  let (x0, r) ← takeBits 3 17 r
  let (y0, r) ← takeBits 3 17 r
  let (x1, r) ← takeBits 3 17 r
  let (y1, r) ← takeBits 3 17 r
  let (recent, r) ← takeBits 1 1 r
  .ok (.cprDec x0 y0 x1 y1 (recent.getLsbD 0), r)

/-- A frame data word: one of the two frame rows (R48, R56). -/
def frameRow (f : Frame) : Instr :=
  if Machine.frameDf f = Machine.dfAdsb then .fmtFrameDf17 f else .fmtFrame f

/-- A payload data word: one of the two payload rows (R49, R50). -/
def payloadRow (me : Payload) : Instr :=
  if Machine.classOf Machine.iqd (Machine.payloadTc me) = .position then .fmtMePosition me else .fmtMe me

/-- An altitude data word: one of the two altitude rows (R51). -/
def altRow (alt : BitVec 12) : Instr :=
  if Machine.altQ alt then .fmtAltQ1 alt else .fmtAltQ0 alt

/-- The request whose first byte is `code` and whose further bytes begin `r`. -/
def decodeAs (code : Nat) (r : List Byte) : Except DecodeError (Instr × List Byte) :=
  match code with
  | 0x00 => .ok (.reset, r)
  | 0x01 => do let (n, r) ← takeNat 4 r; .ok (.sdRead n, r)
  | 0x02 => do let (n, r) ← takeNat 4 r; .ok (.pcRead n, r)
  | 0x03 => .ok (.pwInit, r)
  | 0x04 => do let (i, r) ← takeInt r; .ok (.pwGet i, r)
  | 0x05 => .ok (.pwFull, r)
  | 0x06 => .ok (.pwAdv, r)
  | 0x07 => do let (n, r) ← takeInt r; .ok (.pwAdvn n, r)
  | 0x08 => .ok (.pwPos, r)
  | 0x09 => .ok (.dmNext, r)
  | 0x0A => do let (b, r) ← takeList r; .ok (.crcBit b, r)
  | 0x0B => do let (b, r) ← takeList r; .ok (.crcByte b, r)
  | 0x0C => do let (b, r) ← takeList r; .ok (.crcChk b, r)
  | 0x0D => do
    let (v, r) ← takeBits 8 64 r
    let (start, r) ← takeInt r
    let (size, r) ← takeInt r
    .ok (.bitsX v start size, r)
  | 0x0E => do
    let (ts, r) ← takeBits 8 64 r
    let (b, r) ← takeList r
    .ok (.rmParse ts b, r)
  | 0x0F => do let (f, r) ← takeFrame r; .ok (.rmDf f, r)
  | 0x10 => do let (f, r) ← takeFrame r; .ok (.rmIcao f, r)
  | 0x11 => do let (f, r) ← takeFrame r; .ok (.rmMe f, r)
  | 0x12 => takeTc r
  | 0x13 => do let (tc, r) ← takeBits 1 5 r; .ok (.rmClass tc, r)
  | 0x14 => takeGray r
  | 0x15 => do let (alt, r) ← takeBits 2 12 r; .ok (.altDec alt, r)
  | 0x16 => do
    let (ts, r) ← takeBits 8 64 r
    let (f, r) ← takeFrame r
    .ok (.posDec ⟨ts, f⟩, r)
  | 0x17 => takeNl r
  | 0x18 => takeCpr r
  | 0x20 => do let (u, r) ← takeBits 2 12 r; .ok (.fmtSampleWord u, r)
  | 0x40 => do let (f, r) ← takeFrame r; .ok (frameRow f, r)
  | 0x60 => do let (me, r) ← takePayload r; .ok (payloadRow me, r)
  | 0x80 => do let (alt, r) ← takeBits 2 12 r; .ok (altRow alt, r)
  | code => .error (if code < 0x20 then .unassignedCode else .reservedBits)

/-- Decode the request at the front of `bs`: the operation or data word and the bytes after it. -/
def decode : List Byte → Except DecodeError (Instr × List Byte)
  | [] => .error .truncated
  | b :: r => decodeAs b.toNat r

/-- A request of operation code `code` and operand bytes `bs`. -/
def request (code : Nat) (bs : List Byte) : List Byte :=
  BitVec.ofNat 8 code :: bs

/-- The bytes of a byte-list operand. -/
def listBytes (b : List Byte) : List Byte :=
  leBytes 4 b.length ++ b

/-- The bytes of a well-formed operation or data word, from R45 and the operand sizes of log 2 and log 3. -/
def encode : Instr → List Byte
  | .reset => request 0x00 []
  | .sdRead n => request 0x01 (leBytes 4 n)
  | .pcRead n => request 0x02 (leBytes 4 n)
  | .pwInit => request 0x03 []
  | .pwGet i => request 0x04 (intBytes i)
  | .pwFull => request 0x05 []
  | .pwAdv => request 0x06 []
  | .pwAdvn n => request 0x07 (intBytes n)
  | .pwPos => request 0x08 []
  | .dmNext => request 0x09 []
  | .crcBit b => request 0x0A (listBytes b)
  | .crcByte b => request 0x0B (listBytes b)
  | .crcChk b => request 0x0C (listBytes b)
  | .bitsX v start size => request 0x0D (leBytes 8 v.toNat ++ intBytes start ++ intBytes size)
  | .rmParse ts b => request 0x0E (leBytes 8 ts.toNat ++ listBytes b)
  | .rmDf f => request 0x0F f.toList
  | .rmIcao f => request 0x10 f.toList
  | .rmMe f => request 0x11 f.toList
  | .rmTc (.frame f) => request 0x12 (0 :: f.toList)
  | .rmTc (.payload me) => request 0x12 (1 :: beBytes 7 me.toNat)
  | .rmClass tc => request 0x13 (leBytes 1 tc.toNat)
  | .grayDec g w => request 0x14 (leBytes 1 w ++ leBytes 4 g)
  | .altDec alt => request 0x15 (leBytes 2 alt.toNat)
  | .posDec msg => request 0x16 (leBytes 8 msg.ts.toNat ++ msg.bytes.toList)
  | .cprNl lat => request 0x17 (intBytes lat.num ++ leBytes 8 (lat.den - 1))
  | .cprDec x0 y0 x1 y1 recent =>
    request 0x18 (leBytes 3 x0.toNat ++ leBytes 3 y0.toNat ++ leBytes 3 x1.toNat ++ leBytes 3 y1.toNat ++
      leBytes 1 recent.toNat)
  | .fmtSampleWord u => request tagSample (leBytes 2 u.toNat)
  | .fmtFrame f => request tagFrame f.toList
  | .fmtFrameDf17 f => request tagFrame f.toList
  | .fmtMe me => request tagPayload (beBytes 7 me.toNat)
  | .fmtMePosition me => request tagPayload (beBytes 7 me.toNat)
  | .fmtAltQ1 alt => request tagAlt (leBytes 2 alt.toNat)
  | .fmtAltQ0 alt => request tagAlt (leBytes 2 alt.toNat)

/-- The operand bytes of the longest fixed request: 8 + 8 + 8 (`BITS.X`). -/
def longestOperands : Nat := 24

/-- The bytes of a row of spec/opcode_table.json whose `nbits` bits are `w`: an operation (format OP5) with operand
bytes of zero, or a data word under the tag of its format. -/
def tableBytes (nbits w : Nat) : List Byte :=
  if nbits ≤ 8 then request w (List.replicate longestOperands 0)
  else if nbits = 12 then request tagAlt (leBytes 2 w)
  else if nbits = 16 then request tagSample (leBytes 2 w)
  else if nbits = 56 then request tagPayload (beBytes 7 w)
  else if nbits = 112 then request tagFrame (beBytes 14 w)
  else []

/-- The bytes of the request at the front of `bs` alone. -/
def firstRequest (bs : List Byte) : List Byte :=
  match decode bs with
  | .ok (_, r) => bs.take (bs.length - r.length)
  | .error _ => bs

/-- The operation or data word that the decoder reads from a table word (a fixed name of the host's). -/
def decodeTableWord (nbits w : Nat) : Option Instr :=
  match decode (tableBytes nbits w) with
  | .ok (i, _) => some i
  | .error _ => none

end Sys2Proof
end

