-- ==== Sys2Proof/Machine/Fetch.lean ====
section
/-! DEFINITION. Taking the next request of the host off the request queue (log 1). -/

namespace Sys2Proof.Machine

/-- The request at the front of the queue, and the queue after it. -/
def nextRequest (s : State) : Except DecodeError (Instr × List Byte) :=
  decode s.requests

/-- The refusal of bytes that are no request (R45, R54, log 2). -/
def refusalOf : DecodeError → Refusal
  | .unassignedCode => .unassignedCode
  | .truncated | .reservedBits => .malformedRequest

/-- The queue with the request of a table word in front. -/
def placeWord (s : State) (nbits w : Nat) : List Byte :=
  firstRequest (tableBytes nbits w) ++ s.requests

end Sys2Proof.Machine
end

