-- ==== Sys2Proof/Machine/Step.lean ====
section
/-! DEFINITION. One step: one operation (spec/00_scope.md R7), the next one the host invokes (log 1). -/

namespace Sys2Proof.Machine

/-- One step. With no request the block "is idle between operations" (R149): nothing changes. -/
def step (s : State) : Host.Outcome State Fault Refusal :=
  if s.requests = [] then .next s
  else
    match nextRequest s with
    | .ok (i, rest) => exec i { s with requests := rest }
    | .error e => .refused (refusalOf e)

/-- The state in which the next step runs the table word `w` (a fixed name of the host's; log 1). -/
def State.withFetchWord (s : State) (nbits w : Nat) : State :=
  { s with requests := placeWord s nbits w }

end Sys2Proof.Machine
end

