-- ==== Sys2Proof/Safety.lean ====
section
/-! DEFINITION. What counts as a safe state and a safe run, in the terms the statements use: the invariants of
spec/10_state.md R27 and R29, the demodulator chain of R17, and the premises on the host's byte source of
spec/20_memory.md R31 and R33. -/

namespace Sys2Proof.Machine

/-- A step is safe when the block is not stuck in it. -/
def Safe (o : Host.Outcome State Fault Refusal) : Prop :=
  ∀ r, o ≠ .fault r

/-- The configuration of the demodulator chain (R17, R73, R85). -/
def ChainConfig (s : State) : Prop :=
  s.wsize = 1200 ∧ s.pcBatch = 65536 ∧ s.sdBatch = 131072

/-- The byte source delivers the bytes `b` and then ends: premise 2 of R31, no read error. -/
def SourceIs (s : State) (b : List Byte) : Prop :=
  s.source = b.map .byte

/-- The byte source delivers well-formed sample words and then ends (R31, R33). -/
def SourceClean (s : State) : Prop :=
  ∃ b, SourceIs s b ∧ (samplesOf b).isSome

/-- Room for `n` more samples, and for all that the byte source holds, before `POS × 100` passes 2^63 − 1 (R163). -/
def RoomFor (s : State) (n : Nat) : Prop :=
  (s.pos.toNat + s.nloaded.toNat + s.source.length + n) * 100 ≤ 2 ^ 63 - 1

/-- The invariants of R27 (items 1, 2 and 4), of R163, and the canonical form of the memory (log 5). -/
structure Inv (s : State) : Prop where
  kEven : s.k.toNat % 2 = 0
  pibIsPos : s.pib.toNat = s.pos.toNat % 65536
  curIsPos : s.cur.val = s.pos.toNat / 65536 % 2
  posFits : posInRange s.pos.toNat = true
  memWf : s.mem.wf = true
  wsizeLegal : s.inited = true → 1 ≤ s.wsize ∧ s.wsize < 65536
  loaded : s.inited = true →
    s.nloaded.toNat + s.pib.toNat ≤ s.pos.toNat + if (s.pib.toNat : Int) + s.wsize - 1 < 65536 then 65536 else 131072

/-- The bounds of R29: a power sample is at most 134 152 200, a peak sum at most 536 608 800. -/
structure PowerBound (s : State) : Prop where
  bank : ∀ b k, (memRead s.mem b k).toNat ≤ 134152200
  prev : s.prev.toNat ≤ 536608800

/-- The sample `x[j]` of a stream, 0 before its start (R69). -/
def sampleAt (xs : List Int) (j : Int) : Int :=
  if j < 0 then 0 else xs.getD j.toNat 0

/-- The power sample `P[n]` of a stream of samples, from reset (R69). -/
def powerOf (xs : List Int) (n : Nat) : Int :=
  (sampleAt xs (2 * n - 5) - sampleAt xs (2 * n - 3) + sampleAt xs (2 * n - 1) - sampleAt xs (2 * n + 1)) ^ 2 +
    (sampleAt xs (2 * n - 6) - sampleAt xs (2 * n - 4) + sampleAt xs (2 * n - 2) - sampleAt xs (2 * n)) ^ 2

/-- The operations that touch no state (R25): units CRC, BITS, RM, GRAY, ALT, POS and CPR. -/
def isStateless : Instr → Bool
  | .crcBit _ | .crcByte _ | .crcChk _ | .bitsX .. | .rmParse .. => true
  | .rmDf _ | .rmIcao _ | .rmMe _ | .rmTc _ | .rmClass _ => true
  | .grayDec .. | .altDec _ | .posDec _ | .cprNl _ | .cprDec .. => true
  | .reset | .sdRead _ | .pcRead _ | .pwInit | .pwGet _ | .pwFull | .pwAdv | .pwAdvn _ | .pwPos | .dmNext => false
  | .fmtSampleWord _ | .fmtFrame _ | .fmtFrameDf17 _ | .fmtMe _ | .fmtMePosition _ | .fmtAltQ1 _ | .fmtAltQ0 _ => false

/-- The data-format rows of R56. -/
def isFormat (i : Instr) : Bool :=
  (opCode i).isNone

/-- The operations of PW and DM that are refused before `PW.INIT` (R143). -/
def needsInit : Instr → Bool
  | .pwGet _ | .pwFull | .pwPos | .pwAdv | .pwAdvn _ | .dmNext => true
  | .reset | .sdRead _ | .pcRead _ | .pwInit => false
  | .crcBit _ | .crcByte _ | .crcChk _ | .bitsX .. | .rmParse .. => false
  | .rmDf _ | .rmIcao _ | .rmMe _ | .rmTc _ | .rmClass _ => false
  | .grayDec .. | .altDec _ | .posDec _ | .cprNl _ | .cprDec .. => false
  | .fmtSampleWord _ | .fmtFrame _ | .fmtFrameDf17 _ | .fmtMe _ | .fmtMePosition _ | .fmtAltQ1 _ | .fmtAltQ0 _ => false

/-- The operations that may write the window's registers and banks (R16, column "written by"). -/
def writesWindow : Instr → Bool
  | .reset | .pwInit | .pwAdv | .pwAdvn _ | .dmNext => true
  | .sdRead _ | .pcRead _ | .pwGet _ | .pwFull | .pwPos => false
  | .crcBit _ | .crcByte _ | .crcChk _ | .bitsX .. | .rmParse .. => false
  | .rmDf _ | .rmIcao _ | .rmMe _ | .rmTc _ | .rmClass _ => false
  | .grayDec .. | .altDec _ | .posDec _ | .cprNl _ | .cprDec .. => false
  | .fmtSampleWord _ | .fmtFrame _ | .fmtFrameDf17 _ | .fmtMe _ | .fmtMePosition _ | .fmtAltQ1 _ | .fmtAltQ0 _ => false

end Sys2Proof.Machine
end

