-- ==== Sys2Proof/Certificates/Slice0/Obligations.lean ====
section
/-! DEFINITION. The statements for the provers. Each docstring names the rule of spec/ that the statement formalises. -/

open Sys2Proof Sys2Proof.Machine

/-! ### Reset -/

/-- R151: the reset value of every piece of the spec's state, of the demodulator chain. Derived: the spec marks every
reset value as its own decision (D27), and the instantiation parameters are the chain's (log 17, log 18). -/
def Obligations.ResetStateHoldsTheSpecsValues : Prop :=
  (∀ i, i < 8 → histGet State.reset.h i = 0) ∧ State.reset.k = 0 ∧
    (∀ b k, memRead State.reset.mem b k = 0) ∧ State.reset.cur = 0 ∧ State.reset.pib = 0 ∧ State.reset.pos = 0 ∧
    State.reset.nloaded = 0 ∧ State.reset.prev = 0 ∧ State.reset.fault = none ∧ State.reset.inited = false ∧
    State.reset.wsize = 1200 ∧ State.reset.pcBatch = 65536 ∧ State.reset.sdBatch = 131072

/-- R150: `RESET` completes in every state, also while `FAULT` is set; it writes every register, latches code 1
exactly where a batch size is illegal, and leaves the host's stream alone (R151). Derived: the spec marks R150 as its
own decision (D27); what it leaves of the model's own fields is log 18. -/
def Obligations.ResetOperationCompletes : Prop :=
  ∀ s, ∃ t, exec .reset s = .next t ∧
    (∀ i, i < 8 → histGet t.h i = 0) ∧ t.k = 0 ∧ (∀ b k, memRead t.mem b k = 0) ∧ t.cur = 0 ∧ t.pib = 0 ∧
    t.pos = 0 ∧ t.nloaded = 0 ∧ t.prev = 0 ∧ t.inited = false ∧
    t.wsize = s.params.wsize ∧ t.pcBatch = s.params.pcBatch ∧ t.sdBatch = s.params.sdBatch ∧
    (s.params.pcBatch ≤ 0 ∨ s.params.pcBatch % 8 ≠ 0 ∨ s.params.sdBatch ≤ 0 → t.fault = some .batchSize) ∧
    (¬(s.params.pcBatch ≤ 0 ∨ s.params.pcBatch % 8 ≠ 0 ∨ s.params.sdBatch ≤ 0) → t.fault = none) ∧
    t.params = s.params ∧ t.source = s.source ∧ t.requests = s.requests ∧ t.freeCtr = s.freeCtr ∧ t.out = some .done

/-! ### The byte stream and unit SD -/

/-- R31: `StreamRead(n)` on a stream that goes on with the bytes `b` gives its next bytes in order, all `n` of them
unless the stream ends first, and consumes exactly those. Derived: the spec marks R31 as its own decision (D36), and
the source as a list of events is log 6. -/
def Obligations.StreamReadGivesTheNextBytes : Prop :=
  ∀ (n : Nat) (b : List Byte) (tail : List SourceEvent),
    (n ≤ b.length → readSource n (b.map .byte ++ tail) = .bytes (b.take n) ((b.drop n).map .byte ++ tail)) ∧
    (readSource n (b.map .byte) = .bytes (b.take n) ((b.drop n).map .byte))

/-- R62, with R60 and R61: `SD.READ` completes; the samples are `byte[2j+1] × 256 + byte[2j] − 2048`, their count is
half the byte count, and nothing changes but the host's cursor and the result. Derived: the spec marks R62 as its own
decision (D5). -/
def Obligations.SampleReadGivesCentredSamples : Prop :=
  ∀ (s : State) (n : Nat) (b : List Byte) (rest : List SourceEvent),
    s.fault = none → (n : Int) = s.sdBatch → readSource (2 * n) s.source = .bytes b rest →
    (∀ j, 2 * j + 1 < b.length → (b.getD (2 * j + 1) 0).toNat < 16) →
    ∃ xs : List Int,
      exec (.sdRead n) s = .next { s with source := rest, out := some (.samples (b.length / 2) xs) } ∧
      xs.length = b.length / 2 ∧
      ∀ j, j < b.length / 2 →
        xs.getD j 0 = ((b.getD (2 * j + 1) 0).toNat : Int) * 256 + ((b.getD (2 * j) 0).toNat : Int) - 2048

/-- R33: a sample word above 4095 among those that a read decodes is refused, whichever of `SD.READ`, `PC.READ`, `PW.INIT` and the
refilling `PW.ADV` makes the read. R145: a `StreamRead` that never returns makes the operation that issued it never return. Derived:
the spec marks R33 as its own decision (D4); the outcome refused is log 9 and log 10, the stuck state log 8. -/
def Obligations.UnusableStreamGivesNoResult : Prop :=
  (∀ (s : State) (n j : Nat) (b : List Byte) (rest : List SourceEvent),
    s.fault = none → 2 * j + 1 < b.length → 16 ≤ (b.getD (2 * j + 1) 0).toNat →
    ((n : Int) = s.sdBatch → readSource (2 * n) s.source = .bytes b rest →
      exec (.sdRead n) s = .refused .illFormedStream) ∧
    ((n : Int) = s.pcBatch → 2 * (n : Int) = s.sdBatch → readSource (4 * n) s.source = .bytes b rest →
      exec (.pcRead n) s = .refused .illFormedStream) ∧
    (s.pcBatch = 65536 → s.sdBatch = 131072 → readSource 262144 s.source = .bytes b rest →
      (s.inited = false → 1 ≤ s.wsize → s.wsize < 65536 → exec .pwInit s = .refused .illFormedStream) ∧
      (s.inited = true → (s.pib.toNat : Int) + s.wsize = 65536 → exec .pwAdv s = .refused .illFormedStream))) ∧
  ∀ s : State, s.fault = none → ChainConfig s → readSource 262144 s.source = .blocks →
    exec (.sdRead 131072) s = .fault .neverReturns ∧ exec (.pcRead 65536) s = .fault .neverReturns ∧
    (s.inited = false → exec .pwInit s = .fault .neverReturns) ∧
    (s.inited = true → s.pib.toNat + 1200 = 65536 → exec .pwAdv s = .fault .neverReturns)

/-- R59, R66, R75, R154: a wrong buffer length of `SD.READ` or `PC.READ` latches code 2; at `PW.INIT` an illegal
`WSIZE` latches code 3 and, where it is legal, a `PC_BATCH` other than 65536 code 2. Nothing else changes and nothing
is read. Derived: the spec marks R75 and the codes of R141 as its own decisions (D10, D25). -/
def Obligations.BatchContractsAreEnforced : Prop :=
  ∀ s : State, s.fault = none →
    (∀ n : Nat, (n : Int) ≠ s.sdBatch →
      exec (.sdRead n) s = .next { s with fault := some .bufferSize, out := some (.fault .bufferSize) }) ∧
    (∀ n : Nat, (n : Int) ≠ s.pcBatch →
      exec (.pcRead n) s = .next { s with fault := some .bufferSize, out := some (.fault .bufferSize) }) ∧
    (s.inited = false → ¬(1 ≤ s.wsize ∧ s.wsize < 65536) →
      exec .pwInit s = .next { s with fault := some .wsize, out := some (.fault .wsize) }) ∧
    (s.inited = false → 1 ≤ s.wsize → s.wsize < 65536 → s.pcBatch ≠ 65536 →
      exec .pwInit s = .next { s with fault := some .bufferSize, out := some (.fault .bufferSize) })

/-- R144, R145: a read error latches code 7; every register but `FAULT` is as before the failing read. Of the host's
stream nothing is said (U15). Derived: the spec marks R144 as its own decision (D26); where the stream stands
afterwards is free (log 7). -/
def Obligations.ReadErrorLatchesCode7 : Prop :=
  ∀ s : State, s.fault = none → ChainConfig s → readSource 262144 s.source = .error →
    ∃ src ctr,
      (exec (.sdRead 131072) s =
        .next { s with source := src, freeCtr := ctr, fault := some .ioError, out := some (.fault .ioError) }) ∧
      (exec (.pcRead 65536) s =
        .next { s with source := src, freeCtr := ctr, fault := some .ioError, out := some (.fault .ioError) }) ∧
      (s.inited = false → exec .pwInit s =
        .next { s with source := src, freeCtr := ctr, fault := some .ioError, out := some (.fault .ioError) }) ∧
      (s.inited = true → s.pib.toNat + 1200 = 65536 → exec .pwAdv s =
        .next { s with source := src, freeCtr := ctr, fault := some .ioError, out := some (.fault .ioError) })

/-! ### Unit PC -/

/-- R67: one pair. The two samples are written to `H[K]` and `H[K+1]`, `K` moves on by 2 modulo 8, and the power
sample is `I² + Q²` over the updated history with indices from the new `K`. Derived: the spec marks R67 as its own
decision (D7). -/
def Obligations.PairStepWritesThenSums : Prop :=
  ∀ (h : History) (k : BitVec 3) (a b : Int),
    k.toNat % 2 = 0 → -2048 ≤ a → a ≤ 2047 → -2048 ≤ b → b ≤ 2047 →
    ∃ h' p, pairSteps h k [a, b] = (h', k + 2, [p]) ∧
      histGet h' k.toNat = a ∧ histGet h' (k.toNat + 1) = b ∧
      (∀ i, i < 8 → i ≠ k.toNat → i ≠ k.toNat + 1 → histGet h' i = histGet h i) ∧
      ∃ i, i = (k.toNat + 2) % 8 ∧
        (p.toNat : Int) =
          (histGet h' ((i + 1) % 8) - histGet h' ((i + 3) % 8) + histGet h' ((i + 5) % 8) - histGet h' ((i + 7) % 8)) ^ 2 +
          (histGet h' i - histGet h' ((i + 2) % 8) + histGet h' ((i + 4) % 8) - histGet h' ((i + 6) % 8)) ^ 2

/-- R69: from the reset history, the `n`-th power sample of a stream is the formula over `x[2n−6] … x[2n+1]`, with 0
before the start; there are `floor(Ns / 2)` of them; and batch boundaries do not show: two batches one after the other
give what one read of both gives. Derived: R69 is an inference of the spec from R67 and R68. -/
def Obligations.PowerStreamFollowsTheFormula : Prop :=
  (∀ xs : List Int, (∀ x ∈ xs, -2048 ≤ x ∧ x ≤ 2047) →
    (pairSteps (Vector.replicate 8 0) 0 xs).2.2.length = xs.length / 2 ∧
    ∀ n, n < xs.length / 2 →
      (((pairSteps (Vector.replicate 8 0) 0 xs).2.2.getD n 0).toNat : Int) = powerOf xs n) ∧
  ∀ (h : History) (k : BitVec 3) (xs ys : List Int), xs.length % 2 = 0 →
    pairSteps h k (xs ++ ys) =
      ((pairSteps (pairSteps h k xs).1 (pairSteps h k xs).2.1 ys).1,
        (pairSteps (pairSteps h k xs).1 (pairSteps h k xs).2.1 ys).2.1,
        (pairSteps h k xs).2.2 ++ (pairSteps (pairSteps h k xs).1 (pairSteps h k xs).2.1 ys).2.2)

/-- R68: `PC.READ` completes on well-formed bytes: the pairs of their samples go through `PairStep` one after the
other; only `H`, `K`, the host's cursor and the result change. Derived: the spec marks R68 as its own decision (D5,
D8). -/
def Obligations.PowerReadCompletes : Prop :=
  ∀ (s : State) (n : Nat) (b : List Byte) (rest : List SourceEvent) (xs : List Int),
    s.fault = none → (n : Int) = s.pcBatch → 2 * (n : Int) = s.sdBatch →
    readSource (4 * n) s.source = .bytes b rest → samplesOf b = some xs →
    ∃ h' k' ps, pairSteps s.h s.k xs = (h', k', ps) ∧ ps.length = xs.length / 2 ∧
      exec (.pcRead n) s =
        .next { s with source := rest, h := h', k := k', out := some (.powers (xs.length / 2) ps) }

/-! ### The power banks and unit PW -/

/-- R35 (the spec's decision D8): `MemWrite` sets one entry and no other; a batch written to a bank sets entry `k` to its `k`-th
sample, and the entries from the count on and the other bank keep their contents; the batch is its single writes one after the
other, as data too (log 5). -/
def Obligations.WritesLandInTheirBank : Prop :=
  (∀ (m : Memory) (b : Fin 2) (k : Nat) (v : Power) (b' : Fin 2) (k' : Nat), m.wf = true → k < 65536 →
    memRead (memWrite m b k v) b' k' = if b' = b ∧ k' = k then v else memRead m b' k') ∧
  (∀ (m : Memory) (b : Fin 2) (ps : List Power) (b' : Fin 2) (k : Nat),
    memRead (memFill m b ps) b' k =
      if b' = b ∧ k < ps.length then ps.getD k 0 else memRead m b' k) ∧
  ∀ (m : Memory) (b : Fin 2) (ps : List Power), m.wf = true → ps.length ≤ 65536 →
    memFill m b ps = ps.zipIdx.foldl (fun m' e => memWrite m' b e.2 e.1) m

/-- R75: `PW.INIT` completes: it reads one batch into `BANK[0]`, sets `NLOADED` to its count, `CUR`, `PIB`, `POS` to 0
and `INITED` to 1. Derived: the spec marks R75 as its own decision (D10). -/
def Obligations.WindowInitCompletes : Prop :=
  ∀ (s : State) (b : List Byte) (rest : List SourceEvent) (xs : List Int),
    s.fault = none → s.inited = false → 1 ≤ s.wsize → s.wsize < 65536 → s.pcBatch = 65536 → s.sdBatch = 131072 →
    readSource 262144 s.source = .bytes b rest → samplesOf b = some xs →
    ∃ h' k' ps, pairSteps s.h s.k xs = (h', k', ps) ∧ ps.length ≤ 65536 ∧
      exec .pwInit s = .next
        { s with
          source := rest, h := h', k := k', mem := memFill s.mem 0 ps, nloaded := BitVec.ofNat 64 ps.length, cur := 0,
          pib := 0, pos := 0, inited := true, out := some .done }

/-- R76, R77: `PW.GET(i)` completes for `0 ≤ i < WSIZE` with the entry that Locate names, and latches code 4 for every
other `i`. Derived: the spec marks R76 and R77 as its own decisions (D9, D11, D25); beyond `NLOADED` see log 24. -/
def Obligations.WindowGetReadsTheLocatedEntry : Prop :=
  ∀ (s : State) (i : Int), s.fault = none → s.inited = true →
    (0 ≤ i → i < s.wsize → s.pib.toNat + i.toNat < 65536 →
      exec (.pwGet i) s =
        .next { s with out := some (.power (memRead s.mem s.cur (s.pib.toNat + i.toNat))) }) ∧
    (0 ≤ i → i < s.wsize → 65536 ≤ s.pib.toNat + i.toNat →
      exec (.pwGet i) s =
        .next { s with out := some (.power (memRead s.mem (1 - s.cur) (s.pib.toNat + i.toNat - 65536))) }) ∧
    (i < 0 ∨ s.wsize ≤ i →
      exec (.pwGet i) s = .next { s with fault := some .index, out := some (.fault .index) })

/-- R78, with R79: `PW.FULL` completes with `POS + WSIZE ≤ NLOADED` and `PW.POS` with `POS`; nothing else changes. Both are refused
while `FAULT ≠ NONE` or `INITED = 0`. -/
def Obligations.WindowStatusCompletes : Prop :=
  ∀ s : State,
    (s.fault = none → s.inited = true →
      ((s.pos.toNat : Int) + s.wsize ≤ s.nloaded.toNat → exec .pwFull s = .next { s with out := some (.bool true) }) ∧
      ((s.nloaded.toNat : Int) < s.pos.toNat + s.wsize → exec .pwFull s = .next { s with out := some (.bool false) }) ∧
      exec .pwPos s = .next { s with out := some (.pos s.pos) }) ∧
    (s.fault ≠ none ∨ s.inited = false → ∃ r, exec .pwFull s = .refused r ∧ exec .pwPos s = .refused r)

/-- R80: `PW.ADV` away from the refill point completes: `POS` grows by 1; `PIB` grows by 1, or goes to 0 with the
banks swapped where it was 65535. Derived: the spec marks R80 as its own decision (D9, D12); the bound on `POS` is log
11. -/
def Obligations.AdvanceWithoutRefillCompletes : Prop :=
  ∀ s : State, s.fault = none → s.inited = true → (s.pib.toNat : Int) + s.wsize ≠ 65536 →
    (s.pos.toNat + 1) * 100 ≤ 2 ^ 63 - 1 →
    (s.pib.toNat < 65535 →
      exec .pwAdv s = .next { s with pos := s.pos + 1, pib := s.pib + 1, out := some .done }) ∧
    (s.pib.toNat = 65535 →
      exec .pwAdv s = .next { s with pos := s.pos + 1, pib := 0, cur := 1 - s.cur, out := some .done })

/-- R80: `PW.ADV` at the refill point, `PIB + 1 + WSIZE − 1 = 65536`, completes: one batch goes to the spare bank
before the registers move, and `NLOADED` grows by its count. Derived: the spec marks R80 as its own decision (D9,
D12); the bounds are log 11. -/
def Obligations.AdvanceWithRefillCompletes : Prop :=
  ∀ (s : State) (b : List Byte) (rest : List SourceEvent) (xs : List Int),
    s.fault = none → s.inited = true → (s.pib.toNat : Int) + s.wsize = 65536 → s.pcBatch = 65536 →
    s.sdBatch = 131072 → readSource 262144 s.source = .bytes b rest → samplesOf b = some xs →
    s.nloaded.toNat + xs.length / 2 < 2 ^ 64 → (s.pos.toNat + 1) * 100 ≤ 2 ^ 63 - 1 →
    ∃ h' k' ps, pairSteps s.h s.k xs = (h', k', ps) ∧
      exec .pwAdv s = .next
        { s with
          source := rest, h := h', k := k', mem := memFill s.mem (1 - s.cur) ps,
          nloaded := s.nloaded + BitVec.ofNat 64 ps.length, pos := s.pos + 1,
          pib := if s.pib.toNat = 65535 then 0 else s.pib + 1,
          cur := if s.pib.toNat = 65535 then 1 - s.cur else s.cur, out := some .done }

/-- R81: `PW.ADVN(n)` is `PW.ADV` applied `n` times: one for `n = 1`; for a greater `n` the first, then the rest,
unless the first ends in a fault, a refusal or never; code 5 for `n ≤ 0`. Derived: the spec marks R81 as its own
decision (D25). -/
def Obligations.AdvanceByIsRepeatedAdvance : Prop :=
  ∀ s : State, s.fault = none → s.inited = true →
    (∀ n : Int, n ≤ 0 → exec (.pwAdvn n) s = .next { s with fault := some .count, out := some (.fault .count) }) ∧
    exec (.pwAdvn 1) s = exec .pwAdv s ∧
    ∀ n : Int, 1 ≤ n →
      (∀ t, exec .pwAdv s = .next t → t.fault = none → exec (.pwAdvn (n + 1)) s = exec (.pwAdvn n) t) ∧
      (∀ t, exec .pwAdv s = .next t → t.fault ≠ none → exec (.pwAdvn (n + 1)) s = .next t) ∧
      (∀ r, exec .pwAdv s = .refused r → exec (.pwAdvn (n + 1)) s = .refused r) ∧
      (∀ r, exec .pwAdv s = .fault r → exec (.pwAdvn (n + 1)) s = .fault r)

/-- R81, R80: in the chain, on a finite well-formed stream, `PW.ADVN(n)` completes for every `n > 0`: `POS` grows by
`n`, and configuration, `PREV`, `INITED` and the requests keep their values. Derived: the spec marks R80 and R81 as
its own decisions (D9, D12, D25). -/
def Obligations.AdvanceByCompletes : Prop :=
  ∀ (s : State) (n : Nat), s.fault = none → s.inited = true → ChainConfig s → SourceClean s → RoomFor s n → 0 < n →
    ∃ t, exec (.pwAdvn n) s = .next t ∧ t.out = some .done ∧ t.fault = none ∧ t.pos.toNat = s.pos.toNat + n ∧
      t.inited = true ∧ t.prev = s.prev ∧ ChainConfig t ∧ t.params = s.params ∧ t.requests = s.requests ∧
      t.freeCtr = s.freeCtr

/-- R144: after an `IOError` in `PW.ADVN(n)` the steps before the failing one have taken effect and the rest have not: the machine
stands as `k` completed steps left it, `k < n`, and it is the next single `PW.ADV` from there that latches code 7 and leaves every
register but `FAULT`. Derived: the spec marks R144 as its own decision (D26). -/
def Obligations.ReadErrorKeepsTheStepsBefore : Prop :=
  ∀ (s t : State) (n : Int), exec (.pwAdvn n) s = .next t → t.fault = some .ioError →
    ∃ (k : Nat) (u : State), (k : Int) < n ∧
      (k = 0 ∧ u = s ∨ 0 < k ∧ exec (.pwAdvn k) s = .next u ∧ u.fault = none) ∧ exec .pwAdv u = .next t ∧
      ∃ src ctr, t = { u with source := src, freeCtr := ctr, fault := some .ioError, out := some (.fault .ioError) }

/-- R28, the abstract view: from reset, on any finite well-formed stream of samples `xs`, after `PW.INIT` and `n`
advances, the window is full exactly where `POS + 1200 ≤ N`, and while it is full `PW.GET(i)` reads `P[POS + i]`.
Derived: R28 is an inference of the spec. -/
def Obligations.WindowShowsThePowerStream : Prop :=
  ∀ (b : List Byte) (xs : List Int) (n : Nat), samplesOf b = some xs → (n + 5 * b.length + 2400) * 100 ≤ 2 ^ 63 - 1 →
    ∃ t, andThen (pwInit { State.reset with source := b.map .byte }) (fun _ u => advTimes n u) = .ok () t ∧
      t.pos.toNat = n ∧ (windowFull t = true ↔ n + 1200 ≤ xs.length / 2) ∧
      ∀ i, i < 1200 → windowFull t = true → ((windowAt t i).toNat : Int) = powerOf xs (n + i)

/-! ### Unit DM -/

/-- R89 with the sums of R87: a position is accepted exactly when `peak(0) ≥ 2 × valley(0)`, `peak(0) > peak(10)` and
`peak(0) > PREV`. -/
def Obligations.AcceptanceIsThreeComparisons : Prop :=
  ∀ s : State,
    accepts iqd s = true ↔
      2 * (g s 5 + g s 15 + g s 20 + g s 25 + g s 30 + g s 40) ≤ g s 0 + g s 10 + g s 35 + g s 45 ∧
      g s 10 + g s 20 + g s 45 + g s 55 < g s 0 + g s 10 + g s 35 + g s 45 ∧
      s.prev.toNat < g s 0 + g s 10 + g s 35 + g s 45

/-- R90 (the offset 80 and the step 10 are the spec's decision D13), R91: frame bit `k` is 1 exactly where
`g(80 + 10k) < g(85 + 10k)`; it stands in place `7 − (k mod 8)` of byte `k div 8`. -/
def Obligations.FrameBitsAreComparisons : Prop :=
  ∀ (s : State) (j : Fin 14) (r : Nat), r < 8 →
    ((frameBytes iqd s)[j].getLsbD (7 - r) = true ↔
      g s (80 + 10 * (8 * j.val + r)) < g s (85 + 10 * (8 * j.val + r)))

/-- R92, with R86, R88 and R89: `DM.NEXT` satisfies its loop. In the chain, at a position with a full window, `PREV` becomes the peak
sum `p`; where the position is accepted, the DF of the frame that its bits give is 17 and its CRC is 0, `DM.NEXT` gives that frame with
the time stamp `POS × 100` after `PW.ADVN(1200)`, and where one of the tests fails it is `PW.ADV` and then `DM.NEXT` again; a fault, a
refusal or no return of the advance is that of `DM.NEXT`. Derived: R88 and R90 are the spec's own decisions (D13, D14); a time stamp
out of range is log 11. -/
def Obligations.DemodulatorSatisfiesItsLoop : Prop :=
  (∀ s : State,
    dmNext iqd s =
      if windowFull s then
        andThen (scan iqd s) fun found s1 =>
          match found with
          | some f => takeFrameAt f s1
          | none => andThen (pwAdv s1) fun _ s2 => dmNext iqd s2
      else .ok none s) ∧
  ∀ (s u : State) (p : Nat) (f : Frame) (valid : Bool),
    ChainConfig s → p = g s 0 + g s 10 + g s 35 + g s 45 → u = { s with prev := BitVec.ofNat 30 p } →
    f = frameBytes iqd s → (valid = true ↔ accepts iqd s = true ∧ f[0].toNat / 8 = 17 ∧ crcBytewise f.toList = 0) →
    scan iqd s = .ok (if valid then some f else none) u ∧
    (PowerBound s → u.prev.toNat = p) ∧
    (s.fault = none → s.inited = true → (s.pos.toNat : Int) + s.wsize ≤ s.nloaded.toNat →
      (valid = true → s.pos.toNat * 100 ≤ 2 ^ 63 - 1 →
        (∀ t, exec (.pwAdvn 1200) u = .next t → t.fault = none →
          exec .dmNext s = .next { t with out := some (.frame (BitVec.ofNat 64 (s.pos.toNat * 100)) f) }) ∧
        (∀ t, exec (.pwAdvn 1200) u = .next t → t.fault ≠ none → exec .dmNext s = .next t) ∧
        (∀ r, exec (.pwAdvn 1200) u = .refused r → exec .dmNext s = .refused r) ∧
        ∀ r, exec (.pwAdvn 1200) u = .fault r → exec .dmNext s = .fault r) ∧
      (valid = true → 2 ^ 63 - 1 < s.pos.toNat * 100 → exec .dmNext s = .refused .counterRange) ∧
      (valid = false →
        (∀ t, exec .pwAdv u = .next t → t.fault = none → exec .dmNext s = exec .dmNext t) ∧
        (∀ t, exec .pwAdv u = .next t → t.fault ≠ none → exec .dmNext s = .next t) ∧
        (∀ r, exec .pwAdv u = .refused r → exec .dmNext s = .refused r) ∧
        ∀ r, exec .pwAdv u = .fault r → exec .dmNext s = .fault r))

/-- R92: in the chain, on a finite well-formed stream, `DM.NEXT` returns: a frame, or the no-frame sentinel with the
window no longer full. Derived: it rests on R80, which the spec marks as its own decision (D9, D12). -/
def Obligations.DemodulatorCompletes : Prop :=
  ∀ s : State, s.fault = none → s.inited = true → ChainConfig s → SourceClean s → RoomFor s 2400 →
    ∃ t, exec .dmNext s = .next t ∧ t.fault = none ∧
      ((t.out = some .noFrame ∧ windowFull t = false) ∨ ∃ ts f, t.out = some (.frame ts f)) ∧
      t.inited = true ∧ ChainConfig t ∧ t.params = s.params ∧ t.requests = s.requests ∧ t.freeCtr = s.freeCtr

/-- R93 (c): where the window is not full `DM.NEXT` returns the sentinel and leaves everything else unchanged.
Derived: R93 is an inference of the spec. -/
def Obligations.EndOfStreamReturnsTheSentinel : Prop :=
  ∀ s : State, s.fault = none → s.inited = true → (s.nloaded.toNat : Int) < s.pos.toNat + s.wsize →
    exec .dmNext s = .next { s with out := some .noFrame }

/-- R92, R86, R93 (b): a returned frame has DF = 17 and a zero CRC; its time stamp is 100 times the position where it
was found, and `POS` has grown by exactly 1200 from there. Derived: R93 is an inference of the spec, and it marks R86
as its own decision (D16). -/
def Obligations.ReturnedFrameIsValid : Prop :=
  ∀ (s t : State) (ts : BitVec 64) (f : Frame), exec .dmNext s = .next t → t.out = some (.frame ts f) →
    (f[0]).toNat / 8 = 17 ∧ crcBytewise f.toList = 0 ∧
    ∃ p, s.pos.toNat ≤ p ∧ ts.toNat = p * 100 ∧ t.pos.toNat = p + 1200

/-- R92: in the chain no contract violation can arise in `DM.NEXT`. Derived: the codes of R141 are the spec's own
decision (D25). -/
def Obligations.DemodulatorRaisesNoContractViolation : Prop :=
  ∀ s t : State, ChainConfig s → exec .dmNext s = .next t → t.fault = none ∨ t.fault = some .ioError

/-! ### Unit CRC -/

/-- R105: `CRC.CHK` of 14 bytes completes with "`CRC.BYTE(F) = 0`" and changes nothing else; any other length latches code 2. -/
def Obligations.CrcCheckComparesWithZero : Prop :=
  ∀ (s : State) (b : List Byte), s.fault = none →
    (b.length = 14 → crcBytewise b = 0 → exec (.crcChk b) s = .next { s with out := some (.bool true) }) ∧
    (b.length = 14 → crcBytewise b ≠ 0 → exec (.crcChk b) s = .next { s with out := some (.bool false) }) ∧
    (b.length ≠ 14 →
      exec (.crcChk b) s = .next { s with fault := some .bufferSize, out := some (.fault .bufferSize) })

/-- R100: the bitwise algorithm computes `B(x) · x^24 mod G(x)` over GF(2). Derived: the spec marks R100 as its own
decision (D17). -/
def Obligations.CrcIsThePolynomialRemainder : Prop :=
  ∀ (poly : (w : Nat) → BitVec w → Polynomial (ZMod 2)),
    (∀ w v, poly w v = ∑ i ∈ Finset.range w, if v.getLsbD i then Polynomial.X ^ i else 0) →
    ∀ b : List Byte,
      (b.foldl (fun p o => p * Polynomial.X ^ 8 + poly 8 o) 0 * Polynomial.X ^ 24) %ₘ
          (Polynomial.X ^ 24 + poly 24 0xFFF409) =
        poly 24 (crcBitwise b)

/-- R104 (1), an inference of the spec: `CRC.BYTE` and `CRC.BIT` complete with one and the same value on every byte list, and
change nothing else. -/
def Obligations.CrcTableMethodIsTheReference : Prop :=
  ∀ (s : State) (b : List Byte), s.fault = none →
    crcBytewise b = crcBitwise b ∧
    exec (.crcByte b) s = .next { s with out := some (.crc (crcBitwise b)) } ∧
    exec (.crcBit b) s = .next { s with out := some (.crc (crcBitwise b)) }

/-- R104 (2): a byte list followed by its own CRC, most significant byte first, has CRC 0. Derived: R104 is an
inference of the spec from R100. -/
def Obligations.AppendedCrcGivesZero : Prop :=
  ∀ (b : List Byte) (c : BitVec 24), c = crcBytewise b →
    crcBytewise (b ++ [c.extractLsb' 16 8, c.extractLsb' 8 8, c.extractLsb' 0 8]) = 0

/-- R104 (3), (4): the CRC is linear, and leading zero bytes do not change it. Derived: R104 is an inference of the
spec from R100. -/
def Obligations.CrcIsLinear : Prop :=
  (∀ a b : List Byte, a.length = b.length →
    crcBytewise (List.zipWith (· ^^^ ·) a b) = crcBytewise a ^^^ crcBytewise b) ∧
  ∀ b : List Byte, crcBytewise (0 :: b) = crcBytewise b

/-! ### Units BITS and RM -/

/-- R108: `BITS.X` completes for every legal start and size with `(value >> start) mod 2^size`; every other start and
size latch code 6. Derived: the spec marks R108 as its own decision (D18). -/
def Obligations.BitsExtractOrReject : Prop :=
  ∀ (s : State) (v : BitVec 64) (start size : Int), s.fault = none →
    (0 ≤ size → size ≤ 31 → 0 ≤ start → start + size ≤ 64 →
      exec (.bitsX v start size) s =
        .next { s with out := some (.bits (v.toNat / 2 ^ start.toNat % 2 ^ size.toNat)) }) ∧
    (size < 0 ∨ 31 < size ∨ start < 0 ∨ 64 < start + size →
      exec (.bitsX v start size) s = .next { s with fault := some .bitRange, out := some (.fault .bitRange) })

/-- R109: `RM.PARSE` of 14 bytes completes: the message where the CRC is 0, `none` where it is not; any other length
latches code 2. Derived: the spec marks R109 as its own decision (D34). -/
def Obligations.ParseKeepsValidFrames : Prop :=
  ∀ (s : State) (ts : BitVec 64), s.fault = none →
    (∀ f : Frame, crcBytewise f.toList = 0 →
      exec (.rmParse ts f.toList) s = .next { s with out := some (.message ⟨ts, f⟩) }) ∧
    (∀ f : Frame, crcBytewise f.toList ≠ 0 →
      exec (.rmParse ts f.toList) s = .next { s with out := some .noResult }) ∧
    ∀ b : List Byte, b.length ≠ 14 →
      exec (.rmParse ts b) s = .next { s with fault := some .bufferSize, out := some (.fault .bufferSize) }

/-- R110, R112, R114: `RM.DF`, `RM.ME` and `RM.TC` complete with their fields, as numbers over the bytes of the frame or the bits
of the payload, and change nothing else. -/
def Obligations.AccessorsReadTheirFields : Prop :=
  ∀ (s : State) (f : Frame) (m : Payload), s.fault = none →
    ∃ (df : BitVec 5) (me : Payload) (tc tc' : BitVec 5),
      exec (.rmDf f) s = .next { s with out := some (.df df) } ∧ df.toNat = f[0].toNat / 8 ∧
      exec (.rmMe f) s = .next { s with out := some (.me me) } ∧
      me.toNat = f[4].toNat * 256 ^ 6 + f[5].toNat * 256 ^ 5 + f[6].toNat * 256 ^ 4 + f[7].toNat * 256 ^ 3 +
        f[8].toNat * 256 ^ 2 + f[9].toNat * 256 + f[10].toNat ∧
      exec (.rmTc (.frame f)) s = .next { s with out := some (.tc tc) } ∧ tc.toNat = f[4].toNat / 8 ∧
      exec (.rmTc (.payload m)) s = .next { s with out := some (.tc tc') } ∧ tc'.toNat = m.toNat / 2 ^ 51

/-- R111 (the spec's decision D32), R113: `RM.ICAO` completes with the 24-bit number of bytes 1 to 3, and `RM.CLASS` with the kind
of the table. The table is general knowledge, not the source's (log 15). -/
def Obligations.AddressAndClassComplete : Prop :=
  ∀ (s : State) (f : Frame) (tc : BitVec 5), s.fault = none →
    ∃ (icao : BitVec 24) (k : Kind),
      exec (.rmIcao f) s = .next { s with out := some (.icao icao) } ∧
      icao.toNat = f[1].toNat * 65536 + f[2].toNat * 256 + f[3].toNat ∧
      exec (.rmClass tc) s = .next { s with out := some (.kind k) } ∧
      (k = .ident ↔ 1 ≤ tc.toNat ∧ tc.toNat ≤ 4) ∧ (k = .velocity ↔ tc.toNat = 19) ∧
      (k = .position ↔ (9 ≤ tc.toNat ∧ tc.toNat ≤ 18) ∨ (20 ≤ tc.toNat ∧ tc.toNat ≤ 22))

/-! ### Units GRAY, ALT and POS -/

/-- R118: `GRAY.DEC(g, w)` completes with `v` whose bit `j` is `g[w−1] ^ g[w−2] ^ … ^ g[j]`, and that is the one value below `2^w`
whose Gray encoding `v ^ (v >> 1)` is `g`. Nothing else changes. -/
def Obligations.GrayDecodeInvertsGrayEncode : Prop :=
  ∀ (s : State) (gv w : Nat), s.fault = none → 1 ≤ w → w ≤ 31 → gv < 2 ^ w →
    ∃ v, exec (.grayDec gv w) s = .next { s with out := some (.gray v) } ∧ v < 2 ^ w ∧
      (∀ j, j < w → v.testBit j = (List.range (w - j)).foldl (fun b k => xor b (gv.testBit (j + k))) false) ∧
      v ^^^ (v / 2) = gv ∧ ∀ v', v' < 2 ^ w → v' ^^^ (v' / 2) = gv → v' = v

/-- R119: with Q = 1 `ALT.DEC` completes with `((ALT[11:5] << 4) | ALT[3:0]) × 25 − 1000` feet; nothing else changes. Every field
with Q = 1 decodes, in steps of 25, in −1000 … 50 175. -/
def Obligations.LinearAltitudeCompletes : Prop :=
  ∀ (s : State) (alt : BitVec 12), s.fault = none → alt.getLsbD 4 = true →
    ∃ ft : Int, exec (.altDec alt) s = .next { s with out := some (.altitude ft) } ∧
      ft = (alt.toNat / 32 * 16 + alt.toNat % 16 : Nat) * 25 - 1000 ∧ -1000 ≤ ft ∧ ft ≤ 50175 ∧ ft % 25 = 0

/-- R120, R121: with Q = 0 `ALT.DEC` completes with the Gray decoded groups of the reordered field (R117), `none` for a low group
of 0, 5 or 6. The reordering is general knowledge, not the source's (log 15). -/
def Obligations.GrayAltitudeFollowsItsGroups : Prop :=
  ∀ (s : State) (alt : BitVec 12) (b : Nat → Nat), s.fault = none → (∀ i, b i = (alt.getLsbD i).toNat) → b 4 = 0 →
    ∃ low high : Nat, low < 8 ∧ high < 256 ∧
      low ^^^ (low / 2) = b 11 * 4 + b 9 * 2 + b 7 ∧
      high ^^^ (high / 2) = b 2 * 128 + b 0 * 64 + b 10 * 32 + b 8 * 16 + b 6 * 8 + b 5 * 4 + b 3 * 2 + b 1 ∧
      (low = 0 ∨ low = 5 ∨ low = 6 → exec (.altDec alt) s = .next { s with out := some .noResult }) ∧
      ∀ l : Int, (low = 7 ∧ l = 5 ∨ 1 ≤ low ∧ low ≤ 4 ∧ l = low) →
        exec (.altDec alt) s = .next
          { s with out := some (.altitude ((if high % 2 = 1 then 6 - l else l) * 100 + high * 500 - 1300)) }

/-- R117, R125 (d): under the reordering of the spec every multiple of 100 feet from −1200 to 126 700 is the altitude
of exactly one field with Q = 0. Derived: R125 is an inference of the spec, and the reordering is general knowledge
(log 15). -/
def Obligations.GrayAltitudesCoverEveryStepOnce : Prop :=
  (∀ n : Fin 1280, ∃! alt : BitVec 12, alt.getLsbD 4 = false ∧ altDec iqd alt = some (100 * (n.val : Int) - 1200)) ∧
  ∀ (alt : BitVec 12) (ft : Int), alt.getLsbD 4 = false → altDec iqd alt = some ft →
    -1200 ≤ ft ∧ ft ≤ 126700 ∧ ft % 100 = 0

/-- R124: `POS.DEC` completes: `none` unless the class is POSITION and the altitude decodes; else the record of its
fields. Derived: the spec marks R124 as its own decision (D31); the places of `ALT` and `PAR` are general knowledge
(log 15). -/
def Obligations.PositionRecordCollectsItsFields : Prop :=
  ∀ (s : State) (ts : BitVec 64) (f : Frame) (me : Nat), s.fault = none → me = (frameMe f).toNat →
    (classOf iqd (BitVec.ofNat 5 (me / 2 ^ 51)) ≠ .position →
      exec (.posDec ⟨ts, f⟩) s = .next { s with out := some .noResult }) ∧
    (classOf iqd (BitVec.ofNat 5 (me / 2 ^ 51)) = .position →
      (altDec iqd (BitVec.ofNat 12 (me / 2 ^ 36)) = none →
        exec (.posDec ⟨ts, f⟩) s = .next { s with out := some .noResult }) ∧
      ∀ ft, altDec iqd (BitVec.ofNat 12 (me / 2 ^ 36)) = some ft →
        exec (.posDec ⟨ts, f⟩) s = .next
          { s with
            out := some (.position
              { ts := ts, icao := frameIcao f, altFt := ft, par := decide (me / 2 ^ 34 % 2 = 1),
                x := BitVec.ofNat 17 me, y := BitVec.ofNat 17 (me / 2 ^ 17) }) })

/-! ### Unit CPR -/

/-- R12: `rne(q)` is an integer nearest to `q`, and the even one on a tie. R133 (b): no tie can occur in `T32` of an
angle over at most 60 zones, from a 17-bit local. Derived: the spec marks R12 and R133 as its own decisions (D23). -/
def Obligations.RoundingIsNearestTiesToEven : Prop :=
  (∀ q : ℚ, |q - rne q| ≤ 1 / 2 ∧ (|q - rne q| = 1 / 2 → rne q % 2 = 0)) ∧
  ∀ (z : Int) (zones : Nat) (x : BitVec 17) (t : ℚ), 1 ≤ zones → zones ≤ 60 →
    t = 1 / (zones : ℚ) * ((z : ℚ) + (x.toNat : ℚ) / 2 ^ 17) → |t * 2 ^ 32 - t32 t| < 1 / 2

/-- R131: `CPR.NL` completes with the zone count of its latitude (ZoneCountIsTheCosineFormula says what it is), an integer
1 … 60, the same for a latitude, for its negative, and half a turn on. Derived: the table form and the reduction of the latitude
are the model's (log 13, log 14), and at latitude 0 the count is free (log 12). -/
def Obligations.ZoneCountCompletes : Prop :=
  ∀ (s : State) (lat : ℚ), s.fault = none →
    ∃ n, exec (.cprNl lat) s = .next { s with out := some (.zones n) } ∧ n = zoneCount lat ∧ 1 ≤ n ∧ n ≤ 60 ∧
      exec (.cprNl (-lat)) s = .next { s with out := some (.zones n) } ∧
      exec (.cprNl (lat + 1 / 2)) s = .next { s with out := some (.zones n) }

/-- R132, R131: away from latitude 0 and from the last printed digit of a threshold, `CPR.NL(lat)` is the largest `n`
in 1 … 60 such that `n = 1` or `cos²(2π lat) (1 − cos(2π/n)) ≥ 1 − cos(2π/60)`. Derived: R132 is an inference of the
spec from R131; the undecided bands are log 13. -/
def Obligations.ZoneCountIsTheCosineFormula : Prop :=
  ∀ (lat : ℚ) (n : Nat), foldLat lat ≠ 0 → n = zoneCount lat →
    (∀ r ∈ zoneTable, ¬((r.num : ℚ) - r.slack < foldLat lat * r.den ∧ foldLat lat * r.den < (r.num : ℚ) + r.slack)) →
    (n = 1 ∨ 1 - Real.cos (2 * Real.pi / 60) ≤
      Real.cos (2 * Real.pi * (lat : ℝ)) ^ 2 * (1 - Real.cos (2 * Real.pi / n))) ∧
    ∀ m : Nat, n < m → m ≤ 60 →
      Real.cos (2 * Real.pi * (lat : ℝ)) ^ 2 * (1 - Real.cos (2 * Real.pi / m)) < 1 - Real.cos (2 * Real.pi / 60)

/-- The two latitudes of `CPR.DEC` on 17-bit fields are never within the last printed digit of a threshold (R130,
R132): no result of `CPR.DEC` rests on the free value of log 13. Derived: the bands are the model's reading of the
last sentence of R132 (log 13). -/
def Obligations.RawLatitudesAreNeverUndecided : Prop :=
  ∀ (y0 y1 : BitVec 17) (r : ZoneRow), r ∈ zoneTable →
    ∀ lat ∈ [angle (zphi (localOf y0) (localOf y1)) 60 (localOf y0), angle (zphi (localOf y0) (localOf y1)) 59 (localOf y1)],
      ¬((r.num : ℚ) - r.slack < foldLat lat * r.den ∧ foldLat lat * r.den < (r.num : ℚ) + r.slack)

/-- R130: `CPR.DEC` completes, step by step, with `center` (`c` below) written out: `zphi` and the two latitudes;
`none` where their zone counts differ or a latitude is outside ±2^30; else the longitude and latitude of the more
recent message, from the local itself where the count is 1 and from `zlam` where it is not. Derived: the helpers of
R129 are the spec's decision (D24), and the zone counts are log 12 to log 14. -/
def Obligations.CombinerFollowsItsSteps : Prop :=
  ∀ (s : State) (bx0 by0 bx1 by1 : BitVec 17) (x0 y0 x1 y1 lat0 lat1 : ℚ) (z LAT0 LAT1 : Int) (n : Nat)
    (c : ℚ → ℚ),
    s.fault = none → (∀ t, c t = if 1 / 2 ≤ t then t - 1 else t) →
    x0 = (bx0.toNat : ℚ) / 2 ^ 17 → y0 = (by0.toNat : ℚ) / 2 ^ 17 →
    x1 = (bx1.toNat : ℚ) / 2 ^ 17 → y1 = (by1.toNat : ℚ) / 2 ^ 17 →
    z = rne (y0 * 59 - y1 * 60) →
    lat0 = 1 / 60 * (((if z < 0 then z + 60 else z : Int) : ℚ) + y0) →
    lat1 = 1 / 59 * (((if z < 0 then z + 59 else z : Int) : ℚ) + y1) →
    LAT0 = rne (c lat0 * 2 ^ 32) → LAT1 = rne (c lat1 * 2 ^ 32) →
    n = zoneCount lat0 →
    ∀ recent : Bool,
      (zoneCount lat1 ≠ n → exec (.cprDec bx0 by0 bx1 by1 recent) s = .next { s with out := some .noResult }) ∧
      (¬(-2 ^ 30 ≤ LAT0 ∧ LAT0 ≤ 2 ^ 30 ∧ -2 ^ 30 ≤ LAT1 ∧ LAT1 ≤ 2 ^ 30) →
        exec (.cprDec bx0 by0 bx1 by1 recent) s = .next { s with out := some .noResult }) ∧
      (zoneCount lat1 = n → -2 ^ 30 ≤ LAT0 → LAT0 ≤ 2 ^ 30 → -2 ^ 30 ≤ LAT1 → LAT1 ≤ 2 ^ 30 →
        (n = 1 → exec (.cprDec bx0 by0 bx1 by1 recent) s = .next
          { s with
            out := some (if recent then .global (rne (c x1 * 2 ^ 32)) LAT1
              else .global (rne (c x0 * 2 ^ 32)) LAT0) }) ∧
        (n ≠ 1 → ∀ zlam : Int, zlam = rne (x0 * (n - 1) - x1 * n) →
          exec (.cprDec bx0 by0 bx1 by1 recent) s = .next
            { s with
              out := some
                (if recent then
                  .global (rne (c (1 / (n - 1) * (((if zlam < 0 then zlam + (n - 1) else zlam : Int) : ℚ) + x1)) *
                    2 ^ 32)) LAT1
                else
                  .global (rne (c (1 / n * (((if zlam < 0 then zlam + n else zlam : Int) : ℚ) + x0)) * 2 ^ 32))
                    LAT0) }))

/-- R134, R52: a result of `CPR.DEC` has its latitude in `[−2^30, 2^30]` and its longitude in the signed 32-bit range.
Derived: R134 is an inference of the spec. -/
def Obligations.CombinedPositionIsInRange : Prop :=
  ∀ (x0 y0 x1 y1 : BitVec 17) (recent : Bool) (lon lat : Int), cprDec x0 y0 x1 y1 recent = some (lon, lat) →
    -2 ^ 30 ≤ lat ∧ lat ≤ 2 ^ 30 ∧ -2 ^ 31 ≤ lon ∧ lon ≤ 2 ^ 31 - 1

/-! ### The data formats -/

/-- R47, R61 and R48: a sample word completes with `u − 2048`; a frame of either row completes with its fields, which are bit
fields of the 112-bit integer `F[0] ++ … ++ F[13]`. That a presented word is taken apart so is the model's reading of the format
rows (log 3). -/
def Obligations.SampleAndFrameWordsAreTakenApart : Prop :=
  ∀ (s : State) (u : BitVec 12) (f : Frame) (W : Nat), W = f.toList.foldl (fun n b => n * 256 + b.toNat) 0 →
    exec (.fmtSampleWord u) s = .next { s with out := some (.sampleValue ((u.toNat : Int) - 2048)) } ∧
    ∃ r : FrameFields,
      exec (.fmtFrame f) s = .next { s with out := some (.frameFields r) } ∧
      exec (.fmtFrameDf17 f) s = .next { s with out := some (.frameFields r) } ∧
      r.df.toNat = W / 2 ^ 107 ∧ r.low.toNat = W / 2 ^ 104 % 2 ^ 3 ∧ r.icao.toNat = W / 2 ^ 80 % 2 ^ 24 ∧
      r.me.toNat = W / 2 ^ 24 % 2 ^ 56 ∧ r.pi.toNat = W % 2 ^ 24

/-- R49, R50, R51: payloads and altitude fields complete with the bit fields of their rows (log 3; the places of `ALT` and
`PAR` and the pulse names are general knowledge, log 15). -/
def Obligations.PayloadAndAltitudeWordsAreTakenApart : Prop :=
  ∀ (s : State) (me : Payload) (alt : BitVec 12),
    exec (.fmtMe me) s = .next { s with out := some (.payloadFields (me.extractLsb' 51 5) (me.extractLsb' 0 51)) } ∧
    exec (.fmtMePosition me) s = .next
      { s with
        out := some (.positionFields
          { tc := me.extractLsb' 51 5, alt := me.extractLsb' 36 12, par := me.getLsbD 34, y := me.extractLsb' 17 17,
            x := me.extractLsb' 0 17 }) } ∧
    exec (.fmtAltQ1 alt) s = .next
      { s with
        out := some (.altQ1 (alt.extractLsb' 5 7) (alt.extractLsb' 0 4) (alt.toNat / 32 * 16 + alt.toNat % 16)) } ∧
    exec (.fmtAltQ0 alt) s = .next
      { s with
        out := some (.altQ0
          { c1 := alt.getLsbD 11, a1 := alt.getLsbD 10, c2 := alt.getLsbD 9, a2 := alt.getLsbD 8, c4 := alt.getLsbD 7,
            a4 := alt.getLsbD 6, b1 := alt.getLsbD 5, b2 := alt.getLsbD 3, d2 := alt.getLsbD 2, b4 := alt.getLsbD 1,
            d4 := alt.getLsbD 0 }) }

/-! ### Refusals, and rules of the whole machine -/

/-- R143: while `FAULT ≠ NONE` every operation of R45 except `RESET` is refused; so are `PW.GET`, `PW.FULL`, `PW.POS`,
`PW.ADV`, `PW.ADVN` and `DM.NEXT` while `INITED = 0`, and `PW.INIT` while `INITED = 1`. A refused call has no
transition. No other call of a stateless operation is refused: with `FAULT = NONE` each completes on every operand, `GRAY.DEC`
outside its domain too (log 30), and a data word in every state (log 3). Derived: the spec marks R143 as its own decision (D25, D26);
the outcome refused is log 9. -/
def Obligations.RefusedCallsHaveNoTransition : Prop :=
  ∀ (i : Instr) (s : State),
    (s.fault ≠ none → isFormat i = false → i ≠ .reset → exec i s = .refused .faultLatched) ∧
    (s.fault = none → s.inited = false → needsInit i = true → exec i s = .refused .notInitialised) ∧
    (s.fault = none → s.inited = true → exec .pwInit s = .refused .alreadyInitialised) ∧
    (s.fault = none → isStateless i = true → ∃ t, exec i s = .next t) ∧
    (isFormat i = true → ∃ t, exec i s = .next t)

/-- R148: "The only way to clear `FAULT` is `RESET`"; a second fault cannot occur: a step from a state with `FAULT`
set that goes on and is not a `RESET` leaves `FAULT` as it is. Derived: the spec marks R148 as its own decision (D25).
-/
def Obligations.OnlyResetClearsTheFault : Prop :=
  ∀ s t : State, step s = .next t → s.fault ≠ none →
    t.fault = s.fault ∨ ∃ rest, decode s.requests = .ok (.reset, rest)

/-- R25: an operation of units CRC, BITS, RM, GRAY, ALT, POS and CPR leaves all state as it was, but for the result and, where it
raises, `FAULT`; its result depends on its operands alone. Unit SD holds no state of its own: `SD.READ` moves the host's stream and
nothing else. -/
def Obligations.StatelessOperationsTouchNoState : Prop :=
  (∀ (i : Instr) (s t : State), isStateless i = true → exec i s = .next t →
    (∃ f o, t = { s with fault := f, out := o } ∧ (f ≠ s.fault → ∃ c, f = some c ∧ o = some (.fault c))) ∧
    ∀ s' : State, s'.fault = none → ∃ t', exec i s' = .next t' ∧ t'.out = t.out ∧ t'.fault = t.fault) ∧
  ∀ (n : Nat) (s t : State), exec (.sdRead n) s = .next t →
    ∃ src ctr f o, t = { s with source := src, freeCtr := ctr, fault := f, out := o }

/-- R16, column "written by", and R17: the window's registers and banks are written by `RESET`, `PW.INIT`, `PW.ADV`
and what calls it alone; `PREV` by `RESET` and `DM.NEXT` alone; `H` and `K` by those that read a batch alone; the
configuration registers by `RESET` alone. Derived: the spec marks R16 as its own decision. -/
def Obligations.RegistersHaveTheirWriters : Prop :=
  ∀ (i : Instr) (s t : State), exec i s = .next t →
    (writesWindow i = false →
      t.mem = s.mem ∧ t.cur = s.cur ∧ t.pib = s.pib ∧ t.pos = s.pos ∧ t.nloaded = s.nloaded ∧ t.inited = s.inited) ∧
    (i ≠ .reset → i ≠ .dmNext → t.prev = s.prev) ∧
    (i ≠ .reset → t.wsize = s.wsize ∧ t.pcBatch = s.pcBatch ∧ t.sdBatch = s.sdBatch) ∧
    (writesWindow i = false → (∀ n, i ≠ .pcRead n) → t.h = s.h ∧ t.k = s.k) ∧
    (writesWindow i = false → (∀ n, i ≠ .pcRead n) → (∀ n, i ≠ .sdRead n) →
      t.source = s.source ∧ t.freeCtr = s.freeCtr) ∧
    t.params = s.params ∧ t.requests = s.requests

/-- The invariants hold at reset (R27, R163, log 5). Derived: R27 and R29 are inferences of the spec. -/
def Obligations.InvariantHoldsAtReset : Prop :=
  Inv State.reset ∧ PowerBound State.reset

/-- R27 items 1, 2 and 4, with R163 and the canonical form of the memory: every step keeps them, from every state that
has them. Derived: R27 is an inference of the spec. -/
def Obligations.EveryStepKeepsTheInvariant : Prop :=
  ∀ s t : State, Inv s → step s = .next t → Inv t

/-- R29: every step keeps the bounds on the power samples in the banks and on `PREV`, whatever the stream holds.
Derived: R29 is an inference of the spec. -/
def Obligations.EveryStepKeepsThePowerBound : Prop :=
  ∀ s t : State, PowerBound s → step s = .next t → PowerBound t

/-! ### Requests -/

/-- Every well-formed operation and data word decodes from its encoding, whatever follows it (R45, R47 to R51, log 2,
log 3). Derived: the operand bytes and tags are the model's. -/
def Obligations.DecodeOfEncodeIsTheInstruction : Prop :=
  ∀ (i : Instr) (r : List Byte), WellFormed i = true → decode (encode i ++ r) = .ok (i, r)

/-- What the decoder accepts is well-formed, and it takes at least one byte. Derived: the request bytes are the
model's (log 2, log 3). -/
def Obligations.DecodedRequestsAreWellFormed : Prop :=
  ∀ (bs : List Byte) (i : Instr) (r : List Byte), decode bs = .ok (i, r) → WellFormed i = true ∧ r.length < bs.length

/-- R45, R54: the codes 0x00 to 0x18 of a table word select the operations of the table, one by one, and 0x19 to 0x1F none: a step
on them is refused. A few requests are written out: `PW.GET(35)`, `RM.CLASS(19)`, `ALT.DEC(0xC38)`, `CPR.DEC(51372,
93000, 50194, 74158, 1)`, the sample word 0x0FFF (R46, R47; operand bytes log 2). Derived: the spec marks R45 as its
own decision (D2), and the operand bytes are the model's (log 2). -/
def Obligations.SelectCodesAreTheTables : Prop :=
  (List.range 13).map (decodeTableWord 8) =
    [some .reset, some (.sdRead 0), some (.pcRead 0), some .pwInit, some (.pwGet 0), some .pwFull, some .pwAdv,
      some (.pwAdvn 0), some .pwPos, some .dmNext, some (.crcBit []), some (.crcByte []), some (.crcChk [])] ∧
  (List.range' 13 12).map (decodeTableWord 8) =
    [some (.bitsX 0 0 0), some (.rmParse 0 []), some (.rmDf (Vector.replicate 14 0)),
      some (.rmIcao (Vector.replicate 14 0)), some (.rmMe (Vector.replicate 14 0)),
      some (.rmTc (.frame (Vector.replicate 14 0))), some (.rmClass 0), some (.grayDec 0 0), some (.altDec 0),
      some (.posDec ⟨0, Vector.replicate 14 0⟩), some (.cprNl 0), some (.cprDec 0 0 0 0 false)] ∧
  (∀ c : Fin 25, ∃ i, decodeTableWord 8 c.val = some i ∧ opCode i = some c.val) ∧
  (∀ (c : Fin 7) (s : State) (r : List Byte), s.requests = BitVec.ofNat 8 (25 + c.val) :: r →
    step s = .refused .unassignedCode) ∧
  decode [0x04, 0x23, 0, 0, 0, 0, 0, 0, 0] = .ok (.pwGet 35, []) ∧
  decode [0x13, 0x13] = .ok (.rmClass 19, []) ∧
  decode [0x15, 0x38, 0x0C] = .ok (.altDec 0xC38, []) ∧
  decode [0x18, 0xAC, 0xC8, 0x00, 0x48, 0x6B, 0x01, 0x12, 0xC4, 0x00, 0xAE, 0x21, 0x01, 0x01] =
    .ok (.cprDec 51372 93000 50194 74158 true, []) ∧
  decode [0x20, 0xFF, 0x0F] = .ok (.fmtSampleWord 0xFFF, [])

/-- A step with a well-formed request in front is `exec` of it, its bytes taken off the queue; with no request it
changes nothing (R7, R149, log 1). Derived: the queue of requests is the model's (log 1). -/
def Obligations.StepRunsTheNextRequest : Prop :=
  (∀ (s : State) (i : Instr) (r : List Byte), WellFormed i = true → s.requests = encode i ++ r →
    step s = exec i { s with requests := r }) ∧
  ∀ s : State, s.requests = [] → step s = .next s
end

