-- ==== Sys2Proof/Laws/Memory.lean ====
section
/-! SUPPORT. What the memory operations do: reads after writes, and that every operation keeps the canonical form. -/

namespace Sys2Proof.Laws

open Sys2Proof.Machine

/-! ### The canonical form -/

theorem bankWfFrom_cons (lo j : Nat) (u : Power) (r : Bank) :
    bankWfFrom lo ((j, u) :: r) = true ↔ lo ≤ j ∧ j < 65536 ∧ u ≠ 0 ∧ bankWfFrom (j + 1) r = true := by
  simp [bankWfFrom, and_assoc]

theorem bankWfFrom_mono {lo lo' : Nat} {b : Bank} (h : lo' ≤ lo) (hb : bankWfFrom lo b = true) :
    bankWfFrom lo' b = true := by
  cases b with
  | nil => rfl
  | cons e r =>
    rw [bankWfFrom_cons] at hb ⊢
    exact ⟨h.trans hb.1, hb.2⟩

/-- Below its first possible index a canonical bank reads 0. -/
theorem bankRead_below {lo k : Nat} {b : Bank} (hb : bankWfFrom lo b = true) (hk : k < lo) : bankRead b k = 0 := by
  induction b generalizing lo with
  | nil => rfl
  | cons e r ih =>
    obtain ⟨j, u⟩ := e
    rw [bankWfFrom_cons] at hb
    have hne : j ≠ k := by omega
    simp only [bankRead, if_neg hne]
    exact ih hb.2.2.2 (by omega)

/-! ### One write -/

theorem bankRead_bankWrite {lo k : Nat} {v : Power} {b : Bank} (hb : bankWfFrom lo b = true) (k' : Nat) :
    bankRead (bankWrite k v b) k' = if k' = k then v else bankRead b k' := by
  induction b generalizing lo with
  | nil =>
    simp only [bankWrite]
    split_ifs with h0 hk hk <;> simp_all [bankRead]
    omega
  | cons e r ih =>
    obtain ⟨j, u⟩ := e
    rw [bankWfFrom_cons] at hb
    have below : ∀ x, x ≤ j → bankRead r x = 0 := fun x hx => bankRead_below hb.2.2.2 (by omega)
    have hrec := ih hb.2.2.2
    simp only [bankWrite]
    by_cases h1 : k < j
    · rw [if_pos h1]
      by_cases hv : v = 0
      · rw [if_pos hv]
        by_cases hk : k' = k
        · subst hk
          have : j ≠ k' := by omega
          simp [bankRead, this, below k' (by omega), hv]
        · simp [hk]
      · rw [if_neg hv]
        by_cases hk : k' = k
        · simp [bankRead, hk]
        · simp [bankRead, hk, Ne.symm hk]
    · rw [if_neg h1]
      by_cases h2 : k = j
      · subst h2
        by_cases hv : v = 0
        · by_cases hk : k' = k
          · simp [hv, hk, below k le_rfl]
          · simp [hv, hk, bankRead, Ne.symm hk]
        · by_cases hk : k' = k
          · rw [if_pos rfl, if_neg hv]
            simp [hk, bankRead]
          · rw [if_pos rfl, if_neg hv]
            simp [hk, bankRead, Ne.symm hk]
      · rw [if_neg h2]
        by_cases hj : j = k'
        · have : k' ≠ k := by omega
          simp [bankRead, hj, this]
        · simp [bankRead, hj, hrec]

theorem bankWrite_wfFrom {lo k : Nat} {v : Power} {b : Bank} (hb : bankWfFrom lo b = true) (hlo : lo ≤ k)
    (hk : k < 65536) : bankWfFrom lo (bankWrite k v b) = true := by
  induction b generalizing lo with
  | nil =>
    simp only [bankWrite]
    split_ifs with hv
    · rfl
    · rw [bankWfFrom_cons]
      exact ⟨hlo, hk, hv, rfl⟩
  | cons e r ih =>
    obtain ⟨j, u⟩ := e
    have hc := (bankWfFrom_cons lo j u r).1 hb
    simp only [bankWrite]
    split_ifs with h1 hv h2 hv
    · exact hb
    · rw [bankWfFrom_cons]
      exact ⟨hlo, hk, hv, (bankWfFrom_cons _ _ _ _).2 ⟨h1, hc.2⟩⟩
    · exact bankWfFrom_mono (by omega) hc.2.2.2
    · subst h2
      rw [bankWfFrom_cons]
      exact ⟨hlo, hk, hv, hc.2.2.2⟩
    · rw [bankWfFrom_cons]
      exact ⟨hc.1, hc.2.1, hc.2.2.1, ih hc.2.2.2 (by omega)⟩

/-! ### A batch -/

theorem bankRead_bankOf (k : Nat) (ps : List Power) (k' : Nat) :
    bankRead (bankOf k ps) k' = if k ≤ k' then ps.getD (k' - k) 0 else 0 := by
  induction ps generalizing k with
  | nil => simp [bankOf, bankRead]
  | cons p ps ih =>
    by_cases hp : p = 0
    · simp only [bankOf, if_pos hp, ih]
      rcases Nat.lt_trichotomy k k' with h | h | h
      · have : k' - k = (k' - (k + 1)) + 1 := by omega
        simp [this, h, h.le]
      · subst h
        simp [hp]
      · simp [Nat.not_le.2 h, show ¬k + 1 ≤ k' by omega]
    · simp only [bankOf, if_neg hp, bankRead, ih]
      rcases Nat.lt_trichotomy k k' with h | h | h
      · have : k' - k = (k' - (k + 1)) + 1 := by omega
        simp [this, h, h.le, h.ne]
      · subst h
        simp
      · simp [Nat.not_le.2 h, show ¬k + 1 ≤ k' by omega, h.ne']

theorem bankRead_append (a b : Bank) (k : Nat) :
    bankRead (a ++ b) k = if ∃ u, (k, u) ∈ a then bankRead a k else bankRead b k := by
  induction a with
  | nil => simp
  | cons e r ih =>
    obtain ⟨j, u⟩ := e
    by_cases hj : j = k
    · subst hj
      have : ∃ v, (j, v) ∈ (j, u) :: r := ⟨u, by simp⟩
      rw [if_pos this]
      simp [bankRead]
    · simp [bankRead, hj, ih, Ne.symm hj]

theorem bankRead_filter_ge (n : Nat) (b : Bank) (k : Nat) :
    bankRead (b.filter fun e => decide (n ≤ e.1)) k = if n ≤ k then bankRead b k else 0 := by
  induction b with
  | nil => simp [bankRead]
  | cons e r ih =>
    obtain ⟨j, u⟩ := e
    by_cases hn : n ≤ j
    · rw [List.filter_cons_of_pos (by simpa using hn)]
      by_cases hj : j = k
      · subst hj
        simp [bankRead, hn]
      · simp [bankRead, hj, ih]
    · rw [List.filter_cons_of_neg (by simpa using hn), ih]
      by_cases hk : n ≤ k
      · have : j ≠ k := by omega
        simp [bankRead, this, hk]
      · simp [hk]

theorem mem_bankOf {k k' : Nat} {u : Power} {ps : List Power} (h : (k', u) ∈ bankOf k ps) :
    k ≤ k' ∧ k' < k + ps.length ∧ u ≠ 0 := by
  induction ps generalizing k with
  | nil => simp [bankOf] at h
  | cons p ps ih =>
    simp only [bankOf] at h
    split_ifs at h with hp
    · obtain ⟨h1, h2, h3⟩ := ih h
      simp only [List.length_cons]
      exact ⟨by omega, by omega, h3⟩
    · rw [List.mem_cons] at h
      rcases h with h | h
      · obtain ⟨rfl, rfl⟩ := Prod.mk.inj h
        simp only [List.length_cons]
        exact ⟨le_rfl, by omega, hp⟩
      · obtain ⟨h1, h2, h3⟩ := ih h
        simp only [List.length_cons]
        exact ⟨by omega, by omega, h3⟩

/-- R35, D8: a batch sets the entries below its count and keeps the rest. -/
theorem bankRead_bankFill (ps : List Power) (b : Bank) (k : Nat) :
    bankRead (bankFill ps b) k = if k < ps.length then ps.getD k 0 else bankRead b k := by
  rw [bankFill, bankRead_append, bankRead_bankOf, bankRead_filter_ge]
  by_cases hk : k < ps.length
  · have hn : ¬ps.length ≤ k := by omega
    by_cases he : ∃ u, (k, u) ∈ bankOf 0 ps
    · simp only [he, hk, if_true, Nat.zero_le, Nat.sub_zero]
    · simp only [he, hk, hn, if_true, if_false]
      by_contra hne
      have hr : bankRead (bankOf 0 ps) k ≠ 0 := by
        rw [bankRead_bankOf]
        simpa using fun h => hne h.symm
      refine he ?_
      clear he hne hn hk
      generalize bankOf 0 ps = a at hr
      induction a with
      | nil => simp [bankRead] at hr
      | cons e r ih =>
        obtain ⟨j, u⟩ := e
        by_cases hj : j = k
        · exact ⟨u, by simp [hj]⟩
        · simp only [bankRead, if_neg hj] at hr
          obtain ⟨v, hv⟩ := ih hr
          exact ⟨v, by simp [hv]⟩
  · have hn : ps.length ≤ k := by omega
    have he : ¬∃ u, (k, u) ∈ bankOf 0 ps := by
      rintro ⟨u, hu⟩
      have := mem_bankOf hu
      omega
    simp only [he, hk, hn, if_true, if_false]

theorem bankOf_wfFrom {k : Nat} {ps : List Power} (h : k + ps.length ≤ 65536) :
    bankWfFrom k (bankOf k ps) = true := by
  induction ps generalizing k with
  | nil => rfl
  | cons p ps ih =>
    simp only [List.length_cons] at h
    simp only [bankOf]
    split_ifs with hp
    · exact bankWfFrom_mono (by omega) (ih (by omega))
    · rw [bankWfFrom_cons]
      exact ⟨le_rfl, by omega, hp, ih (by omega)⟩

theorem filter_ge_wfFrom {n lo : Nat} {b : Bank} (hb : bankWfFrom lo b = true) :
    bankWfFrom (max lo n) (b.filter fun e => decide (n ≤ e.1)) = true := by
  induction b generalizing lo with
  | nil => rfl
  | cons e r ih =>
    obtain ⟨j, u⟩ := e
    rw [bankWfFrom_cons] at hb
    by_cases hn : n ≤ j
    · rw [List.filter_cons_of_pos (by simpa using hn), bankWfFrom_cons]
      exact ⟨by omega, hb.2.1, hb.2.2.1, bankWfFrom_mono (by omega) (ih hb.2.2.2)⟩
    · rw [List.filter_cons_of_neg (by simpa using hn)]
      exact bankWfFrom_mono (by omega) (ih hb.2.2.2)

theorem append_wfFrom {lo m : Nat} {a b : Bank} (ha : bankWfFrom lo a = true) (hm : ∀ e ∈ a, e.1 < m)
    (hlo : lo ≤ m) (hb : bankWfFrom m b = true) : bankWfFrom lo (a ++ b) = true := by
  induction a generalizing lo with
  | nil => exact bankWfFrom_mono hlo hb
  | cons e r ih =>
    obtain ⟨j, u⟩ := e
    rw [bankWfFrom_cons] at ha
    rw [List.cons_append, bankWfFrom_cons]
    have hj : j < m := hm (j, u) (by simp)
    exact ⟨ha.1, ha.2.1, ha.2.2.1, ih ha.2.2.2 (fun e he => hm e (by simp [he])) hj⟩

theorem bankFill_wf {ps : List Power} {b : Bank} (hb : bankWf b = true) (h : ps.length ≤ 65536) :
    bankWf (bankFill ps b) = true := by
  refine append_wfFrom (m := ps.length) (bankOf_wfFrom (by omega)) ?_ (by omega) ?_
  · rintro ⟨k, u⟩ he
    have := mem_bankOf he
    simp only at this ⊢
    omega
  · exact bankWfFrom_mono (by omega) (filter_ge_wfFrom hb)

/-- Canonical banks that read alike are equal. -/
theorem bank_ext {lo : Nat} {a b : Bank} (ha : bankWfFrom lo a = true) (hb : bankWfFrom lo b = true)
    (h : ∀ k, bankRead a k = bankRead b k) : a = b := by
  induction a generalizing lo b with
  | nil =>
    cases b with
    | nil => rfl
    | cons e r =>
      obtain ⟨j, u⟩ := e
      rw [bankWfFrom_cons] at hb
      have := h j
      simp only [bankRead, if_true] at this
      exact absurd this.symm hb.2.2.1
  | cons e r ih =>
    obtain ⟨j, u⟩ := e
    have hc := (bankWfFrom_cons _ _ _ _).1 ha
    cases b with
    | nil =>
      have := h j
      simp only [bankRead, if_true] at this
      exact absurd this hc.2.2.1
    | cons e' r' =>
      obtain ⟨j', u'⟩ := e'
      have hc' := (bankWfFrom_cons _ _ _ _).1 hb
      have hjj : j = j' := by
        rcases Nat.lt_trichotomy j j' with hlt | heq | hgt
        · have h1 := h j
          simp only [bankRead, if_true, if_neg (show j' ≠ j by omega)] at h1
          rw [bankRead_below hc'.2.2.2 (by omega)] at h1
          exact absurd h1 hc.2.2.1
        · exact heq
        · have h1 := h j'
          simp only [bankRead, if_true, if_neg (show j ≠ j' by omega)] at h1
          rw [bankRead_below hc.2.2.2 (by omega)] at h1
          exact absurd h1.symm hc'.2.2.1
      subst hjj
      have hu : u = u' := by simpa [bankRead] using h j
      subst hu
      have hr : r = r' := by
        refine ih hc.2.2.2 hc'.2.2.2 fun k => ?_
        by_cases hk : j = k
        · subst hk
          rw [bankRead_below hc.2.2.2 (by omega), bankRead_below hc'.2.2.2 (by omega)]
        · simpa [bankRead, hk] using h k
      rw [hr]

/-! ### Both banks -/

theorem memBank_memSetBank (m : Memory) (b b' : Fin 2) (x : Bank) :
    memBank (memSetBank m b x) b' = if b' = b then x else memBank m b' := by
  fin_cases b <;> fin_cases b' <;> simp [memBank, memSetBank]

theorem memory_wf_iff (m : Memory) : m.wf = true ↔ ∀ b, bankWf (memBank m b) = true := by
  constructor
  · intro h b
    simp only [Memory.wf, Bool.and_eq_true] at h
    fin_cases b
    · exact h.1
    · exact h.2
  · intro h
    simpa [Memory.wf, memBank] using And.intro (h 0) (h 1)

theorem memRead_memFill (m : Memory) (b : Fin 2) (ps : List Power) (b' : Fin 2) (k : Nat) :
    memRead (memFill m b ps) b' k = if b' = b ∧ k < ps.length then ps.getD k 0 else memRead m b' k := by
  simp only [memRead, memFill, memBank_memSetBank]
  by_cases hb : b' = b
  · subst hb
    simp [bankRead_bankFill]
  · simp [hb]

theorem memRead_memWrite {m : Memory} (hm : m.wf = true) (b : Fin 2) (k : Nat) (v : Power) (b' : Fin 2) (k' : Nat) :
    memRead (memWrite m b k v) b' k' = if b' = b ∧ k' = k then v else memRead m b' k' := by
  simp only [memRead, memWrite, memBank_memSetBank]
  by_cases hb : b' = b
  · subst hb
    simp [bankRead_bankWrite ((memory_wf_iff m).1 hm b')]
  · simp [hb]

theorem memFill_wf {m : Memory} (hm : m.wf = true) (b : Fin 2) {ps : List Power} (h : ps.length ≤ 65536) :
    (memFill m b ps).wf = true := by
  rw [memory_wf_iff] at hm ⊢
  intro b'
  rw [memFill, memBank_memSetBank]
  split_ifs with hb
  · exact bankFill_wf (hm b) h
  · exact hm b'

theorem memWrite_wf {m : Memory} (hm : m.wf = true) (b : Fin 2) {k : Nat} (hk : k < 65536) (v : Power) :
    (memWrite m b k v).wf = true := by
  rw [memory_wf_iff] at hm ⊢
  intro b'
  rw [memWrite, memBank_memSetBank]
  split_ifs with hb
  · exact bankWrite_wfFrom (hm b) (Nat.zero_le k) hk
  · exact hm b'

/-- Canonical memories that read alike are equal. -/
theorem memory_ext {m m' : Memory} (hm : m.wf = true) (hm' : m'.wf = true)
    (h : ∀ b k, memRead m b k = memRead m' b k) : m = m' := by
  rw [memory_wf_iff] at hm hm'
  have e0 := bank_ext (hm 0) (hm' 0) fun k => h 0 k
  have e1 := bank_ext (hm 1) (hm' 1) fun k => h 1 k
  cases m
  cases m'
  simp_all [memBank]

/-- The empty memory has the canonical form and reads 0 everywhere (R151). -/
theorem empty_memory_wf : (⟨[], []⟩ : Memory).wf = true := rfl

theorem memRead_empty (b : Fin 2) (k : Nat) : memRead ⟨[], []⟩ b k = 0 := by
  fin_cases b <;> rfl

/-! ### The history file -/

/-- What a write to the history leaves: the slot written holds a 12-bit signed value, the others are as before. -/
theorem histGet_histPut (h : History) (i j : Nat) (v : Int) :
    histGet (histPut h i v) j = if j % 8 = i % 8 then (BitVec.ofInt 12 v).toInt else histGet h j := by
  by_cases hij : j % 8 = i % 8
  · simp [histGet, histPut, hij]
  · simp only [histGet, histPut, if_neg hij]
    rw [Vector.getElem_set_ne]
    exact fun h => hij h.symm

theorem histGet_bounds (h : History) (i : Nat) : -2048 ≤ histGet h i ∧ histGet h i ≤ 2047 := by
  have h1 := BitVec.toInt_lt (x := h[i % 8]'(Nat.mod_lt i (by decide)))
  have h2 := BitVec.le_toInt (x := h[i % 8]'(Nat.mod_lt i (by decide)))
  simp only [histGet]
  norm_num at h1 h2 ⊢
  omega

theorem histGet_mod (h : History) (i : Nat) : histGet h (i % 8) = histGet h i := by
  simp [histGet]

end Sys2Proof.Laws
end

