-- ==== Sys2Proof/Laws/State.lean ====
section
/-! SUPPORT. What each named update of the state leaves in each field. -/

namespace Sys2Proof.Laws

open Sys2Proof.Machine

/-! ### A result given to the host -/

@[simp] theorem reply_h (s : State) (v : Reply) : (s.reply v).h = s.h := rfl
@[simp] theorem reply_k (s : State) (v : Reply) : (s.reply v).k = s.k := rfl
@[simp] theorem reply_mem (s : State) (v : Reply) : (s.reply v).mem = s.mem := rfl
@[simp] theorem reply_cur (s : State) (v : Reply) : (s.reply v).cur = s.cur := rfl
@[simp] theorem reply_pib (s : State) (v : Reply) : (s.reply v).pib = s.pib := rfl
@[simp] theorem reply_pos (s : State) (v : Reply) : (s.reply v).pos = s.pos := rfl
@[simp] theorem reply_nloaded (s : State) (v : Reply) : (s.reply v).nloaded = s.nloaded := rfl
@[simp] theorem reply_prev (s : State) (v : Reply) : (s.reply v).prev = s.prev := rfl
@[simp] theorem reply_fault (s : State) (v : Reply) : (s.reply v).fault = s.fault := rfl
@[simp] theorem reply_inited (s : State) (v : Reply) : (s.reply v).inited = s.inited := rfl
@[simp] theorem reply_wsize (s : State) (v : Reply) : (s.reply v).wsize = s.wsize := rfl
@[simp] theorem reply_pcBatch (s : State) (v : Reply) : (s.reply v).pcBatch = s.pcBatch := rfl
@[simp] theorem reply_sdBatch (s : State) (v : Reply) : (s.reply v).sdBatch = s.sdBatch := rfl
@[simp] theorem reply_params (s : State) (v : Reply) : (s.reply v).params = s.params := rfl
@[simp] theorem reply_source (s : State) (v : Reply) : (s.reply v).source = s.source := rfl
@[simp] theorem reply_requests (s : State) (v : Reply) : (s.reply v).requests = s.requests := rfl
@[simp] theorem reply_out (s : State) (v : Reply) : (s.reply v).out = some v := rfl
@[simp] theorem reply_freeCtr (s : State) (v : Reply) : (s.reply v).freeCtr = s.freeCtr := rfl

/-! ### A fault taken (R140: nothing else is saved) -/

@[simp] theorem takeFault_h (s : State) (c : Cause) : (s.takeFault c).h = s.h := rfl
@[simp] theorem takeFault_k (s : State) (c : Cause) : (s.takeFault c).k = s.k := rfl
@[simp] theorem takeFault_mem (s : State) (c : Cause) : (s.takeFault c).mem = s.mem := rfl
@[simp] theorem takeFault_cur (s : State) (c : Cause) : (s.takeFault c).cur = s.cur := rfl
@[simp] theorem takeFault_pib (s : State) (c : Cause) : (s.takeFault c).pib = s.pib := rfl
@[simp] theorem takeFault_pos (s : State) (c : Cause) : (s.takeFault c).pos = s.pos := rfl
@[simp] theorem takeFault_nloaded (s : State) (c : Cause) : (s.takeFault c).nloaded = s.nloaded := rfl
@[simp] theorem takeFault_prev (s : State) (c : Cause) : (s.takeFault c).prev = s.prev := rfl
@[simp] theorem takeFault_fault (s : State) (c : Cause) : (s.takeFault c).fault = some c := rfl
@[simp] theorem takeFault_inited (s : State) (c : Cause) : (s.takeFault c).inited = s.inited := rfl
@[simp] theorem takeFault_wsize (s : State) (c : Cause) : (s.takeFault c).wsize = s.wsize := rfl
@[simp] theorem takeFault_pcBatch (s : State) (c : Cause) : (s.takeFault c).pcBatch = s.pcBatch := rfl
@[simp] theorem takeFault_sdBatch (s : State) (c : Cause) : (s.takeFault c).sdBatch = s.sdBatch := rfl
@[simp] theorem takeFault_params (s : State) (c : Cause) : (s.takeFault c).params = s.params := rfl
@[simp] theorem takeFault_source (s : State) (c : Cause) : (s.takeFault c).source = s.source := rfl
@[simp] theorem takeFault_requests (s : State) (c : Cause) : (s.takeFault c).requests = s.requests := rfl
@[simp] theorem takeFault_out (s : State) (c : Cause) : (s.takeFault c).out = some (.fault c) := rfl
@[simp] theorem takeFault_freeCtr (s : State) (c : Cause) : (s.takeFault c).freeCtr = s.freeCtr := rfl

/-! ### The registers at reset (R151) -/

@[simp] theorem resetRegs_h (s : State) : (resetRegs s).h = Vector.replicate 8 0 := rfl
@[simp] theorem resetRegs_k (s : State) : (resetRegs s).k = 0 := rfl
@[simp] theorem resetRegs_mem (s : State) : (resetRegs s).mem = ⟨[], []⟩ := rfl
@[simp] theorem resetRegs_cur (s : State) : (resetRegs s).cur = 0 := rfl
@[simp] theorem resetRegs_pib (s : State) : (resetRegs s).pib = 0 := rfl
@[simp] theorem resetRegs_pos (s : State) : (resetRegs s).pos = 0 := rfl
@[simp] theorem resetRegs_nloaded (s : State) : (resetRegs s).nloaded = 0 := rfl
@[simp] theorem resetRegs_prev (s : State) : (resetRegs s).prev = 0 := rfl
@[simp] theorem resetRegs_fault (s : State) :
    (resetRegs s).fault = if batchIllegal s.params then some .batchSize else none := rfl
@[simp] theorem resetRegs_inited (s : State) : (resetRegs s).inited = false := rfl
@[simp] theorem resetRegs_wsize (s : State) : (resetRegs s).wsize = s.params.wsize := rfl
@[simp] theorem resetRegs_pcBatch (s : State) : (resetRegs s).pcBatch = s.params.pcBatch := rfl
@[simp] theorem resetRegs_sdBatch (s : State) : (resetRegs s).sdBatch = s.params.sdBatch := rfl
@[simp] theorem resetRegs_params (s : State) : (resetRegs s).params = s.params := rfl
@[simp] theorem resetRegs_source (s : State) : (resetRegs s).source = s.source := rfl
@[simp] theorem resetRegs_requests (s : State) : (resetRegs s).requests = s.requests := rfl
@[simp] theorem resetRegs_out (s : State) : (resetRegs s).out = s.out := rfl
@[simp] theorem resetRegs_freeCtr (s : State) : (resetRegs s).freeCtr = s.freeCtr := rfl

/-! ### The registers after one sample (R80) -/

@[simp] theorem advRegs_pos (s : State) : (advRegs s).pos = s.pos + 1 := by
  unfold advRegs
  split <;> rfl

theorem advRegs_pib (s : State) : (advRegs s).pib = if s.pib.toNat + 1 = 65536 then 0 else s.pib + 1 := by
  unfold advRegs
  split <;> rfl

theorem advRegs_cur (s : State) : (advRegs s).cur = if s.pib.toNat + 1 = 65536 then 1 - s.cur else s.cur := by
  unfold advRegs
  split <;> rfl

@[simp] theorem advRegs_h (s : State) : (advRegs s).h = s.h := by
  unfold advRegs
  split <;> rfl

@[simp] theorem advRegs_k (s : State) : (advRegs s).k = s.k := by
  unfold advRegs
  split <;> rfl

@[simp] theorem advRegs_mem (s : State) : (advRegs s).mem = s.mem := by
  unfold advRegs
  split <;> rfl

@[simp] theorem advRegs_nloaded (s : State) : (advRegs s).nloaded = s.nloaded := by
  unfold advRegs
  split <;> rfl

@[simp] theorem advRegs_prev (s : State) : (advRegs s).prev = s.prev := by
  unfold advRegs
  split <;> rfl

@[simp] theorem advRegs_fault (s : State) : (advRegs s).fault = s.fault := by
  unfold advRegs
  split <;> rfl

@[simp] theorem advRegs_inited (s : State) : (advRegs s).inited = s.inited := by
  unfold advRegs
  split <;> rfl

@[simp] theorem advRegs_wsize (s : State) : (advRegs s).wsize = s.wsize := by
  unfold advRegs
  split <;> rfl

@[simp] theorem advRegs_pcBatch (s : State) : (advRegs s).pcBatch = s.pcBatch := by
  unfold advRegs
  split <;> rfl

@[simp] theorem advRegs_sdBatch (s : State) : (advRegs s).sdBatch = s.sdBatch := by
  unfold advRegs
  split <;> rfl

@[simp] theorem advRegs_params (s : State) : (advRegs s).params = s.params := by
  unfold advRegs
  split <;> rfl

@[simp] theorem advRegs_source (s : State) : (advRegs s).source = s.source := by
  unfold advRegs
  split <;> rfl

@[simp] theorem advRegs_requests (s : State) : (advRegs s).requests = s.requests := by
  unfold advRegs
  split <;> rfl

@[simp] theorem advRegs_out (s : State) : (advRegs s).out = s.out := by
  unfold advRegs
  split <;> rfl

@[simp] theorem advRegs_freeCtr (s : State) : (advRegs s).freeCtr = s.freeCtr := by
  unfold advRegs
  split <;> rfl

end Sys2Proof.Laws
end

