-- ==== Sys2Proof/Laws/Ops.lean ====
section
/-! SUPPORT. What the shared operations can do, once: the endings of a rule, the tests before an operation, and the byte
stream. -/

namespace Sys2Proof.Laws

open Sys2Proof.Machine

variable {α β γ : Type}

/-! ### Going on after a rule -/

@[simp] theorem andThen_of_ok (a : α) (s : State) (f : α → State → Res β) : andThen (.ok a s) f = f a s := rfl

@[simp] theorem andThen_of_raised (c : Cause) (s : State) (f : α → State → Res β) :
    andThen (.raised c s) f = .raised c s := rfl

@[simp] theorem andThen_of_refused (x : Refusal) (f : α → State → Res β) : andThen (.refused x) f = .refused x := rfl

@[simp] theorem andThen_of_stuck (x : Fault) (f : α → State → Res β) : andThen (.stuck x) f = .stuck x := rfl

theorem andThen_eq_ok {r : Res α} {f : α → State → Res β} {b : β} {t : State} :
    andThen r f = .ok b t ↔ ∃ a s, r = .ok a s ∧ f a s = .ok b t := by
  cases r <;> simp

theorem andThen_eq_raised {r : Res α} {f : α → State → Res β} {c : Cause} {t : State} :
    andThen r f = .raised c t ↔ r = .raised c t ∨ ∃ a s, r = .ok a s ∧ f a s = .raised c t := by
  cases r <;> simp

theorem andThen_eq_refused {r : Res α} {f : α → State → Res β} {x : Refusal} :
    andThen r f = .refused x ↔ r = .refused x ∨ ∃ a s, r = .ok a s ∧ f a s = .refused x := by
  cases r <;> simp

theorem andThen_eq_stuck {r : Res α} {f : α → State → Res β} {x : Fault} :
    andThen r f = .stuck x ↔ r = .stuck x ∨ ∃ a s, r = .ok a s ∧ f a s = .stuck x := by
  cases r <;> simp

theorem andThen_assoc (r : Res α) (f : α → State → Res β) (g : β → State → Res γ) :
    andThen (andThen r f) g = andThen r fun a s => andThen (f a s) g := by
  cases r <;> rfl

/-! ### The end of the outermost operation -/

@[simp] theorem deliver_of_ok (a : α) (s : State) (f : α → Reply) : deliver (.ok a s) f = .next (s.reply (f a)) := rfl

@[simp] theorem deliver_of_raised (c : Cause) (s : State) (f : α → Reply) :
    deliver (.raised c s) f = .next (s.takeFault c) := rfl

@[simp] theorem deliver_of_refused (x : Refusal) (f : α → Reply) : deliver (.refused x) f = .refused x := rfl

@[simp] theorem deliver_of_stuck (x : Fault) (f : α → Reply) : deliver (.stuck x) f = .fault x := rfl

theorem deliver_eq_next {r : Res α} {f : α → Reply} {t : State} :
    deliver r f = .next t ↔
      (∃ a s, r = .ok a s ∧ t = s.reply (f a)) ∨ ∃ c s, r = .raised c s ∧ t = s.takeFault c := by
  cases r <;> simp [eq_comm]

theorem deliver_eq_refused {r : Res α} {f : α → Reply} {x : Refusal} : deliver r f = .refused x ↔ r = .refused x := by
  cases r <;> simp

theorem deliver_eq_fault {r : Res α} {f : α → Reply} {x : Fault} : deliver r f = .fault x ↔ r = .stuck x := by
  cases r <;> simp

/-! ### The tests before an operation -/

theorem guarded_of_none {s : State} (h : s.fault = none) (body : Host.Outcome State Fault Refusal) :
    guarded s body = body := by
  simp [guarded, h]

theorem guarded_of_fault {s : State} (h : s.fault ≠ none) (body : Host.Outcome State Fault Refusal) :
    guarded s body = .refused .faultLatched := by
  simp [guarded, h]

theorem guarded_eq_next {s t : State} {body : Host.Outcome State Fault Refusal} :
    guarded s body = .next t ↔ s.fault = none ∧ body = .next t := by
  by_cases h : s.fault = none <;> simp [guarded, h]

theorem guardedInit_of {s : State} (h : s.fault = none) (hi : s.inited = true)
    (body : Host.Outcome State Fault Refusal) : guardedInit s body = body := by
  simp [guardedInit, guarded, h, hi]

theorem guardedInit_of_not_inited {s : State} (h : s.fault = none) (hi : s.inited = false)
    (body : Host.Outcome State Fault Refusal) : guardedInit s body = .refused .notInitialised := by
  simp [guardedInit, guarded, h, hi]

theorem guardedInit_eq_next {s t : State} {body : Host.Outcome State Fault Refusal} :
    guardedInit s body = .next t ↔ s.fault = none ∧ s.inited = true ∧ body = .next t := by
  by_cases h : s.fault = none <;> by_cases hi : s.inited <;> simp [guardedInit, guarded, h, hi]

theorem stateless_of_none {s : State} (h : s.fault = none) (v : Reply) : stateless s v = .next (s.reply v) :=
  guarded_of_none h _

theorem stateless_eq_next {s t : State} {v : Reply} :
    stateless s v = .next t ↔ s.fault = none ∧ t = s.reply v := by
  rw [stateless, guarded_eq_next, Host.Outcome.next.injEq, eq_comm (a := t)]

/-! ### The byte stream -/

/-- A read that ends with bytes gives `n` of them at most, and takes at least as many events off the source. -/
theorem readSource_length {n : Nat} {src rest : List SourceEvent} {b : List Byte}
    (h : readSource n src = .bytes b rest) : b.length ≤ n ∧ b.length + rest.length ≤ src.length := by
  induction n, src using readSource.induct generalizing b with
  | case1 src => simp_all [readSource]
  | case2 n => simp_all [readSource]
  | case3 n r => simp_all [readSource]
  | case4 n r => simp_all [readSource]
  | case5 n r => simp_all [readSource]
  | case6 n x r bs rest' hr ih =>
    simp only [readSource, hr, ReadResult.bytes.injEq] at h
    obtain ⟨rfl, rfl⟩ := h
    have := ih hr
    simp only [List.length_cons]
    omega
  | case7 n x r hr => simp [readSource, hr] at h
  | case8 n x r hr => simp [readSource, hr] at h

/-- On a source that holds bytes alone, a read gives the first `n` and leaves the rest (R31). -/
theorem readSource_bytes (n : Nat) (b : List Byte) :
    readSource n (b.map .byte) = .bytes (b.take n) ((b.drop n).map .byte) := by
  induction n generalizing b with
  | zero => rfl
  | succ n ih =>
    cases b with
    | nil => rfl
    | cons x r => simp [readSource, ih]

theorem streamRead_eq_ok {n : Nat} {s t : State} {b : List Byte} :
    streamRead n s = .ok b t ↔ ∃ rest, readSource n s.source = .bytes b rest ∧ t = { s with source := rest } := by
  unfold streamRead
  cases readSource n s.source <;> simp [eq_comm]

theorem streamRead_eq_raised {n : Nat} {s t : State} {c : Cause} :
    streamRead n s = .raised c t ↔
      readSource n s.source = .error ∧ c = .ioError ∧
        t = { s with source := s.source.drop (Config.streamLost s.freeCtr), freeCtr := s.freeCtr + 1 } := by
  unfold streamRead
  cases readSource n s.source <;> simp [eq_comm]

theorem streamRead_ne_refused {n : Nat} {s : State} {x : Refusal} : streamRead n s ≠ .refused x := by
  unfold streamRead
  cases readSource n s.source <;> simp

theorem streamRead_eq_stuck {n : Nat} {s : State} {x : Fault} :
    streamRead n s = .stuck x ↔ readSource n s.source = .blocks ∧ x = .neverReturns := by
  unfold streamRead
  cases readSource n s.source <;> simp [eq_comm]

/-! ### Counters -/

theorem posInRange_iff {p : Nat} : posInRange p = true ↔ p * 100 < 2 ^ 63 := by
  rw [posInRange, decide_eq_true_iff, tsScale]
  omega

end Sys2Proof.Laws
end

