-- ==== Sys2Proof/Laws/Chain.lean ====
section
/-! SUPPORT. What units SD and PC can do: the samples of a byte list, the pairs, and the endings of `SD.READ` and
`PC.READ`. -/

namespace Sys2Proof.Laws

open Sys2Proof.Machine

/-! ### Samples -/

theorem sampleWord_eq (lo hi : Byte) : sampleWord lo hi = hi.toNat * 256 + lo.toNat := by
  have := Nat.shiftLeft_add_eq_or_of_lt (b := lo.toNat) (i := 8) (by omega) hi.toNat
  simp only [sampleWord]
  rw [← this, Nat.shiftLeft_eq]

theorem samplesOf_cons (lo hi : Byte) (r : List Byte) :
    samplesOf (lo :: hi :: r) =
      if sampleWord lo hi ≤ 4095 then (samplesOf r).map fun s => ((sampleWord lo hi : Int) - bias) :: s else none := rfl

theorem samplesOf_length {b : List Byte} {xs : List Int} (h : samplesOf b = some xs) : xs.length = b.length / 2 := by
  induction b using samplesOf.induct generalizing xs with
  | case1 lo hi r hw ih =>
    rw [samplesOf_cons, if_pos hw] at h
    obtain ⟨ys, hy, rfl⟩ := Option.map_eq_some_iff.1 h
    have := ih hy
    simp only [List.length_cons]
    omega
  | case2 lo hi r hw => simp [samplesOf_cons, hw] at h
  | case3 b hb =>
    match b, hb with
    | [], _ => simp_all [samplesOf]
    | [x], _ => simp_all [samplesOf]
    | x :: y :: r, hb => exact (hb x y r rfl).elim

/-- R64: a decoded sample is a 12-bit signed value. -/
theorem samplesOf_bounds {b : List Byte} {xs : List Int} (h : samplesOf b = some xs) :
    ∀ x ∈ xs, -2048 ≤ x ∧ x ≤ 2047 := by
  induction b using samplesOf.induct generalizing xs with
  | case1 lo hi r hw ih =>
    rw [samplesOf_cons, if_pos hw] at h
    obtain ⟨ys, hy, rfl⟩ := Option.map_eq_some_iff.1 h
    intro x hx
    rcases List.mem_cons.1 hx with rfl | hx
    · simp only [bias]
      omega
    · exact ih hy x hx
  | case2 lo hi r hw => simp [samplesOf_cons, hw] at h
  | case3 b hb =>
    match b, hb with
    | [], _ => simp_all [samplesOf]
    | [x], _ => simp_all [samplesOf]
    | x :: y :: r, hb => exact (hb x y r rfl).elim

/-- R33: a word above 4095 among the decoded ones makes the list ill-formed. -/
theorem samplesOf_eq_none {b : List Byte} {j : Nat} (hj : 2 * j + 1 < b.length)
    (h : 16 ≤ (b.getD (2 * j + 1) 0).toNat) : samplesOf b = none := by
  induction b using samplesOf.induct generalizing j with
  | case1 lo hi r hw ih =>
    rw [samplesOf_cons, if_pos hw]
    rw [sampleWord_eq] at hw
    cases j with
    | zero =>
      simp only [Nat.mul_zero, Nat.zero_add, List.getD_cons_succ, List.getD_cons_zero] at h
      omega
    | succ j =>
      simp only [List.length_cons] at hj
      rw [ih (j := j) (by omega) (by simpa [Nat.mul_succ] using h)]
      rfl
  | case2 lo hi r hw => simp [samplesOf_cons, hw]
  | case3 b hb =>
    match b, hb with
    | [], _ => simp at hj
    | [x], _ => simp at hj
    | x :: y :: r, hb => exact (hb x y r rfl).elim

/-! ### Pairs -/

theorem pairSteps_cons (h : History) (k : BitVec 3) (a b : Int) (r : List Int) :
    pairSteps h k (a :: b :: r) =
      ((pairSteps (histPair h k a b) (k + 2) r).1, (pairSteps (histPair h k a b) (k + 2) r).2.1,
        BitVec.ofInt 28 (powerAt (histPair h k a b) (k + 2).toNat) :: (pairSteps (histPair h k a b) (k + 2) r).2.2) := rfl

/-- R68: a batch of `c` samples gives `⌊c / 2⌋` power samples. -/
theorem pairSteps_length (h : History) (k : BitVec 3) (xs : List Int) :
    (pairSteps h k xs).2.2.length = xs.length / 2 := by
  induction h, k, xs using pairSteps.induct with
  | case1 h k a b r h1 k1 ih =>
    rw [pairSteps_cons]
    simp only [List.length_cons]
    change (pairSteps (histPair h k a b) (k + 2) r).2.2.length = _ at ih
    omega
  | case2 xs h k hx =>
    match xs, hx with
    | [], _ => simp [pairSteps]
    | [x], _ => simp [pairSteps]
    | x :: y :: r, hx => exact (hx x y r rfl).elim

/-- R69: batch boundaries do not show. -/
theorem pairSteps_append (h : History) (k : BitVec 3) (xs ys : List Int) (hx : xs.length % 2 = 0) :
    pairSteps h k (xs ++ ys) =
      ((pairSteps (pairSteps h k xs).1 (pairSteps h k xs).2.1 ys).1,
        (pairSteps (pairSteps h k xs).1 (pairSteps h k xs).2.1 ys).2.1,
        (pairSteps h k xs).2.2 ++ (pairSteps (pairSteps h k xs).1 (pairSteps h k xs).2.1 ys).2.2) := by
  induction h, k, xs using pairSteps.induct with
  | case1 h k a b r h1 k1 ih =>
    have hr : r.length % 2 = 0 := by
      simp only [List.length_cons] at hx
      omega
    have e := ih hr
    change pairSteps (histPair h k a b) (k + 2) (r ++ ys) = _ at e
    simp only [List.cons_append, pairSteps_cons, e]
    rfl
  | case2 xs h k hxs =>
    match xs, hxs with
    | [], _ => rfl
    | [x], _ => simp at hx
    | x :: y :: r, hxs => exact (hxs x y r rfl).elim

/-- `K` stays even (R27). -/
theorem pairSteps_even {h : History} {k : BitVec 3} {xs : List Int} (hk : k.toNat % 2 = 0) :
    (pairSteps h k xs).2.1.toNat % 2 = 0 := by
  induction h, k, xs using pairSteps.induct with
  | case1 h k a b r h1 k1 ih =>
    refine ih ?_
    change (k + 2).toNat % 2 = 0
    rw [BitVec.toNat_add]
    simp
    omega
  | case2 xs h k hxs =>
    match xs, hxs with
    | [], _ => exact hk
    | [x], _ => exact hk
    | x :: y :: r, hxs => exact (hxs x y r rfl).elim

/-- R29: a power sample is at most 134 152 200, over any history. -/
theorem powerAt_bounds (h : History) (i : Nat) : 0 ≤ powerAt h i ∧ powerAt h i ≤ 134152200 := by
  have b := histGet_bounds h
  have hI : -8190 ≤ sumI h i ∧ sumI h i ≤ 8190 := by
    have := b (i + 1)
    have := b (i + 3)
    have := b (i + 5)
    have := b (i + 7)
    simp only [sumI]
    omega
  have hQ : -8190 ≤ sumQ h i ∧ sumQ h i ≤ 8190 := by
    have := b i
    have := b (i + 2)
    have := b (i + 4)
    have := b (i + 6)
    simp only [sumQ]
    omega
  simp only [powerAt]
  constructor
  · nlinarith [mul_self_nonneg (sumI h i), mul_self_nonneg (sumQ h i)]
  · nlinarith [hI.1, hI.2, hQ.1, hQ.2]

theorem powerBits_toNat (h : History) (i : Nat) : ((BitVec.ofInt 28 (powerAt h i)).toNat : Int) = powerAt h i := by
  have := powerAt_bounds h i
  rw [BitVec.toNat_ofInt]
  omega

theorem pairSteps_bound (h : History) (k : BitVec 3) (xs : List Int) :
    ∀ p ∈ (pairSteps h k xs).2.2, p.toNat ≤ 134152200 := by
  induction h, k, xs using pairSteps.induct with
  | case1 h k a b r h1 k1 ih =>
    rw [pairSteps_cons]
    intro p hp
    rcases List.mem_cons.1 hp with rfl | hp
    · have e := powerBits_toNat (histPair h k a b) (k + 2).toNat
      have := powerAt_bounds (histPair h k a b) (k + 2).toNat
      omega
    · exact ih p hp
  | case2 xs h k hxs =>
    match xs, hxs with
    | [], _ => simp [pairSteps]
    | [x], _ => simp [pairSteps]
    | x :: y :: r, hxs => exact (hxs x y r rfl).elim

/-! ### `SD.READ` -/

theorem sdRead_eq_ok {n : Int} {s t : State} {xs : List Int} :
    sdRead n s = .ok xs t ↔
      n = s.sdBatch ∧ ∃ b rest, readSource (2 * s.sdBatch).toNat s.source = .bytes b rest ∧ samplesOf b = some xs ∧
        t = { s with source := rest } := by
  unfold sdRead
  by_cases hn : n = s.sdBatch
  · rw [if_neg (by simpa using hn), andThen_eq_ok]
    simp only [streamRead_eq_ok, hn, true_and]
    constructor
    · rintro ⟨b, u, ⟨rest, hr, rfl⟩, hu⟩
      cases hs : samplesOf b with
      | none => simp [hs] at hu
      | some ys =>
        simp only [hs, Res.ok.injEq] at hu
        exact ⟨b, rest, hr, by rw [hs, hu.1], hu.2.symm⟩
    · rintro ⟨b, rest, hr, hs, rfl⟩
      exact ⟨b, _, ⟨rest, hr, rfl⟩, by simp [hs]⟩
  · simp [hn]

theorem sdRead_eq_raised {n : Int} {s t : State} {c : Cause} :
    sdRead n s = .raised c t ↔
      (n ≠ s.sdBatch ∧ c = .bufferSize ∧ t = s) ∨
        (n = s.sdBatch ∧ readSource (2 * s.sdBatch).toNat s.source = .error ∧ c = .ioError ∧
          t = { s with source := s.source.drop (Config.streamLost s.freeCtr), freeCtr := s.freeCtr + 1 }) := by
  unfold sdRead
  by_cases hn : n = s.sdBatch
  · rw [if_neg (by simpa using hn), andThen_eq_raised, streamRead_eq_raised]
    simp only [hn, ne_eq, not_true, false_and, false_or, true_and]
    constructor
    · rintro (h | ⟨b, u, -, hu⟩)
      · exact h
      · cases hs : samplesOf b <;> simp [hs] at hu
    · exact .inl
  · simp [hn, eq_comm]

/-! ### `PC.READ` -/

theorem pcRead_eq_ok {n : Int} {s t : State} {ps : List Power} :
    pcRead n s = .ok ps t ↔
      n = s.pcBatch ∧ 2 * s.pcBatch = s.sdBatch ∧
        ∃ b rest xs, readSource (2 * s.sdBatch).toNat s.source = .bytes b rest ∧ samplesOf b = some xs ∧
          ps = (pairSteps s.h s.k xs).2.2 ∧
          t = { s with source := rest, h := (pairSteps s.h s.k xs).1, k := (pairSteps s.h s.k xs).2.1 } := by
  unfold pcRead
  by_cases hn : n = s.pcBatch
  · rw [if_neg (by simpa using hn), andThen_eq_ok]
    simp only [sdRead_eq_ok, hn, true_and]
    constructor
    · rintro ⟨xs, u, ⟨he, b, rest, hr, hs, rfl⟩, hu⟩
      simp only [Res.ok.injEq] at hu
      exact ⟨he, b, rest, xs, hr, hs, hu.1.symm, hu.2.symm⟩
    · rintro ⟨he, b, rest, xs, hr, hs, rfl, rfl⟩
      exact ⟨xs, _, ⟨he, b, rest, hr, hs, rfl⟩, rfl⟩
  · simp [hn]

theorem pcRead_eq_raised {n : Int} {s t : State} {c : Cause} :
    pcRead n s = .raised c t ↔
      ((n ≠ s.pcBatch ∨ 2 * s.pcBatch ≠ s.sdBatch) ∧ c = .bufferSize ∧ t = s) ∨
        (n = s.pcBatch ∧ 2 * s.pcBatch = s.sdBatch ∧ readSource (2 * s.sdBatch).toNat s.source = .error ∧
          c = .ioError ∧
          t = { s with source := s.source.drop (Config.streamLost s.freeCtr), freeCtr := s.freeCtr + 1 }) := by
  unfold pcRead
  by_cases hn : n = s.pcBatch
  · rw [if_neg (by simpa using hn), andThen_eq_raised, sdRead_eq_raised]
    simp only [hn, ne_eq, not_true, false_or, true_and]
    constructor
    · rintro (h | ⟨b, u, -, hu⟩)
      · exact h
      · simp at hu
    · exact .inl
  · simp [hn, eq_comm]

/-- A batch of power samples, and the events left, are no more than the events there were. -/
theorem pcRead_length {n : Int} {s t : State} {ps : List Power} (h : pcRead n s = .ok ps t) :
    ps.length + t.source.length ≤ s.source.length ∧ (ps.length : Int) ≤ max n 0 := by
  obtain ⟨hn, he, b, rest, xs, hr, hs, rfl, rfl⟩ := pcRead_eq_ok.1 h
  have h1 := readSource_length hr
  have h2 := samplesOf_length hs
  rw [pairSteps_length]
  dsimp only
  omega

/-- R33: a read whose bytes hold a word above 4095 is refused. -/
theorem sdRead_eq_refused {n : Int} {s : State} {x : Refusal} :
    sdRead n s = .refused x ↔
      n = s.sdBatch ∧ x = .illFormedStream ∧
        ∃ b rest, readSource (2 * s.sdBatch).toNat s.source = .bytes b rest ∧ samplesOf b = none := by
  unfold sdRead
  by_cases hn : n = s.sdBatch
  · rw [if_neg (by simpa using hn)]
    unfold streamRead
    cases readSource (2 * s.sdBatch).toNat s.source with
    | bytes b rest => cases hb : samplesOf b <;> simp [hn, hb, eq_comm]
    | error => simp
    | blocks => simp
  · simp [hn]

/-- R145: a read that never returns. -/
theorem sdRead_eq_stuck {n : Int} {s : State} {x : Fault} :
    sdRead n s = .stuck x ↔
      n = s.sdBatch ∧ x = .neverReturns ∧ readSource (2 * s.sdBatch).toNat s.source = .blocks := by
  unfold sdRead
  by_cases hn : n = s.sdBatch
  · rw [if_neg (by simpa using hn)]
    unfold streamRead
    cases readSource (2 * s.sdBatch).toNat s.source with
    | bytes b rest => cases hb : samplesOf b <;> simp [hb]
    | error => simp
    | blocks => simp [hn]
  · simp [hn]

theorem pcRead_eq_refused {n : Int} {s : State} {x : Refusal} :
    pcRead n s = .refused x ↔ n = s.pcBatch ∧ sdRead (2 * s.pcBatch) s = .refused x := by
  unfold pcRead
  by_cases hn : n = s.pcBatch
  · rw [if_neg (by simpa using hn), andThen_eq_refused]
    simp [hn]
  · simp [hn]

theorem pcRead_eq_stuck {n : Int} {s : State} {x : Fault} :
    pcRead n s = .stuck x ↔ n = s.pcBatch ∧ sdRead (2 * s.pcBatch) s = .stuck x := by
  unfold pcRead
  by_cases hn : n = s.pcBatch
  · rw [if_neg (by simpa using hn), andThen_eq_stuck]
    simp [hn]
  · simp [hn]

end Sys2Proof.Laws
end

