-- ==== Sys2Proof/Laws/Decode.lean ====
section
/-! SUPPORT. Each operand reader undoes its writer, and takes bytes off the front. -/

namespace Sys2Proof.Laws

/-! ### Numbers as bytes -/

@[simp] theorem leBytes_length (n v : Nat) : (leBytes n v).length = n := by
  induction n generalizing v with
  | zero => rfl
  | succ n ih => simp [leBytes, ih]

@[simp] theorem beBytes_length (n v : Nat) : (beBytes n v).length = n := by
  simp [beBytes]

theorem leValue_leBytes (n v : Nat) : leValue (leBytes n v) = v % 256 ^ n := by
  induction n generalizing v with
  | zero => simp [leBytes, leValue, Nat.mod_one]
  | succ n ih =>
    simp only [leBytes, leValue, ih, BitVec.toNat_ofNat]
    have h := Nat.mod_mul (x := v) (a := 256) (b := 256 ^ n)
    rw [pow_succ' 256 n, h]

theorem leValue_lt (b : List Byte) : leValue b < 256 ^ b.length := by
  induction b with
  | nil => simp [leValue]
  | cons x r ih =>
    have := x.isLt
    simp only [leValue, List.length_cons, pow_succ]
    omega

/-! ### Readers after writers -/

theorem takeBytes_append {n : Nat} {b : List Byte} (h : b.length = n) (r : List Byte) :
    takeBytes n (b ++ r) = .ok (b, r) := by
  induction b generalizing n with
  | nil =>
    obtain rfl : n = 0 := by simpa using h.symm
    rfl
  | cons x b ih =>
    obtain ⟨m, rfl⟩ : ∃ m, n = m + 1 := ⟨b.length, by simpa using h.symm⟩
    simp [takeBytes, ih (by simpa using h)]

theorem takeNat_leBytes {n v : Nat} (h : v < 256 ^ n) (r : List Byte) : takeNat n (leBytes n v ++ r) = .ok (v, r) := by
  simp [takeNat, takeBytes_append, leValue_leBytes, Nat.mod_eq_of_lt h]

theorem takeInt_intBytes {i : Int} (h : intOk i = true) (r : List Byte) : takeInt (intBytes i ++ r) = .ok (i, r) := by
  have hb : (BitVec.ofInt 64 i).toNat < 256 ^ 8 := (BitVec.ofInt 64 i).isLt
  simp only [intOk, Bool.and_eq_true, decide_eq_true_eq] at h
  simp only [takeInt, intBytes, takeNat_leBytes hb, BitVec.ofNat_toNat, BitVec.setWidth_eq, BitVec.toInt_ofInt]
  rw [Int.bmod_eq_of_le] <;> omega

theorem takeBits_leBytes {n w : Nat} (v : BitVec w) (h : 2 ^ w ≤ 256 ^ n) (r : List Byte) :
    takeBits n w (leBytes n v.toNat ++ r) = .ok (v, r) := by
  simp [takeBits, takeNat_leBytes (v.isLt.trans_le h), v.isLt]

theorem takeFrame_toList (f : Frame) (r : List Byte) : takeFrame (f.toList ++ r) = .ok (f, r) := by
  obtain ⟨⟨l⟩, h⟩ := f
  simp only [List.size_toArray] at h
  match l, h with
  | [f0, f1, f2, f3, f4, f5, f6, f7, f8, f9, f10, f11, f12, f13], _ => rfl

theorem takePayload_beBytes (me : Payload) (r : List Byte) : takePayload (beBytes 7 me.toNat ++ r) = .ok (me, r) := by
  have h : me.toNat < 256 ^ 7 := me.isLt
  rw [takePayload, takeBytes_append (by simp)]
  simp only [beBytes, List.reverse_reverse, leValue_leBytes, Nat.mod_eq_of_lt h, BitVec.ofNat_toNat, BitVec.setWidth_eq]

theorem takeList_listBytes {b : List Byte} (h : lengthOk b.length = true) (r : List Byte) :
    takeList (listBytes b ++ r) = .ok (b, r) := by
  simp only [lengthOk, decide_eq_true_eq] at h
  rw [takeList, listBytes, List.append_assoc, takeNat_leBytes (by omega)]
  exact takeBytes_append rfl r

/-! ### What a reader takes -/

theorem takeBytes_length {n : Nat} {r r' b : List Byte} (h : takeBytes n r = .ok (b, r')) :
    b.length = n ∧ r = b ++ r' := by
  induction n generalizing r b with
  | zero =>
    simp only [takeBytes, Except.ok.injEq, Prod.mk.injEq] at h
    obtain ⟨rfl, rfl⟩ := h
    exact ⟨rfl, rfl⟩
  | succ n ih =>
    cases r with
    | nil => simp [takeBytes] at h
    | cons x r =>
      rw [takeBytes] at h
      split at h
      · next bs r'' hb =>
        simp only [Except.ok.injEq, Prod.mk.injEq] at h
        obtain ⟨rfl, rfl⟩ := h
        obtain ⟨h1, h2⟩ := ih hb
        exact ⟨by simp [h1], by simp [h2]⟩
      · simp at h

theorem takeNat_length {n v : Nat} {r r' : List Byte} (h : takeNat n r = .ok (v, r')) :
    v < 256 ^ n ∧ r'.length ≤ r.length := by
  rw [takeNat] at h
  split at h
  · next bs r'' hb =>
    simp only [Except.ok.injEq, Prod.mk.injEq] at h
    obtain ⟨rfl, rfl⟩ := h
    obtain ⟨h1, h2⟩ := takeBytes_length hb
    have := leValue_lt bs
    rw [h1] at this
    exact ⟨this, by simp [h2]⟩
  · simp at h

theorem takeInt_length {i : Int} {r r' : List Byte} (h : takeInt r = .ok (i, r')) :
    intOk i = true ∧ r'.length ≤ r.length := by
  rw [takeInt] at h
  split at h
  · next v r'' hv =>
    simp only [Except.ok.injEq, Prod.mk.injEq] at h
    obtain ⟨rfl, rfl⟩ := h
    have h1 := BitVec.toInt_lt (x := BitVec.ofNat 64 v)
    have h2 := BitVec.le_toInt (x := BitVec.ofNat 64 v)
    norm_num at h1 h2
    exact ⟨by simp only [intOk, Bool.and_eq_true, decide_eq_true_eq]; omega, (takeNat_length hv).2⟩
  · simp at h

theorem takeBits_length {n w : Nat} {v : BitVec w} {r r' : List Byte} (h : takeBits n w r = .ok (v, r')) :
    r'.length ≤ r.length := by
  rw [takeBits] at h
  split at h
  · next u r'' hu =>
    split_ifs at h
    simp only [Except.ok.injEq, Prod.mk.injEq] at h
    obtain ⟨-, rfl⟩ := h
    exact (takeNat_length hu).2
  · simp at h

theorem takeFrame_length {f : Frame} {r r' : List Byte} (h : takeFrame r = .ok (f, r')) : r'.length ≤ r.length := by
  unfold takeFrame at h
  split at h
  · simp only [Except.ok.injEq, Prod.mk.injEq] at h
    obtain ⟨-, rfl⟩ := h
    simp only [List.length_cons]
    omega
  · simp at h

theorem takePayload_length {me : Payload} {r r' : List Byte} (h : takePayload r = .ok (me, r')) :
    r'.length ≤ r.length := by
  rw [takePayload] at h
  split at h
  · next bs r'' hb =>
    simp only [Except.ok.injEq, Prod.mk.injEq] at h
    obtain ⟨-, rfl⟩ := h
    simp [(takeBytes_length hb).2]
  · simp at h

theorem takeList_length {b r r' : List Byte} (h : takeList r = .ok (b, r')) :
    lengthOk b.length = true ∧ r'.length ≤ r.length := by
  rw [takeList] at h
  split at h
  · next n r'' hn =>
    obtain ⟨h1, h2⟩ := takeNat_length hn
    obtain ⟨h3, h4⟩ := takeBytes_length h
    subst h3
    refine ⟨by simpa [lengthOk] using h1, ?_⟩
    rw [h4, List.length_append] at h2
    omega
  · simp at h

end Sys2Proof.Laws
end

