-- ==== Sys2Proof/Laws/Window.lean ====
section
/-! SUPPORT. What unit PW can do: the refill, one advance, `n` advances. -/

namespace Sys2Proof.Laws

open Sys2Proof.Machine

/-! ### The refill -/

theorem refill_eq_ok {b : Fin 2} {s t : State} {m : Nat} :
    refill b s = .ok m t ↔
      ∃ ps s1, pcRead batch s = .ok ps s1 ∧ m = ps.length ∧ t = { s1 with mem := memFill s1.mem b ps } := by
  unfold refill
  rw [andThen_eq_ok]
  simp [readCount, eq_comm]

theorem refill_eq_raised {b : Fin 2} {s t : State} {c : Cause} :
    refill b s = .raised c t ↔ pcRead batch s = .raised c t := by
  unfold refill
  rw [andThen_eq_raised]
  simp

theorem advRefill_eq_ok {s t : State} :
    advRefill s = .ok () t ↔
      ((s.pib.toNat : Int) + s.wsize ≠ 65536 ∧ t = s) ∨
        ((s.pib.toNat : Int) + s.wsize = 65536 ∧ ∃ ps s1, pcRead batch s = .ok ps s1 ∧
          s1.nloaded.toNat + ps.length < 2 ^ 64 ∧
          t = { s1 with mem := memFill s1.mem (1 - s.cur) ps, nloaded := s1.nloaded + BitVec.ofNat 64 ps.length }) := by
  unfold advRefill
  by_cases h : (s.pib.toNat : Int) + s.wsize = 65536
  · rw [if_pos (by omega), andThen_eq_ok]
    simp only [refill_eq_ok, h, ne_eq, not_true, false_and, false_or, true_and]
    constructor
    · rintro ⟨m, u, ⟨ps, s1, hp, rfl, rfl⟩, hu⟩
      dsimp only at hu
      split_ifs at hu with hl
      · simp only [Res.ok.injEq, true_and] at hu
        exact ⟨ps, s1, hp, hl, hu.symm⟩
    · rintro ⟨ps, s1, hp, hl, rfl⟩
      exact ⟨_, _, ⟨ps, s1, hp, rfl, rfl⟩, by rw [if_pos hl]⟩
  · rw [if_neg (by omega)]
    simp [h, eq_comm]

theorem advRefill_eq_raised {s t : State} {c : Cause} :
    advRefill s = .raised c t ↔ (s.pib.toNat : Int) + s.wsize = 65536 ∧ pcRead batch s = .raised c t := by
  unfold advRefill
  by_cases h : (s.pib.toNat : Int) + s.wsize = 65536
  · rw [if_pos (by omega), andThen_eq_raised, refill_eq_raised]
    simp only [h, true_and]
    constructor
    · rintro (hp | ⟨m, u, -, hu⟩)
      · exact hp
      · split_ifs at hu
    · exact .inl
  · rw [if_neg (by omega)]
    simp [h]

/-! ### One advance -/

theorem pwAdv_eq_ok {s t : State} :
    pwAdv s = .ok () t ↔
      ∃ s1, advRefill s = .ok () s1 ∧ posInRange (s1.pos.toNat + 1) = true ∧ t = advRegs s1 := by
  unfold pwAdv
  rw [andThen_eq_ok]
  constructor
  · rintro ⟨⟨⟩, s1, h1, h2⟩
    split_ifs at h2 with hp
    exact ⟨s1, h1, hp, by simpa [eq_comm] using h2⟩
  · rintro ⟨s1, h1, hp, rfl⟩
    exact ⟨(), s1, h1, by simp [hp]⟩

theorem pwAdv_eq_raised {s t : State} {c : Cause} :
    pwAdv s = .raised c t ↔ (s.pib.toNat : Int) + s.wsize = 65536 ∧ pcRead batch s = .raised c t := by
  unfold pwAdv
  rw [andThen_eq_raised, advRefill_eq_raised]
  constructor
  · rintro (h | ⟨⟨⟩, s1, -, h2⟩)
    · exact h
    · split_ifs at h2
  · exact .inl

/-- What every advance keeps: all but the stream, the chain's history, the banks and the window's own registers. -/
structure AdvKeeps (s t : State) : Prop where
  fault : t.fault = s.fault
  inited : t.inited = s.inited
  wsize : t.wsize = s.wsize
  pcBatch : t.pcBatch = s.pcBatch
  sdBatch : t.sdBatch = s.sdBatch
  params : t.params = s.params
  requests : t.requests = s.requests
  out : t.out = s.out
  prev : t.prev = s.prev

theorem AdvKeeps.rfl' (s : State) : AdvKeeps s s := ⟨rfl, rfl, rfl, rfl, rfl, rfl, rfl, rfl, rfl⟩

theorem AdvKeeps.trans' {s t u : State} (h : AdvKeeps s t) (h' : AdvKeeps t u) : AdvKeeps s u :=
  ⟨h'.fault.trans h.fault, h'.inited.trans h.inited, h'.wsize.trans h.wsize, h'.pcBatch.trans h.pcBatch,
    h'.sdBatch.trans h.sdBatch, h'.params.trans h.params, h'.requests.trans h.requests, h'.out.trans h.out,
    h'.prev.trans h.prev⟩

/-- A batch keeps the registers too, those of the window among them. -/
theorem pcRead_ok_state {n : Int} {s t : State} {ps : List Power} (h : pcRead n s = .ok ps t) :
    ∃ src h' k', t = { s with source := src, h := h', k := k' } := by
  obtain ⟨-, -, b, rest, xs, -, -, -, rfl⟩ := pcRead_eq_ok.1 h
  exact ⟨_, _, _, rfl⟩

theorem pcRead_raised_state {n : Int} {s t : State} {c : Cause} (h : pcRead n s = .raised c t) :
    ∃ src ctr, t = { s with source := src, freeCtr := ctr } ∧ (c = .bufferSize ∨ c = .ioError) := by
  rcases pcRead_eq_raised.1 h with ⟨-, rfl, rfl⟩ | ⟨-, -, -, rfl, rfl⟩
  · exact ⟨_, _, rfl, .inl rfl⟩
  · exact ⟨_, _, rfl, .inr rfl⟩

/-- The free room below 2^64 that the position bound of R163 leaves. -/
theorem toNat_succ_of_posInRange {p : BitVec 64} (h : posInRange (p.toNat + 1) = true) :
    (p + 1).toNat = p.toNat + 1 := by
  rw [posInRange_iff] at h
  rw [BitVec.toNat_add]
  simp
  omega

theorem advRefill_keeps {s t : State} (h : advRefill s = .ok () t) :
    AdvKeeps s t ∧ t.pos = s.pos ∧ t.pib = s.pib ∧ t.cur = s.cur ∧ t.freeCtr = s.freeCtr ∧
      t.nloaded.toNat + t.source.length ≤ s.nloaded.toNat + s.source.length := by
  rcases advRefill_eq_ok.1 h with ⟨-, rfl⟩ | ⟨-, ps, s1, hp, hl, rfl⟩
  · exact ⟨.rfl' _, rfl, rfl, rfl, rfl, le_rfl⟩
  · have hlen := (pcRead_length hp).1
    obtain ⟨src, h', k', rfl⟩ := pcRead_ok_state hp
    refine ⟨⟨rfl, rfl, rfl, rfl, rfl, rfl, rfl, rfl, rfl⟩, rfl, rfl, rfl, rfl, ?_⟩
    dsimp only at hl hlen ⊢
    rw [BitVec.toNat_add]
    simp
    omega

/-- One advance: `POS` grows by one, and no more is loaded than leaves the source. -/
theorem pwAdv_keeps {s t : State} (h : pwAdv s = .ok () t) :
    AdvKeeps s t ∧ t.pos.toNat = s.pos.toNat + 1 ∧ t.freeCtr = s.freeCtr ∧
      t.nloaded.toNat + t.source.length ≤ s.nloaded.toNat + s.source.length := by
  obtain ⟨s1, h1, hp, rfl⟩ := pwAdv_eq_ok.1 h
  obtain ⟨hk, hpos, -, -, hc, hm⟩ := advRefill_keeps h1
  refine ⟨hk.trans' (by constructor <;> simp), ?_, by simpa using hc, by simpa using hm⟩
  rw [advRegs_pos, toNat_succ_of_posInRange hp, hpos]

/-! ### Many advances -/

theorem advTimes_succ (n : Nat) (s : State) : advTimes (n + 1) s = andThen (pwAdv s) fun _ s1 => advTimes n s1 := rfl

theorem advTimes_add (m n : Nat) (s : State) :
    advTimes (m + n) s = andThen (advTimes m s) fun _ s1 => advTimes n s1 := by
  induction m generalizing s with
  | zero => simp [advTimes]
  | succ m ih =>
    rw [Nat.add_right_comm, advTimes_succ, advTimes_succ, andThen_assoc]
    simp [ih]

theorem advTimes_keeps {n : Nat} {s t : State} (h : advTimes n s = .ok () t) :
    AdvKeeps s t ∧ t.pos.toNat = s.pos.toNat + n ∧ t.freeCtr = s.freeCtr ∧
      t.nloaded.toNat + t.source.length ≤ s.nloaded.toNat + s.source.length := by
  induction n generalizing s with
  | zero =>
    obtain rfl : s = t := by simpa [advTimes] using h
    exact ⟨.rfl' _, rfl, rfl, le_rfl⟩
  | succ n ih =>
    obtain ⟨⟨⟩, s1, h1, h2⟩ := andThen_eq_ok.1 h
    obtain ⟨k1, p1, c1, m1⟩ := pwAdv_keeps h1
    obtain ⟨k2, p2, c2, m2⟩ := ih h2
    exact ⟨k1.trans' k2, by omega, c2.trans c1, by omega⟩

/-- `n` advances end at a `raise` in one of them, from the state that the ones before it left (R144). -/
theorem advTimes_eq_raised {n : Nat} {s t : State} {c : Cause} (h : advTimes n s = .raised c t) :
    ∃ k u, k < n ∧ advTimes k s = .ok () u ∧ pwAdv u = .raised c t := by
  induction n generalizing s with
  | zero => simp [advTimes] at h
  | succ n ih =>
    rcases andThen_eq_raised.1 h with h | ⟨⟨⟩, s1, h1, h2⟩
    · exact ⟨0, s, by omega, rfl, h⟩
    · obtain ⟨k, u, hk, hu, ha⟩ := ih h2
      exact ⟨k + 1, u, by omega, by rw [advTimes_succ, h1]; exact hu, ha⟩

theorem pwAdvn_eq_ok {n : Int} {s t : State} : pwAdvn n s = .ok () t ↔ 0 < n ∧ advTimes n.toNat s = .ok () t := by
  unfold pwAdvn
  by_cases h : n ≤ 0
  · simp [h, Int.not_lt.2 h]
  · simp [h, Int.not_le.1 h]

theorem pwAdvn_eq_raised {n : Int} {s t : State} {c : Cause} :
    pwAdvn n s = .raised c t ↔
      (n ≤ 0 ∧ c = .count ∧ t = s) ∨ (0 < n ∧ advTimes n.toNat s = .raised c t) := by
  unfold pwAdvn
  by_cases h : n ≤ 0
  · simp [h, Int.not_lt.2 h, eq_comm]
  · simp [h, Int.not_le.1 h]

/-! ### `PW.INIT` -/

theorem pwInit_eq_ok {s t : State} :
    pwInit s = .ok () t ↔
      1 ≤ s.wsize ∧ s.wsize < 65536 ∧ ∃ ps s1, pcRead batch s = .ok ps s1 ∧
        t = { s1 with
          mem := memFill s1.mem 0 ps, nloaded := BitVec.ofNat 64 ps.length, cur := 0, pib := 0, pos := 0,
          inited := true } := by
  unfold pwInit
  by_cases h : 1 ≤ s.wsize ∧ s.wsize < 65536
  · rw [if_neg (by simpa using h), andThen_eq_ok]
    simp only [refill_eq_ok, h.1, h.2, true_and]
    constructor
    · rintro ⟨m, u, ⟨ps, s1, hp, rfl, rfl⟩, hu⟩
      exact ⟨ps, s1, hp, by simpa [eq_comm] using hu⟩
    · rintro ⟨ps, s1, hp, rfl⟩
      exact ⟨_, _, ⟨ps, s1, hp, rfl, rfl⟩, rfl⟩
  · rw [if_pos h]
    simp only [reduceCtorEq, false_iff]
    exact fun hh => h ⟨hh.1, hh.2.1⟩

theorem pwInit_eq_raised {s t : State} {c : Cause} :
    pwInit s = .raised c t ↔
      (¬(1 ≤ s.wsize ∧ s.wsize < 65536) ∧ c = .wsize ∧ t = s) ∨
        ((1 ≤ s.wsize ∧ s.wsize < 65536) ∧ pcRead batch s = .raised c t) := by
  unfold pwInit
  by_cases h : 1 ≤ s.wsize ∧ s.wsize < 65536
  · rw [if_neg (by simpa using h), andThen_eq_raised, refill_eq_raised]
    simp [h]
  · rw [if_pos h]
    simp [h, eq_comm]

end Sys2Proof.Laws
end

