-- ==== Sys2Proof/Laws/Demod.lean ====
section
/-! SUPPORT. What unit DM can do at one position. -/

namespace Sys2Proof.Laws

open Sys2Proof.Machine

theorem needIndex_eq_ok {n : Nat} {s t : State} : needIndex n s = .ok () t ↔ (n : Int) < s.wsize ∧ t = s := by
  unfold needIndex
  split_ifs with h <;> simp [h, eq_comm]

theorem needIndex_eq_raised {n : Nat} {s t : State} {c : Cause} :
    needIndex n s = .raised c t ↔ s.wsize ≤ n ∧ c = .index ∧ t = s := by
  unfold needIndex
  split_ifs with h
  · simp [h]
  · simp [Int.not_lt.1 h, eq_comm]

/-- The state of a scanned position: `PREV` holds its peak sum (R88). -/
def scanned (s : State) : State :=
  { s with prev := BitVec.ofNat 30 (peak s 0) }

/-- The endings of a scan, test by test (R92). -/
theorem scan_eq (cfg : Config) (s : State) :
    scan cfg s =
      if (sumReach cfg : Int) < s.wsize then
        if accepts cfg s = true then
          if (byteReach 0 : Int) < s.wsize then
            if dfOfByte (frameByte cfg (scanned s) 0) = dfAdsb then
              if (byteReach 13 : Int) < s.wsize then
                if crcBytewise (frameBytes cfg (scanned s)).toList = 0 then
                  .ok (some (frameBytes cfg (scanned s))) (scanned s)
                else .ok none (scanned s)
              else .raised .index (scanned s)
            else .ok none (scanned s)
          else .raised .index (scanned s)
        else .ok none (scanned s)
      else .raised .index s := by
  have hw : (scanned s).wsize = s.wsize := rfl
  unfold scan needIndex
  by_cases h1 : (sumReach cfg : Int) < s.wsize
  · simp only [h1, if_true, andThen_of_ok]
    change (if accepts cfg s = true then
      andThen (if (byteReach 0 : Int) < (scanned s).wsize then _ else _) _ else Res.ok none (scanned s)) = _
    rw [hw]
    by_cases h2 : (byteReach 0 : Int) < s.wsize
    · simp only [h2, if_true, andThen_of_ok]
      by_cases h3 : (byteReach 13 : Int) < s.wsize
      · simp only [h3, if_true, andThen_of_ok]
        rfl
      · simp only [h3, if_false, andThen_of_raised]
        rfl
    · simp only [h2, if_false, andThen_of_raised]
      rfl
  · simp only [h1, if_false, andThen_of_raised]

/-- A scan that ends with a value: `PREV` is written, and a frame is one that passed the three tests (R92). -/
theorem scan_ok {cfg : Config} {s t : State} {r : Option Frame} (h : scan cfg s = .ok r t) :
    t = scanned s ∧
      ∀ f, r = some f → accepts cfg s = true ∧ f = frameBytes cfg (scanned s) ∧
        dfOfByte (frameByte cfg (scanned s) 0) = dfAdsb ∧ crcBytewise f.toList = 0 := by
  rw [scan_eq] at h
  split_ifs at h with h1 ha h2 hd h3 hc <;> obtain ⟨rfl, rfl⟩ := Res.ok.inj h
  · refine ⟨rfl, fun f hf => ?_⟩
    obtain rfl := Option.some.inj hf
    exact ⟨ha, rfl, hd, hc⟩
  all_goals exact ⟨rfl, by simp⟩

/-- A scan that raises found an offset that the window does not have (log 19). -/
theorem scan_raised {cfg : Config} {s t : State} {c : Cause} (h : scan cfg s = .raised c t) :
    c = .index ∧ (t = s ∨ t = scanned s) ∧ (s.wsize ≤ sumReach cfg ∨ s.wsize ≤ byteReach 13) := by
  rw [scan_eq] at h
  have hr : byteReach 0 ≤ byteReach 13 := by decide
  split_ifs at h with h1 ha h2 hd h3 hc <;> obtain ⟨rfl, rfl⟩ := Res.raised.inj h
  · exact ⟨rfl, .inr rfl, .inr (by omega)⟩
  · exact ⟨rfl, .inr rfl, .inr (by omega)⟩
  · exact ⟨rfl, .inl rfl, .inl (by omega)⟩

/-- A scan ends with a value or at a `raise`. -/
theorem scan_ends (cfg : Config) (s : State) :
    (∃ r, scan cfg s = .ok r (scanned s)) ∨ ∃ c t, scan cfg s = .raised c t := by
  rw [scan_eq]
  split_ifs <;> simp

/-- R92: in the chain every offset that `DM.NEXT` reads is in the window. -/
theorem scan_chain {s : State} (h : s.wsize = 1200) : ∃ r, scan iqd s = .ok r (scanned s) := by
  rcases scan_ends iqd s with h1 | ⟨c, t, h1⟩
  · exact h1
  · have := (scan_raised h1).2.2
    simp [h, sumReach, byteReach, iqd, dataOfs, half, bitSpan] at this

theorem takeFrameAt_eq_ok {f : Frame} {s t : State} {r : Option (BitVec 64 × Frame)} :
    takeFrameAt f s = .ok r t ↔
      posInRange s.pos.toNat = true ∧ advTimes 1200 s = .ok () t ∧ r = some (BitVec.ofNat 64 (s.pos.toNat * 100), f) := by
  unfold takeFrameAt
  by_cases h : posInRange s.pos.toNat = true
  · rw [if_pos h, andThen_eq_ok]
    constructor
    · rintro ⟨⟨⟩, u, hu, hr⟩
      obtain ⟨rfl, rfl⟩ := Res.ok.inj hr
      exact ⟨h, (pwAdvn_eq_ok.1 hu).2, rfl⟩
    · rintro ⟨-, hu, rfl⟩
      exact ⟨(), t, pwAdvn_eq_ok.2 ⟨by decide, hu⟩, rfl⟩
  · simp [h]

theorem takeFrameAt_eq_raised {f : Frame} {s t : State} {c : Cause} :
    takeFrameAt f s = .raised c t ↔ posInRange s.pos.toNat = true ∧ advTimes 1200 s = .raised c t := by
  unfold takeFrameAt
  by_cases h : posInRange s.pos.toNat = true
  · rw [if_pos h, andThen_eq_raised, pwAdvn_eq_raised]
    simp [h, frameSpan]
  · simp [h]

end Sys2Proof.Laws
end

