-- ==== Sys2Proof/Laws/Out.lean ====
section
/-! SUPPORT. The last result (`State.out`, log 4) is written and never read: a rule of units SD, PC, PW and DM ends alike
whatever stands there. -/

namespace Sys2Proof.Laws

open Sys2Proof.Machine

/-- The state with another last result. -/
def withOut (o : Option Reply) (s : State) : State :=
  { s with out := o }

/-- The ending of a rule with another last result. -/
def outRes {α : Type} (o : Option Reply) : Res α → Res α
  | .ok a s => .ok a (withOut o s)
  | .raised c s => .raised c (withOut o s)
  | .refused x => .refused x
  | .stuck x => .stuck x

/-- The outermost operation overwrites the last result (R14). -/
theorem deliver_outRes {α : Type} (o : Option Reply) (r : Res α) (f : α → Reply) :
    deliver (outRes o r) f = deliver r f := by
  cases r <;> rfl

theorem andThen_outRes {α β : Type} (o : Option Reply) (r : Res α) {f : α → State → Res β}
    (hf : ∀ a s, f a (withOut o s) = outRes o (f a s)) : andThen (outRes o r) f = outRes o (andThen r f) := by
  cases r <;> simp [outRes, hf]

theorem streamRead_withOut (o : Option Reply) (n : Nat) (s : State) :
    streamRead n (withOut o s) = outRes o (streamRead n s) := by
  unfold streamRead
  change (match readSource n s.source with | .bytes _ _ => _ | .error => _ | .blocks => _) = _
  cases readSource n s.source <;> rfl

theorem sdRead_withOut (o : Option Reply) (n : Int) (s : State) :
    sdRead n (withOut o s) = outRes o (sdRead n s) := by
  unfold sdRead
  change (if n ≠ s.sdBatch then _ else andThen (streamRead (2 * s.sdBatch).toNat (withOut o s)) _) = _
  split_ifs
  · rfl
  · rw [streamRead_withOut, andThen_outRes]
    intro b u
    cases samplesOf b <;> rfl

theorem pcRead_withOut (o : Option Reply) (n : Int) (s : State) :
    pcRead n (withOut o s) = outRes o (pcRead n s) := by
  unfold pcRead
  change (if n ≠ s.pcBatch then _ else andThen (sdRead (2 * s.pcBatch) (withOut o s)) _) = _
  split_ifs
  · rfl
  · rw [sdRead_withOut, andThen_outRes]
    intro xs u
    rfl

theorem refill_withOut (o : Option Reply) (b : Fin 2) (s : State) :
    refill b (withOut o s) = outRes o (refill b s) := by
  unfold refill
  rw [pcRead_withOut, andThen_outRes]
  intro ps u
  rfl

theorem advRefill_withOut (o : Option Reply) (s : State) : advRefill (withOut o s) = outRes o (advRefill s) := by
  unfold advRefill
  change (if (s.pib.toNat : Int) + 1 + s.wsize - 1 = 65536 then andThen (refill (1 - s.cur) (withOut o s)) _ else _) = _
  split_ifs
  · rw [refill_withOut, andThen_outRes]
    intro m u
    change (if u.nloaded.toNat + m < 2 ^ 64 then _ else _) = outRes o (if u.nloaded.toNat + m < 2 ^ 64 then _ else _)
    split_ifs <;> rfl
  · rfl

theorem advRegs_withOut (o : Option Reply) (s : State) : advRegs (withOut o s) = withOut o (advRegs s) := by
  unfold advRegs
  change (if s.pib.toNat + 1 = 65536 then _ else _) = _
  split_ifs <;> rfl

theorem pwAdv_withOut (o : Option Reply) (s : State) : pwAdv (withOut o s) = outRes o (pwAdv s) := by
  unfold pwAdv
  rw [advRefill_withOut, andThen_outRes]
  intro _ u
  change (if posInRange (u.pos.toNat + 1) = true then _ else _) = outRes o (if posInRange (u.pos.toNat + 1) = true then _ else _)
  split_ifs
  · rw [advRegs_withOut]
    rfl
  · rfl

theorem advTimes_withOut (o : Option Reply) (n : Nat) (s : State) :
    advTimes n (withOut o s) = outRes o (advTimes n s) := by
  induction n generalizing s with
  | zero => rfl
  | succ n ih => rw [advTimes_succ, advTimes_succ, pwAdv_withOut, andThen_outRes o _ fun _ u => ih u]

theorem pwAdvn_withOut (o : Option Reply) (n : Int) (s : State) : pwAdvn n (withOut o s) = outRes o (pwAdvn n s) := by
  unfold pwAdvn
  split_ifs
  · rfl
  · exact advTimes_withOut o _ s

theorem scan_withOut (o : Option Reply) (cfg : Config) (s : State) :
    scan cfg (withOut o s) = outRes o (scan cfg s) := by
  rw [scan_eq, scan_eq]
  simp only [show (withOut o s).wsize = s.wsize from rfl, show accepts cfg (withOut o s) = accepts cfg s from rfl,
    show frameByte cfg (scanned (withOut o s)) 0 = frameByte cfg (scanned s) 0 from rfl,
    show frameBytes cfg (scanned (withOut o s)) = frameBytes cfg (scanned s) from rfl]
  split_ifs <;> rfl

theorem takeFrameAt_withOut (o : Option Reply) (f : Frame) (s : State) :
    takeFrameAt f (withOut o s) = outRes o (takeFrameAt f s) := by
  unfold takeFrameAt
  change (if posInRange s.pos.toNat = true then _ else _) = _
  split_ifs
  · rw [pwAdvn_withOut, andThen_outRes]
    · rfl
    · intro _ u
      rfl
  · rfl

theorem dmLoop_withOut (o : Option Reply) (cfg : Config) (n : Nat) (s : State) :
    dmLoop cfg n (withOut o s) = outRes o (dmLoop cfg n s) := by
  induction n generalizing s with
  | zero => rfl
  | succ n ih =>
    simp only [dmLoop]
    change (if windowFull s = true then _ else _) = _
    split_ifs
    · rw [scan_withOut, andThen_outRes]
      intro found u
      cases found with
      | some f => exact takeFrameAt_withOut o f u
      | none =>
        dsimp only
        rw [pwAdv_withOut, andThen_outRes o _ fun _ v => ih v]
    · rfl

/-- What `DM.NEXT` does does not depend on the last result. -/
theorem dmNext_withOut (o : Option Reply) (cfg : Config) (s : State) :
    dmNext cfg (withOut o s) = outRes o (dmNext cfg s) :=
  dmLoop_withOut o cfg (dmFuel s) s

end Sys2Proof.Laws
end

