-- ==== Sys2Proof/Laws/PerInstr.lean ====
section
/-! SUPPORT. What holds of each instruction as syntax, one lemma for each constructor. -/

namespace Sys2Proof.Laws

/-- The first byte of a request: the operation code of R45, a five-bit value; or, for a data word, a tag that is no
operation code (log 3). -/
def OpCode.Statement (i : Instr) : Prop :=
  match opCode i with
  | some c => c < 25 ∧ (encode i).head? = some (BitVec.ofNat 8 c)
  | none => ∃ tag ∈ [tagSample, tagFrame, tagPayload, tagAlt], (encode i).head? = some (BitVec.ofNat 8 tag) ∧ 32 ≤ tag

theorem OpCode.reset : OpCode.Statement .reset := ⟨by decide, rfl⟩

theorem OpCode.sdRead (n : Nat) : OpCode.Statement (.sdRead n) := ⟨by decide, rfl⟩

theorem OpCode.pcRead (n : Nat) : OpCode.Statement (.pcRead n) := ⟨by decide, rfl⟩

theorem OpCode.pwInit : OpCode.Statement .pwInit := ⟨by decide, rfl⟩

theorem OpCode.pwGet (i : Int) : OpCode.Statement (.pwGet i) := ⟨by decide, rfl⟩

theorem OpCode.pwFull : OpCode.Statement .pwFull := ⟨by decide, rfl⟩

theorem OpCode.pwAdv : OpCode.Statement .pwAdv := ⟨by decide, rfl⟩

theorem OpCode.pwAdvn (n : Int) : OpCode.Statement (.pwAdvn n) := ⟨by decide, rfl⟩

theorem OpCode.pwPos : OpCode.Statement .pwPos := ⟨by decide, rfl⟩

theorem OpCode.dmNext : OpCode.Statement .dmNext := ⟨by decide, rfl⟩

theorem OpCode.crcBit (b : List Byte) : OpCode.Statement (.crcBit b) := ⟨by decide, rfl⟩

theorem OpCode.crcByte (b : List Byte) : OpCode.Statement (.crcByte b) := ⟨by decide, rfl⟩

theorem OpCode.crcChk (b : List Byte) : OpCode.Statement (.crcChk b) := ⟨by decide, rfl⟩

theorem OpCode.bitsX (v : BitVec 64) (start size : Int) : OpCode.Statement (.bitsX v start size) :=
  ⟨by decide, rfl⟩

theorem OpCode.rmParse (ts : BitVec 64) (b : List Byte) : OpCode.Statement (.rmParse ts b) := ⟨by decide, rfl⟩

theorem OpCode.rmDf (f : Frame) : OpCode.Statement (.rmDf f) := ⟨by decide, rfl⟩

theorem OpCode.rmIcao (f : Frame) : OpCode.Statement (.rmIcao f) := ⟨by decide, rfl⟩

theorem OpCode.rmMe (f : Frame) : OpCode.Statement (.rmMe f) := ⟨by decide, rfl⟩

theorem OpCode.rmTc (src : TcOperand) : OpCode.Statement (.rmTc src) := by
  cases src <;> exact ⟨by decide, rfl⟩

theorem OpCode.rmClass (tc : BitVec 5) : OpCode.Statement (.rmClass tc) := ⟨by decide, rfl⟩

theorem OpCode.grayDec (g w : Nat) : OpCode.Statement (.grayDec g w) := ⟨by decide, rfl⟩

theorem OpCode.altDec (alt : BitVec 12) : OpCode.Statement (.altDec alt) := ⟨by decide, rfl⟩

theorem OpCode.posDec (msg : Message) : OpCode.Statement (.posDec msg) := ⟨by decide, rfl⟩

theorem OpCode.cprNl (lat : ℚ) : OpCode.Statement (.cprNl lat) := ⟨by decide, rfl⟩

theorem OpCode.cprDec (x0 y0 x1 y1 : BitVec 17) (recent : Bool) : OpCode.Statement (.cprDec x0 y0 x1 y1 recent) :=
  ⟨by decide, rfl⟩

theorem OpCode.fmtSampleWord (u : BitVec 12) : OpCode.Statement (.fmtSampleWord u) :=
  ⟨tagSample, by decide, rfl, by decide⟩

theorem OpCode.fmtFrame (f : Frame) : OpCode.Statement (.fmtFrame f) := ⟨tagFrame, by decide, rfl, by decide⟩

theorem OpCode.fmtFrameDf17 (f : Frame) : OpCode.Statement (.fmtFrameDf17 f) :=
  ⟨tagFrame, by decide, rfl, by decide⟩

theorem OpCode.fmtMe (me : Payload) : OpCode.Statement (.fmtMe me) := ⟨tagPayload, by decide, rfl, by decide⟩

theorem OpCode.fmtMePosition (me : Payload) : OpCode.Statement (.fmtMePosition me) :=
  ⟨tagPayload, by decide, rfl, by decide⟩

theorem OpCode.fmtAltQ1 (alt : BitVec 12) : OpCode.Statement (.fmtAltQ1 alt) := ⟨tagAlt, by decide, rfl, by decide⟩

theorem OpCode.fmtAltQ0 (alt : BitVec 12) : OpCode.Statement (.fmtAltQ0 alt) := ⟨tagAlt, by decide, rfl, by decide⟩

end Sys2Proof.Laws
end

