-- ==== Sys2Proof/Tests/Slice0.lean ====
section
/-! SUPPORT. Tests from the vectors of spec/95_test_vectors.md, words written out from the encodings of
spec/30_encoding.md, ill-formed terms, and for each statement with hypotheses a witness that meets them. -/

namespace Sys2Proof.Tests

set_option Elab.async false

open Sys2Proof.Machine

/-! ### Helpers -/

/-- A value of the next state, if there is one. -/
def after {α : Type} (o : Host.Outcome State Fault Refusal) (f : State → α) : Option α :=
  match o with
  | .next t => some (f t)
  | _ => none

/-- What the operation gives the host. -/
def replyOf (o : Host.Outcome State Fault Refusal) : Option Reply :=
  (after o State.out).join

/-- The reason of a refusal. -/
def refusedAs (o : Host.Outcome State Fault Refusal) : Option Refusal :=
  match o with
  | .refused r => some r
  | _ => none

theorem after_some {α : Type} {o : Host.Outcome State Fault Refusal} {f : State → α} {v : α} (h : after o f = some v) :
    ∃ t, o = .next t ∧ f t = v := by
  cases o <;> simp_all [after]

/-- A chain after `PW.INIT` on an empty stream. -/
def live : State :=
  { State.reset with inited := true }

/-- A block whose batches are `n` samples, on a stream of the bytes `b`. -/
def small (n : Int) (b : List Byte) : State :=
  { State.reset with sdBatch := n, pcBatch := n / 2, source := b.map .byte }

/-- The stream bytes of samples (R38). -/
def stream (xs : List Int) : List Byte :=
  xs.flatMap fun x => leBytes 2 (x + 2048).toNat

/-- The frame of V5.11. -/
def frameA : Frame := #v[0x8D, 0x39, 0x2A, 0xE4, 0x99, 0x10, 0x7F, 0xB5, 0xC0, 0x04, 0x39, 0x03, 0x5D, 0xB8]

/-- The frame of V5.12, whose CRC is not 0. -/
def frameBad : Frame := #v[0x8D, 0x39, 0x2A, 0xE4, 0x99, 0x10, 0x7F, 0xB5, 0xC0, 0x04, 0x39, 0x09, 0x42, 0x30]

/-- The even frame of V7.1. -/
def frameEven : Frame := #v[0x8D, 0x40, 0x62, 0x1D, 0x58, 0xC3, 0x82, 0xD6, 0x90, 0xC8, 0xAC, 0x28, 0x63, 0xA7]

/-- The odd frame of V7.2. -/
def frameOdd : Frame := #v[0x8D, 0x40, 0x62, 0x1D, 0x58, 0xC3, 0x86, 0x43, 0x5C, 0xC4, 0x12, 0x69, 0x2A, 0xD6]

/-- A frame with TC = 11 and `ALT` = 0 (V7.5). -/
def frameNoAlt : Frame := #v[0x8D, 0x40, 0x62, 0x1D, 0x58, 0, 0, 0, 0, 0, 0, 0, 0, 0]

/-- A window that shows a preamble and then the bits of a frame: a 1 in the second half of its place, a 0 in the first. -/
def signal (f : Frame) : Bank :=
  [(0, 4), (10, 4), (35, 4), (45, 4)] ++
    (List.range 112).map fun k => (80 + 10 * k + if (f.toList.getD (k / 8) 0).getLsbD (7 - k % 8) then 5 else 0, 1)

/-- A chain whose window shows a frame at its first position. -/
def heard (f : Frame) : State :=
  { live with mem := ⟨signal f, []⟩, nloaded := 1400 }

/-- A chain that hears a frame after the last time stamp in range. -/
def late : State :=
  { heard frameA with pos := 92233720368547759, nloaded := 2 ^ 63 }

/-- A chain at the refill point of R80, on the source `src`. -/
def atRefill (src : List SourceEvent) : State :=
  { live with pos := 64336, pib := 64336, nloaded := 65536, source := src }

/-! ### Ill-formed terms -/

theorem test_length_too_long : WellFormed (.sdRead (2 ^ 32)) = false := by decide

theorem test_pc_length_too_long : WellFormed (.pcRead (2 ^ 32)) = false := by decide

theorem test_index_too_large : WellFormed (.pwGet (2 ^ 63)) = false := by decide

theorem test_count_too_small : WellFormed (.pwAdvn (-2 ^ 63 - 1)) = false := by decide

theorem test_list_too_long (b : List Byte) (h : b.length = 2 ^ 32) :
    WellFormed (.crcBit b) = false ∧ WellFormed (.crcByte b) = false ∧ WellFormed (.crcChk b) = false ∧
      WellFormed (.rmParse 0 b) = false := by
  simp [WellFormed, lengthOk, h]

theorem test_bit_range_operands_too_large :
    WellFormed (.bitsX 0 (2 ^ 63) 0) = false ∧ WellFormed (.bitsX 0 0 (2 ^ 63)) = false := by decide

theorem test_gray_operands_too_large : WellFormed (.grayDec 0 256) = false ∧ WellFormed (.grayDec (2 ^ 32) 3) = false := by
  decide

theorem test_latitude_operand_too_large : WellFormed (.cprNl (2 ^ 63)) = false := by decide +kernel

theorem test_latitude_operand_too_fine : WellFormed (.cprNl (1 / (2 ^ 64 + 1))) = false := by decide +kernel

theorem test_rows_of_one_format_exclude_each_other :
    WellFormed (.fmtFrame frameA) = false ∧ WellFormed (.fmtFrameDf17 (Vector.replicate 14 0)) = false ∧
      WellFormed (.fmtMe 0x58C382D690C8AC) = false ∧ WellFormed (.fmtMePosition 0x99107FB5C00439) = false ∧
      WellFormed (.fmtAltQ1 0x000) = false ∧ WellFormed (.fmtAltQ0 0x010) = false := by
  decide

/-! ### Words written out from the encodings -/

/-- R45: the operations without operands are their code. -/
theorem test_decode_bare_codes :
    decode [0x00] = .ok (.reset, []) ∧ decode [0x03] = .ok (.pwInit, []) ∧ decode [0x05] = .ok (.pwFull, []) ∧
      decode [0x06] = .ok (.pwAdv, []) ∧ decode [0x08] = .ok (.pwPos, []) ∧ decode [0x09, 0x07] = .ok (.dmNext, [7]) :=
  ⟨rfl, rfl, rfl, rfl, rfl, rfl⟩

/-- R45, log 2: lengths and signed operands. -/
theorem test_decode_numbers :
    decode [0x01, 0x00, 0x00, 0x02, 0x00] = .ok (.sdRead 131072, []) ∧
      decode [0x02, 0x00, 0x00, 0x01, 0x00] = .ok (.pcRead 65536, []) ∧
      decode [0x04, 0xFF, 0xFF, 0xFF, 0xFF, 0xFF, 0xFF, 0xFF, 0xFF] = .ok (.pwGet (-1), []) ∧
      decode [0x07, 0xB0, 0x04, 0, 0, 0, 0, 0, 0] = .ok (.pwAdvn 1200, []) :=
  ⟨rfl, rfl, rfl, rfl⟩

/-- R45, log 2: byte lists, their length in front. -/
theorem test_decode_byte_lists :
    decode [0x0A, 1, 0, 0, 0, 0x80] = .ok (.crcBit [0x80], []) ∧
      decode [0x0B, 2, 0, 0, 0, 0x01, 0x02] = .ok (.crcByte [1, 2], []) ∧
      decode [0x0C, 0, 0, 0, 0] = .ok (.crcChk [], []) ∧
      decode [0x0E, 0xD8, 0x27, 0, 0, 0, 0, 0, 0, 1, 0, 0, 0, 0x8D] = .ok (.rmParse 10200 [0x8D], []) :=
  ⟨rfl, rfl, rfl, rfl⟩

/-- R45, R108: `BITS.X(0x99107FB5C00439, 51, 5)`. -/
theorem test_decode_bits :
    decode [0x0D, 0x39, 0x04, 0xC0, 0xB5, 0x7F, 0x10, 0x99, 0, 51, 0, 0, 0, 0, 0, 0, 0, 5, 0, 0, 0, 0, 0, 0, 0] =
      .ok (.bitsX 0x99107FB5C00439 51 5, []) := rfl

/-- R45, R48: the operations on a frame. -/
theorem test_decode_frame_operands :
    decode (0x0F :: frameA.toList) = .ok (.rmDf frameA, []) ∧
      decode (0x10 :: frameA.toList) = .ok (.rmIcao frameA, []) ∧
      decode (0x11 :: frameA.toList) = .ok (.rmMe frameA, []) ∧
      decode (0x12 :: 0 :: frameA.toList) = .ok (.rmTc (.frame frameA), []) ∧
      decode [0x12, 1, 0x99, 0x10, 0x7F, 0xB5, 0xC0, 0x04, 0x39] = .ok (.rmTc (.payload 0x99107FB5C00439), []) ∧
      decode ([0x16, 0xE8, 0x2E, 0x63, 0, 0, 0, 0, 0] ++ frameEven.toList) = .ok (.posDec ⟨6500072, frameEven⟩, []) :=
  ⟨rfl, rfl, rfl, rfl, rfl, rfl⟩

/-- R45: the small operands, among them `GRAY.DEC(0x100, 9)` and `CPR.NL(1/8)`. -/
theorem test_decode_small_operands :
    decode [0x13, 0x13] = .ok (.rmClass 19, []) ∧ decode [0x14, 9, 0x00, 0x01, 0, 0] = .ok (.grayDec 0x100 9, []) ∧
      decode [0x15, 0x38, 0x0C] = .ok (.altDec 0xC38, []) ∧
      decode [0x18, 0xAC, 0xC8, 0x00, 0x48, 0x6B, 0x01, 0x12, 0xC4, 0x00, 0xAE, 0x21, 0x01, 0x00] =
        .ok (.cprDec 51372 93000 50194 74158 false, []) :=
  ⟨rfl, rfl, rfl, rfl⟩

theorem test_decode_latitude :
    (decode [0x17, 1, 0, 0, 0, 0, 0, 0, 0, 7, 0, 0, 0, 0, 0, 0, 0]).toOption = some (.cprNl (1 / 8), []) := by
  decide +kernel

/-- R47 to R51: one data word of each row, its bits from the row's encoding. -/
theorem test_decode_data_words :
    decode [0x20, 0x01, 0x08] = .ok (.fmtSampleWord 0x801, []) ∧
      decode (0x40 :: frameA.toList) = .ok (.fmtFrameDf17 frameA, []) ∧
      decode (0x40 :: (Vector.replicate 14 0x5D : Frame).toList) = .ok (.fmtFrame (Vector.replicate 14 0x5D), []) ∧
      decode [0x60, 0x99, 0x10, 0x7F, 0xB5, 0xC0, 0x04, 0x39] = .ok (.fmtMe 0x99107FB5C00439, []) ∧
      decode [0x60, 0x58, 0xC3, 0x82, 0xD6, 0x90, 0xC8, 0xAC] = .ok (.fmtMePosition 0x58C382D690C8AC, []) ∧
      decode [0x80, 0x38, 0x0C] = .ok (.fmtAltQ1 0xC38, []) ∧ decode [0x80, 0x80, 0x00] = .ok (.fmtAltQ0 0x080, []) :=
  ⟨rfl, rfl, rfl, rfl, rfl, rfl, rfl⟩

/-- R47: the four bits above a sample are 0. R45: 0x19 is no operation code (V10.7). -/
theorem test_decode_refuses_reserved :
    decode [0x20, 0x00, 0x10] = .error .reservedBits ∧ decode [0x19] = .error .unassignedCode ∧
      decode [0x21] = .error .reservedBits ∧ decode [0x01, 0x00] = .error .truncated ∧
      decode [0x12, 2] = .error .reservedBits :=
  ⟨rfl, rfl, rfl, rfl, rfl⟩

/-- The bits of an opcode-table row reach the step (log 1): the code 0x05, and a sample word. -/
theorem test_table_words :
    decodeTableWord 8 0x05 = some .pwFull ∧ decodeTableWord 16 0x801 = some (.fmtSampleWord 0x801) ∧
      decodeTableWord 12 0xC38 = some (.fmtAltQ1 0xC38) ∧
      after (step (State.reset.withFetchWord 16 0x801)) State.out = some (some (.sampleValue 1)) := by
  decide +kernel

/-! ### One step of each instruction -/

/-- V10.1, V3.11: an illegal batch size is latched by `RESET`; a legal one clears `FAULT`. -/
theorem test_reset :
    after (exec .reset { State.reset with params := ⟨1200, 12, 24⟩ }) State.fault = some (some .batchSize) ∧
      after (exec .reset { State.reset with params := ⟨1200, 65536, 0⟩ }) State.fault = some (some .batchSize) ∧
      after (exec .reset { live with fault := some .index, pos := 5 }) (fun t => (t.fault, t.pos, t.inited)) =
        some (none, 0, false) := by
  decide +kernel

/-- V2.1. -/
theorem test_sdRead :
    replyOf (exec (.sdRead 8) (small 8 [0x00, 0x08, 0xFF, 0x0F, 0x00, 0x00, 0x01, 0x08, 0xFF, 0x07, 0xE8, 0x03, 0x18,
      0x08, 0x00, 0x08])) = some (.samples 8 [0, 2047, -2048, 1, -1, -1048, 24, 0]) := by
  decide +kernel

/-- V2.3, V2.4, V2.5. -/
theorem test_sdRead_edges :
    replyOf (exec (.sdRead 16) (small 16 [0x01, 0x08, 0x02, 0x08, 0x03])) = some (.samples 2 [1, 2]) ∧
      replyOf (exec (.sdRead 4) (small 8 [0x01, 0x08])) = some (.fault .bufferSize) ∧
      refusedAs (exec (.sdRead 8) (small 8 [0x00, 0x10])) = some .illFormedStream := by
  decide +kernel

/-- V3.1: the powers and the history. -/
theorem test_pcRead :
    after (exec (.pcRead 8) (small 16 (stream [1, 2, 3, 4, 5, 6, 7, 8, 9, 10, 11, 12, 13, 14, 15, 16])))
        (fun t => (t.out, t.h, t.k)) =
      some (some (.powers 8 [5, 8, 25, 32, 32, 32, 32, 32]), #v[9, 10, 11, 12, 13, 14, 15, 16], 0) := by
  decide +kernel

/-- V3.3 (the first three and the maximum), V3.9. -/
theorem test_pcRead_edges :
    replyOf (exec (.pcRead 4) (small 8 (stream [2047, -2048, -2048, 2047, 2047, -2048, -2048, 2047]))) =
        some (.powers 4 [8384513, 33538050, 75460613, 134152200]) ∧
      after (exec (.pcRead 8) (small 16 (stream [1, 2, 3]))) (fun t => (t.out, t.h, t.k)) =
        some (some (.powers 1 [5]), #v[1, 2, 0, 0, 0, 0, 0, 0], 2) := by
  decide +kernel

/-- V4.1, and a stream of three samples (V3.9) loaded. -/
theorem test_pwInit :
    after (exec .pwInit State.reset) (fun t => (t.nloaded, t.inited, t.out)) = some (0, true, some .done) ∧
      after (exec .pwInit { State.reset with source := (stream [1, 2, 3]).map .byte })
        (fun t => (t.nloaded, t.mem, t.source)) = some (1, ⟨[(0, 5)], []⟩, []) := by
  decide +kernel

/-- V4.12. -/
theorem test_pwInit_illegal_size :
    replyOf (exec .pwInit { State.reset with wsize := 0 }) = some (.fault .wsize) ∧
      replyOf (exec .pwInit { State.reset with wsize := 65536 }) = some (.fault .wsize) := by
  decide +kernel

/-- V4.7: `PIB` = 65000, the offsets 535 and 536 on either side of the bank boundary. -/
theorem test_pwGet :
    replyOf (exec (.pwGet 535) { live with pib := 65000, mem := ⟨[(65535, 11)], [(0, 22)]⟩ }) = some (.power 11) ∧
      replyOf (exec (.pwGet 536) { live with pib := 65000, mem := ⟨[(65535, 11)], [(0, 22)]⟩ }) = some (.power 22) := by
  decide +kernel

/-- V4.10. -/
theorem test_pwGet_illegal_index :
    replyOf (exec (.pwGet 1200) live) = some (.fault .index) ∧ replyOf (exec (.pwGet (-1)) live) = some (.fault .index) := by
  decide +kernel

/-- V4.3, V4.13. -/
theorem test_pwFull :
    replyOf (exec .pwFull { live with nloaded := 1200 }) = some (.bool true) ∧
      replyOf (exec .pwFull { live with nloaded := 1200, pos := 1, pib := 1 }) = some (.bool false) ∧
      refusedAs (exec .pwFull State.reset) = some .notInitialised := by
  decide +kernel

/-- V4.8: the swap. -/
theorem test_pwAdv_swaps :
    after (exec .pwAdv { live with pos := 65535, pib := 65535 }) (fun t => (t.pos, t.pib, t.cur)) =
      some (65536, 0, 1) := by
  decide +kernel

/-- V4.6 on a short stream: the refill goes to the spare bank. -/
theorem test_pwAdv_refills :
    after (exec .pwAdv (atRefill ((stream [1, 2, 3]).map .byte))) (fun t => (t.pos, t.pib, t.nloaded)) =
        some (64337, 64337, 65537) ∧
      after (exec .pwAdv (atRefill ((stream [1, 2, 3]).map .byte))) (fun t => t.mem) = some ⟨[], [(0, 5)]⟩ := by
  decide +kernel

/-- V10.3: a read error leaves the registers. -/
theorem test_pwAdv_read_error :
    after (exec .pwAdv (atRefill [.ioError])) (fun t => (t.pos, t.nloaded, t.fault)) =
      some (64336, 65536, some .ioError) := by
  decide +kernel

/-- V4.11, V10.4. -/
theorem test_pwAdvn :
    replyOf (exec (.pwAdvn 0) live) = some (.fault .count) ∧
      after (exec (.pwAdvn 3) live) (fun t => (t.pos, t.pib)) = some (3, 3) ∧
      after (exec (.pwAdvn 2) { atRefill [.ioError] with pos := 64335, pib := 64335 }) (fun t => (t.pos, t.fault)) =
        some (64336, some .ioError) := by
  decide +kernel

theorem test_pwPos : replyOf (exec .pwPos { live with pos := 1302 }) = some (.pos 1302) := by decide +kernel

/-- R90 to R92 on a window that shows the frame of V5.11. -/
theorem test_dmNext_finds_frame :
    after (exec .dmNext (heard frameA)) (fun t => (t.out, t.pos, t.prev)) =
      some (some (.frame 0 frameA), 1200, 16) := by
  decide +kernel

/-- V9.5, V9.6, V10.6. -/
theorem test_dmNext_end_of_stream :
    after (exec .dmNext { live with nloaded := 1199 }) (fun t => (t.out, t.pos)) = some (some .noFrame, 0) ∧
      after (exec .dmNext { live with nloaded := 1201 }) (fun t => (t.out, t.pos)) = some (some .noFrame, 2) ∧
      refusedAs (exec .dmNext State.reset) = some .notInitialised := by
  decide +kernel

/-- V5.1, V5.3, V5.4, V5.5. -/
theorem test_crcBit :
    crcBitwise [] = 0 ∧ crcBitwise [0x01] = 0xFFF409 ∧ crcBitwise [0x80] = 0x0706C0 ∧
      replyOf (exec (.crcBit [0xFF]) State.reset) = some (.crc 0xFA0480) := by
  decide +kernel

/-- V5.8, V5.10. -/
theorem test_crcByte :
    replyOf (exec (.crcByte [0x31, 0x32, 0x33, 0x34, 0x35, 0x36, 0x37, 0x38, 0x39]) State.reset) = some (.crc 0x054268) ∧
      replyOf (exec (.crcByte [0x8D, 0x39, 0x2A, 0xE4, 0x99, 0x10, 0x7F, 0xB5, 0xC0, 0x04, 0x39]) State.reset) =
        some (.crc 0x035DB8) := by
  decide +kernel

/-- V5.11, V5.12, V5.17. -/
theorem test_crcChk :
    replyOf (exec (.crcChk frameA.toList) State.reset) = some (.bool true) ∧
      replyOf (exec (.crcChk frameBad.toList) State.reset) = some (.bool false) ∧
      replyOf (exec (.crcChk (List.replicate 13 0)) State.reset) = some (.fault .bufferSize) := by
  decide +kernel

/-- V6.1, V6.5, V6.7, V6.8. -/
theorem test_bitsX :
    replyOf (exec (.bitsX 0x99107FB5C00439 51 5) State.reset) = some (.bits 19) ∧
      replyOf (exec (.bitsX 0x58C382D690C8AC 36 12) State.reset) = some (.bits 0xC38) ∧
      replyOf (exec (.bitsX 0x8D 64 0) State.reset) = some (.bits 0) ∧
      replyOf (exec (.bitsX 0xFFFFFFFFFFFFFFFF 33 31) State.reset) = some (.bits 0x7FFFFFFF) := by
  decide +kernel

/-- V6.9. -/
theorem test_bitsX_illegal :
    ∀ p ∈ [((0 : Int), (32 : Int)), (0, -1), (-1, 1), (64, 1), (40, 25)],
      replyOf (exec (.bitsX 0x8D p.1 p.2) State.reset) = some (.fault .bitRange) := by
  decide +kernel

/-- V6.10, V6.11, V6.12. -/
theorem test_rmParse :
    replyOf (exec (.rmParse 10200 frameA.toList) State.reset) = some (.message ⟨10200, frameA⟩) ∧
      replyOf (exec (.rmParse 0 frameBad.toList) State.reset) = some .noResult ∧
      replyOf (exec (.rmParse 0 (List.replicate 13 0)) State.reset) = some (.fault .bufferSize) := by
  decide +kernel

/-- V6.10. -/
theorem test_rm_accessors :
    replyOf (exec (.rmDf frameA) State.reset) = some (.df 17) ∧
      replyOf (exec (.rmIcao frameA) State.reset) = some (.icao 0x392AE4) ∧
      replyOf (exec (.rmMe frameA) State.reset) = some (.me 0x99107FB5C00439) ∧
      replyOf (exec (.rmTc (.frame frameA)) State.reset) = some (.tc 19) ∧
      replyOf (exec (.rmTc (.payload 0x202CC371C32CE0)) State.reset) = some (.tc 4) := by
  decide +kernel

/-- V6.15. -/
theorem test_rmClass :
    [0, 1, 4, 5, 8, 9, 18, 19, 20, 22, 23, 31].map (classOf iqd) =
      [.none, .ident, .ident, .none, .none, .position, .position, .velocity, .position, .position, .none, .none] ∧
      replyOf (exec (.rmClass 19) State.reset) = some (.kind .velocity) := by
  decide +kernel

/-- Section 7 of the vectors. -/
theorem test_grayDec :
    (List.range 8).map (grayDec · 3) = [0, 1, 3, 2, 7, 6, 4, 5] ∧ grayDec 0x100 9 = 511 ∧ grayDec 0x1FF 9 = 341 ∧
      replyOf (exec (.grayDec 0x080 9) State.reset) = some (.gray 255) := by
  decide +kernel

/-- R118, log 30: outside the domain of its operand line `GRAY.DEC` runs, and its result is the free value. -/
theorem test_grayDec_outside_domain :
    decode [0x14, 0, 5, 0, 0, 0] = .ok (.grayDec 5 0, []) ∧
      exec (.grayDec 8 3) State.reset = .next { State.reset with out := some (.gray (Config.grayOutsideDomain 8 3)) } :=
  ⟨rfl, rfl⟩

/-- R126 and section 7 of the vectors. -/
theorem test_altDec :
    [0xC38, 0x010, 0xFFF, 0x000, 0x080, 0x800, 0x082, 0x20A, 0x362, 0x084, 0x880, 0x8A2, 0x2CC].map (altDec iqd) =
      [some 38000, some (-1000), some 50175, none, some (-1200), some (-800), some (-300), some 0, some 10000,
        some 126700, none, none, some 120600] ∧
      replyOf (exec (.altDec 0x880) State.reset) = some .noResult := by
  decide +kernel

/-- V7.1, V7.2. -/
theorem test_posDec :
    replyOf (exec (.posDec ⟨6500200, frameEven⟩) State.reset) =
        some (.position ⟨6500200, 0x40621D, 38000, false, 51372, 93000⟩) ∧
      replyOf (exec (.posDec ⟨6630200, frameOdd⟩) State.reset) =
        some (.position ⟨6630200, 0x40621D, 38000, true, 50194, 74158⟩) := by
  decide +kernel

/-- V7.3, V7.5. -/
theorem test_posDec_none :
    replyOf (exec (.posDec ⟨0, frameA⟩) State.reset) = some .noResult ∧
      replyOf (exec (.posDec ⟨0, frameNoAlt⟩) State.reset) = some .noResult := by
  decide +kernel

/-- Section 8 of the vectors, latitudes in degrees. -/
theorem test_cprNl :
    [5, 1047 / 100, 1048 / 100, 45, 522572 / 10000, 60, -60, 865 / 10, 866 / 10, 87, 8701 / 100, 90, -90].map
        (fun d : ℚ => zoneCount (d / 360)) = [59, 59, 58, 42, 36, 29, 29, 3, 2, 2, 1, 1, 1] ∧
      replyOf (exec (.cprNl (1 / 8)) State.reset) = some (.zones 42) := by
  decide +kernel

/-- V8.1, V8.6, V8.10. -/
theorem test_cprDec :
    replyOf (exec (.cprDec 51372 93000 50194 74158 false) State.reset) = some (.global 46759936 623452706) ∧
      replyOf (exec (.cprDec 51372 93000 50194 74158 true) State.reset) = some (.global 46993057 623555046) ∧
      replyOf (exec (.cprDec 0 0 0 16384 true) State.reset) = some (.global 0 (-573268940)) ∧
      replyOf (exec (.cprDec 0 61079 99615 29478 true) State.reset) = some (.global (-1030782976) 1035516564) := by
  decide +kernel

/-- V8.4, V8.5, V8.9: one zone; a latitude past the pole; different zone counts. -/
theorem test_cprDec_edges :
    replyOf (exec (.cprDec 100000 98304 30000 66082 true) State.reset) = some (.global 983040000 1055846053) ∧
      replyOf (exec (.cprDec 0 117965 0 72090 false) State.reset) = some .noResult ∧
      replyOf (exec (.cprDec 1000 97658 1000 93849 false) State.reset) = some .noResult := by
  decide +kernel

/-- R47, R48, R49 on the words of V6.10. -/
theorem test_formats_frame :
    replyOf (exec (.fmtSampleWord 0) State.reset) = some (.sampleValue (-2048)) ∧
      replyOf (exec (.fmtFrameDf17 frameA) State.reset) =
        some (.frameFields ⟨17, 5, 0x392AE4, 0x99107FB5C00439, 0x035DB8⟩) ∧
      replyOf (exec (.fmtFrame (Vector.replicate 14 0x5D)) State.reset) =
        some (.frameFields ⟨11, 5, 0x5D5D5D, 0x5D5D5D5D5D5D5D, 0x5D5D5D⟩) ∧
      replyOf (exec (.fmtMe 0x99107FB5C00439) State.reset) = some (.payloadFields 19 0x1107FB5C00439) := by
  decide +kernel

/-- R50, R51 on the payload of V6.5, and one altitude word of each row. -/
theorem test_formats_payload :
    replyOf (exec (.fmtMePosition 0x58C382D690C8AC) State.reset) = some (.positionFields ⟨11, 0xC38, false, 93000, 51372⟩) ∧
      replyOf (exec (.fmtAltQ1 0xC38) State.reset) = some (.altQ1 0x61 0x8 0x618) ∧
      replyOf (exec (.fmtAltQ0 0x80A) State.reset) =
        some (.altQ0 ⟨true, false, false, false, false, false, false, true, false, true, false⟩) := by
  decide +kernel

/-! ### Witnesses: for each statement with hypotheses, inputs that meet them, each clause at its boundary -/

theorem witness_ResetOperationCompletes :
    (∃ s : State, s.params.pcBatch = 0) ∧ (∃ s : State, s.params.pcBatch = 12 ∧ s.params.pcBatch % 8 ≠ 0) ∧
      (∃ s : State, s.params.pcBatch = 8 ∧ s.params.sdBatch = 0) ∧
      ∃ s : State, ¬(s.params.pcBatch ≤ 0 ∨ s.params.pcBatch % 8 ≠ 0 ∨ s.params.sdBatch ≤ 0) :=
  ⟨⟨{ live with params := ⟨1200, 0, 1⟩ }, rfl⟩, ⟨{ live with params := ⟨1200, 12, 1⟩ }, rfl, by decide⟩,
    ⟨{ live with params := ⟨1200, 8, 0⟩ }, rfl, rfl⟩, ⟨{ live with params := ⟨1200, 8, 1⟩ }, by decide⟩⟩

theorem witness_StreamReadGivesTheNextBytes : 2 ≤ ([1, 2] : List Byte).length := by decide

theorem witness_SampleReadGivesCentredSamples :
    (small 2 [0xFF, 0x0F, 0, 0]).fault = none ∧ ((2 : Nat) : Int) = (small 2 [0xFF, 0x0F, 0, 0]).sdBatch ∧
      readSource (2 * 2) (small 2 [0xFF, 0x0F, 0, 0]).source = .bytes [0xFF, 0x0F, 0, 0] [] ∧
      ∀ j, 2 * j + 1 < ([0xFF, 0x0F, 0, 0] : List Byte).length →
        (([0xFF, 0x0F, 0, 0] : List Byte).getD (2 * j + 1) 0).toNat < 16 := by
  refine ⟨rfl, rfl, rfl, fun j hj => ?_⟩
  have : j < 2 := by
    simp only [List.length_cons, List.length_nil] at hj
    omega
  clear hj
  revert j
  decide

/-- The word 0x1000 is above 4095: for `SD.READ` and `PC.READ` on small batches, for `PW.INIT` and a refill in the chain. -/
theorem witness_UnusableStreamGivesNoResult :
    (0 < ([0x00, 0x10] : List Byte).length ∧ 2 * 0 + 1 < ([0x00, 0x10] : List Byte).length ∧
      16 ≤ (([0x00, 0x10] : List Byte).getD (2 * 0 + 1) 0).toNat ∧ (small 2 [0x00, 0x10]).fault = none ∧
      ((2 : Nat) : Int) = (small 2 [0x00, 0x10]).sdBatch ∧ ((1 : Nat) : Int) = (small 2 [0x00, 0x10]).pcBatch ∧
      2 * ((1 : Nat) : Int) = (small 2 [0x00, 0x10]).sdBatch ∧
      readSource (2 * 2) (small 2 [0x00, 0x10]).source = .bytes [0x00, 0x10] [] ∧
      readSource (4 * 1) (small 2 [0x00, 0x10]).source = .bytes [0x00, 0x10] []) ∧
    (∀ s ∈ [{ State.reset with source := [.byte 0x00, .byte 0x10] }, atRefill [.byte 0x00, .byte 0x10]],
      s.fault = none ∧ ChainConfig s ∧ 1 ≤ s.wsize ∧ s.wsize < 65536 ∧
      readSource 262144 s.source = .bytes [0x00, 0x10] [] ∧
      (s.inited = true → (s.pib.toNat : Int) + s.wsize = 65536)) ∧
    ∀ s ∈ [{ State.reset with source := [.blocks] }, atRefill [.blocks]],
      s.fault = none ∧ ChainConfig s ∧ readSource 262144 s.source = .blocks ∧
      (s.inited = true → s.pib.toNat + 1200 = 65536) := by
  refine ⟨⟨by decide, by decide, by decide, rfl, rfl, rfl, rfl, rfl, rfl⟩, ?_, ?_⟩
  · simp only [List.forall_mem_cons, List.not_mem_nil, false_imp_iff, implies_true, and_true]
    exact ⟨⟨rfl, ⟨rfl, rfl, rfl⟩, by decide, by decide, rfl, fun h => by simp [State.reset] at h⟩, rfl, ⟨rfl, rfl, rfl⟩,
      by decide, by decide, rfl, fun _ => rfl⟩
  · simp only [List.forall_mem_cons, List.not_mem_nil, false_imp_iff, implies_true, and_true]
    exact ⟨⟨rfl, ⟨rfl, rfl, rfl⟩, rfl, fun h => by simp [State.reset] at h⟩, rfl, ⟨rfl, rfl, rfl⟩, rfl, fun _ => rfl⟩

theorem witness_BatchContractsAreEnforced :
    State.reset.fault = none ∧ ((131071 : Nat) : Int) ≠ State.reset.sdBatch ∧ ((65537 : Nat) : Int) ≠ State.reset.pcBatch ∧
      State.reset.inited = false ∧ ¬(1 ≤ ({ State.reset with wsize := 0 } : State).wsize) ∧
      ¬(({ State.reset with wsize := 65536 } : State).wsize < 65536) ∧
      (1 ≤ (small 16 []).wsize ∧ (small 16 []).wsize < 65536 ∧ (small 16 []).pcBatch ≠ 65536) := by
  decide

theorem witness_ReadErrorLatchesCode7 :
    (({ State.reset with source := [.ioError] } : State).fault = none ∧
      ChainConfig { State.reset with source := [.ioError] } ∧
      readSource 262144 ({ State.reset with source := [.ioError] } : State).source = .error ∧
      ({ State.reset with source := [.ioError] } : State).inited = false) ∧
    (atRefill [.ioError]).fault = none ∧ ChainConfig (atRefill [.ioError]) ∧
      readSource 262144 (atRefill [.ioError]).source = .error ∧ (atRefill [.ioError]).inited = true ∧
      (atRefill [.ioError]).pib.toNat + 1200 = 65536 :=
  ⟨⟨rfl, ⟨rfl, rfl, rfl⟩, rfl, rfl⟩, rfl, ⟨rfl, rfl, rfl⟩, rfl, rfl, rfl⟩

theorem witness_PairStepWritesThenSums :
    (6 : BitVec 3).toNat % 2 = 0 ∧ (-2048 : Int) ≤ -2048 ∧ (-2048 : Int) ≤ 2047 ∧ (-2048 : Int) ≤ 2047 ∧
      (2047 : Int) ≤ 2047 := by
  decide

theorem witness_PowerStreamFollowsTheFormula :
    (∀ x ∈ [(-2048 : Int), 2047], -2048 ≤ x ∧ x ≤ 2047) ∧ 0 < [(-2048 : Int), 2047].length / 2 ∧
      [(-2048 : Int), 2047].length % 2 = 0 := by
  decide

theorem witness_PowerReadCompletes :
    (small 2 [0x00, 0x08, 0xFF, 0x0F]).fault = none ∧ ((1 : Nat) : Int) = (small 2 [0x00, 0x08, 0xFF, 0x0F]).pcBatch ∧
      2 * ((1 : Nat) : Int) = (small 2 [0x00, 0x08, 0xFF, 0x0F]).sdBatch ∧
      readSource (4 * 1) (small 2 [0x00, 0x08, 0xFF, 0x0F]).source = .bytes [0x00, 0x08, 0xFF, 0x0F] [] ∧
      samplesOf [0x00, 0x08, 0xFF, 0x0F] = some [0, 2047] := by
  decide

theorem witness_WritesLandInTheirBank :
    State.reset.mem.wf = true ∧ 65535 < 65536 ∧ ([5, 0] : List Power).length ≤ 65536 := by
  decide

theorem witness_WindowInitCompletes :
    (∀ w ∈ [(1 : Int), 65535], 1 ≤ ({ State.reset with wsize := w } : State).wsize ∧
      ({ State.reset with wsize := w } : State).wsize < 65536) ∧
    State.reset.fault = none ∧ State.reset.inited = false ∧ State.reset.pcBatch = 65536 ∧
      State.reset.sdBatch = 131072 ∧ readSource 262144 State.reset.source = .bytes [] [] ∧ samplesOf [] = some [] :=
  ⟨by decide, rfl, rfl, rfl, rfl, rfl, rfl⟩

theorem witness_WindowGetReadsTheLocatedEntry :
    live.fault = none ∧ live.inited = true ∧ (0 : Int) < live.wsize ∧ (1199 : Int) < live.wsize ∧
      ({ live with pib := 64336 } : State).pib.toNat + (1199 : Int).toNat < 65536 ∧
      65536 ≤ ({ live with pib := 64337 } : State).pib.toNat + (1199 : Int).toNat ∧ (-1 : Int) < 0 ∧
      live.wsize ≤ (1200 : Int) := by
  decide

theorem witness_WindowStatusCompletes :
    live.fault = none ∧ live.inited = true ∧
      ((({ live with nloaded := 1200 } : State).pos.toNat : Int) + live.wsize ≤
        (({ live with nloaded := 1200 } : State).nloaded.toNat : Int)) ∧
      (({ live with nloaded := 1199 } : State).nloaded.toNat : Int) <
        (({ live with nloaded := 1199 } : State).pos.toNat : Int) + live.wsize ∧
      ({ live with fault := some .ioError } : State).fault ≠ none ∧ State.reset.inited = false := by
  decide

theorem witness_AdvanceWithoutRefillCompletes :
    live.fault = none ∧ live.inited = true ∧ ((live.pib.toNat : Int) + live.wsize ≠ 65536) ∧
      (live.pos.toNat + 1) * 100 ≤ 2 ^ 63 - 1 ∧ ({ live with pib := 65534 } : State).pib.toNat < 65535 ∧
      (({ live with pib := 65535 } : State).pib.toNat = 65535 ∧
        (({ live with pib := 65535 } : State).pib.toNat : Int) + live.wsize ≠ 65536) ∧
      (({ live with pos := 92233720368547757 } : State).pos.toNat + 1) * 100 ≤ 2 ^ 63 - 1 := by
  decide

theorem witness_AdvanceWithRefillCompletes :
    ((atRefill []).fault = none ∧ (atRefill []).inited = true ∧ ((atRefill []).pib.toNat : Int) + (atRefill []).wsize = 65536 ∧
      (atRefill []).pcBatch = 65536 ∧ (atRefill []).sdBatch = 131072 ∧
      readSource 262144 (atRefill []).source = .bytes [] [] ∧ samplesOf [] = some [] ∧
      (atRefill []).nloaded.toNat + ([] : List Int).length / 2 < 2 ^ 64 ∧
      ((atRefill []).pos.toNat + 1) * 100 ≤ 2 ^ 63 - 1) ∧
    (({ atRefill [] with wsize := 1, pib := 65535 } : State).pib.toNat : Int) +
      ({ atRefill [] with wsize := 1, pib := 65535 } : State).wsize = 65536 :=
  ⟨⟨rfl, rfl, rfl, rfl, rfl, rfl, rfl, by decide, by decide⟩, rfl⟩

theorem witness_AdvanceByIsRepeatedAdvance :
    (live.fault = none ∧ live.inited = true ∧ (0 : Int) ≤ 0 ∧ (1 : Int) ≤ 1) ∧
      (∃ t, exec .pwAdv live = .next t ∧ t.fault = none) ∧
      (∃ t, exec .pwAdv (atRefill [.ioError]) = .next t ∧ t.fault ≠ none) ∧
      (∃ r, exec .pwAdv { live with pos := 92233720368547758 } = .refused r) ∧
      ∃ r, exec .pwAdv (atRefill [.blocks]) = .fault r := by
  refine ⟨⟨rfl, rfl, le_rfl, le_rfl⟩, ⟨_, rfl, rfl⟩, ?_, ⟨.counterRange, rfl⟩, ⟨.neverReturns, rfl⟩⟩
  obtain ⟨t, ht, hf⟩ := after_some (show after (exec .pwAdv (atRefill [.ioError])) State.fault = some (some .ioError) by
    decide +kernel)
  exact ⟨t, ht, by simp [hf]⟩

theorem witness_AdvanceByCompletes :
    live.fault = none ∧ live.inited = true ∧ ChainConfig live ∧ SourceClean live ∧ RoomFor live 1 ∧ 0 < 1 :=
  ⟨rfl, rfl, ⟨rfl, rfl, rfl⟩, ⟨[], rfl, rfl⟩, by unfold RoomFor; decide, by decide⟩

theorem witness_ReadErrorKeepsTheStepsBefore :
    ∃ t, exec (.pwAdvn 2) { atRefill [.ioError] with pos := 64335, pib := 64335 } = .next t ∧ t.fault = some .ioError :=
  after_some (by decide +kernel)

theorem witness_WindowShowsThePowerStream :
    samplesOf [] = some [] ∧ (0 + 5 * ([] : List Byte).length + 2400) * 100 ≤ 2 ^ 63 - 1 ∧ 1199 < 1200 := by
  decide

/-- Among the states that the statement is about are full windows: 1200 pairs of zeros. -/
theorem witness_WindowShowsThePowerStream_full :
    ∃ b xs, samplesOf b = some xs ∧ (0 + 5 * b.length + 2400) * 100 ≤ 2 ^ 63 - 1 ∧ 0 + 1200 ≤ xs.length / 2 := by
  refine ⟨stream (List.replicate 2400 0), List.replicate 2400 0, ?_, ?_, ?_⟩ <;> decide +kernel

theorem witness_FrameBitsAreComparisons : 7 < 8 ∧ (13 : Fin 14).val = 13 := by decide

/-- A position that shows a valid frame; one that does not, with an advance that goes on, raises, is refused, or never returns; and a
frame whose time stamp is out of range. -/
theorem witness_DemodulatorSatisfiesItsLoop :
    (ChainConfig (heard frameA) ∧ accepts iqd (heard frameA) = true ∧ (frameBytes iqd (heard frameA))[0].toNat / 8 = 17 ∧
      crcBytewise (frameBytes iqd (heard frameA)).toList = 0 ∧ (heard frameA).fault = none ∧ (heard frameA).inited = true ∧
      (((heard frameA).pos.toNat : Int) + (heard frameA).wsize ≤ (heard frameA).nloaded.toNat) ∧
      (heard frameA).pos.toNat * 100 ≤ 2 ^ 63 - 1) ∧
    (ChainConfig late ∧ accepts iqd late = true ∧ (frameBytes iqd late)[0].toNat / 8 = 17 ∧
      crcBytewise (frameBytes iqd late).toList = 0 ∧ late.fault = none ∧ late.inited = true ∧
      ((late.pos.toNat : Int) + late.wsize ≤ late.nloaded.toNat) ∧ 2 ^ 63 - 1 < late.pos.toNat * 100) ∧
    (ChainConfig { live with nloaded := 1200 } ∧ accepts iqd { live with nloaded := 1200 } = false ∧
      ∃ t, exec .pwAdv { live with nloaded := 1200, prev := BitVec.ofNat 30 0 } = .next t ∧ t.fault = none) ∧
    (ChainConfig (atRefill [.ioError]) ∧ accepts iqd (atRefill [.ioError]) = false ∧
      (((atRefill [.ioError]).pos.toNat : Int) + (atRefill [.ioError]).wsize ≤ (atRefill [.ioError]).nloaded.toNat) ∧
      ∃ t, exec .pwAdv { atRefill [.ioError] with prev := BitVec.ofNat 30 0 } = .next t ∧ t.fault ≠ none) ∧
    (∃ r, exec .pwAdv { live with nloaded := 2 ^ 63, pos := 92233720368547758, prev := BitVec.ofNat 30 0 } = .refused r) ∧
    ∃ r, exec .pwAdv { atRefill [.blocks] with prev := BitVec.ofNat 30 0 } = .fault r := by
  refine ⟨⟨⟨rfl, rfl, rfl⟩, ?_⟩, ⟨⟨rfl, rfl, rfl⟩, ?_⟩, ⟨⟨rfl, rfl, rfl⟩, by decide +kernel, _, rfl, rfl⟩,
    ⟨⟨rfl, rfl, rfl⟩, by decide +kernel, by decide +kernel, ?_⟩, ⟨.counterRange, rfl⟩, ⟨.neverReturns, rfl⟩⟩
  · decide +kernel
  · decide +kernel
  · obtain ⟨t, ht, hf⟩ := after_some (show after (exec .pwAdv { atRefill [.ioError] with prev := BitVec.ofNat 30 0 }) State.fault =
      some (some .ioError) by decide +kernel)
    exact ⟨t, ht, by simp [hf]⟩

/-- An advance of 1200 samples that goes on, raises, is refused, and never returns. -/
theorem witness_DemodulatorSatisfiesItsLoop_frame :
    (∃ t, exec (.pwAdvn 1200) { heard frameA with prev := 16 } = .next t ∧ t.fault = none) ∧
      (∃ t, exec (.pwAdvn 1200) (atRefill [.ioError]) = .next t ∧ t.fault = some .ioError) ∧
      (∃ r, exec (.pwAdvn 1200) { live with pos := 92233720368547758 } = .refused r) ∧
      ∃ r, exec (.pwAdvn 1200) (atRefill [.blocks]) = .fault r :=
  ⟨after_some (by decide +kernel), after_some (by decide +kernel), ⟨.counterRange, rfl⟩, ⟨.neverReturns, rfl⟩⟩

theorem witness_DemodulatorCompletes :
    live.fault = none ∧ live.inited = true ∧ ChainConfig live ∧ SourceClean live ∧ RoomFor live 2400 :=
  ⟨rfl, rfl, ⟨rfl, rfl, rfl⟩, ⟨[], rfl, rfl⟩, by unfold RoomFor; decide⟩

theorem witness_EndOfStreamReturnsTheSentinel :
    ({ live with nloaded := 1199 } : State).fault = none ∧ ({ live with nloaded := 1199 } : State).inited = true ∧
      (({ live with nloaded := 1199 } : State).nloaded.toNat : Int) <
        (({ live with nloaded := 1199 } : State).pos.toNat : Int) + ({ live with nloaded := 1199 } : State).wsize := by
  decide

theorem witness_ReturnedFrameIsValid :
    ∃ t, exec .dmNext (heard frameA) = .next t ∧ t.out = some (.frame 0 frameA) :=
  after_some (by decide +kernel)

theorem witness_DemodulatorRaisesNoContractViolation :
    ChainConfig (heard frameA) ∧ ∃ t, exec .dmNext (heard frameA) = .next t :=
  ⟨⟨rfl, rfl, rfl⟩, witness_ReturnedFrameIsValid.imp fun _ h => h.1⟩

theorem witness_CrcTableMethodIsTheReference : State.reset.fault = none := rfl

theorem witness_CrcCheckComparesWithZero :
    State.reset.fault = none ∧ (frameA.toList.length = 14 ∧ crcBytewise frameA.toList = 0) ∧
      (frameBad.toList.length = 14 ∧ crcBytewise frameBad.toList ≠ 0) ∧ (List.replicate 13 (0 : Byte)).length ≠ 14 ∧
      (List.replicate 15 (0 : Byte)).length ≠ 14 := by
  decide +kernel

theorem witness_CrcIsThePolynomialRemainder :
    ∃ poly : (w : Nat) → BitVec w → Polynomial (ZMod 2),
      ∀ w v, poly w v = ∑ i ∈ Finset.range w, if v.getLsbD i then Polynomial.X ^ i else 0 :=
  ⟨fun w v => ∑ i ∈ Finset.range w, if v.getLsbD i then Polynomial.X ^ i else 0, fun _ _ => rfl⟩

theorem witness_AppendedCrcGivesZero : (0xFFF409 : BitVec 24) = crcBytewise [0x01] := by decide +kernel

theorem witness_CrcIsLinear : ([0x80, 0x01] : List Byte).length = ([0xFF, 0x00] : List Byte).length := rfl

theorem witness_BitsExtractOrReject :
    State.reset.fault = none ∧
      (∀ p ∈ [((0 : Int), (0 : Int)), (33, 31), (64, 0)], 0 ≤ p.2 ∧ p.2 ≤ 31 ∧ 0 ≤ p.1 ∧ p.1 + p.2 ≤ 64) ∧
      ∀ p ∈ [((0 : Int), (-1 : Int)), (0, 32), (-1, 0), (34, 31)], p.2 < 0 ∨ 31 < p.2 ∨ p.1 < 0 ∨ 64 < p.1 + p.2 := by
  decide

theorem witness_ParseKeepsValidFrames :
    State.reset.fault = none ∧ crcBytewise frameA.toList = 0 ∧ crcBytewise frameBad.toList ≠ 0 ∧
      (List.replicate 13 (0 : Byte)).length ≠ 14 := by
  decide +kernel

theorem witness_AccessorsReadTheirFields : State.reset.fault = none := rfl

theorem witness_AddressAndClassComplete : State.reset.fault = none := rfl

theorem witness_GrayDecodeInvertsGrayEncode :
    State.reset.fault = none ∧ (1 ≤ 1 ∧ 1 ≤ 31 ∧ 1 < 2 ^ 1) ∧ (1 ≤ 31 ∧ 31 ≤ 31 ∧ 2 ^ 31 - 1 < 2 ^ 31) := by
  decide

theorem witness_LinearAltitudeCompletes :
    State.reset.fault = none ∧ (0x010 : BitVec 12).getLsbD 4 = true ∧ (0xFFF : BitVec 12).getLsbD 4 = true := by
  decide

/-- Q = 0 with the low groups 0, 7, 1 and 4, the last with an odd high group. -/
theorem witness_GrayAltitudeFollowsItsGroups :
    State.reset.fault = none ∧ (((0x000 : BitVec 12).getLsbD 4).toNat = 0 ∧ 0 ^^^ (0 / 2) = 0) ∧
      (((0x800 : BitVec 12).getLsbD 4).toNat = 0 ∧ 7 ^^^ (7 / 2) = 1 * 4 + 0 * 2 + 0) ∧
      (((0x080 : BitVec 12).getLsbD 4).toNat = 0 ∧ 1 ^^^ (1 / 2) = 0 * 4 + 0 * 2 + 1) ∧
      ((0xA02 : BitVec 12).getLsbD 4).toNat = 0 ∧ 4 ^^^ (4 / 2) = 1 * 4 + 1 * 2 + 0 ∧ 1 ^^^ (1 / 2) = 1 := by
  decide

theorem witness_GrayAltitudesCoverEveryStepOnce :
    (0x080 : BitVec 12).getLsbD 4 = false ∧ altDec iqd 0x080 = some (-1200) ∧ (0x084 : BitVec 12).getLsbD 4 = false ∧
      altDec iqd 0x084 = some 126700 := by
  decide +kernel

theorem witness_PositionRecordCollectsItsFields :
    State.reset.fault = none ∧ classOf iqd (BitVec.ofNat 5 ((frameMe frameA).toNat / 2 ^ 51)) ≠ .position ∧
      (classOf iqd (BitVec.ofNat 5 ((frameMe frameNoAlt).toNat / 2 ^ 51)) = .position ∧
        altDec iqd (BitVec.ofNat 12 ((frameMe frameNoAlt).toNat / 2 ^ 36)) = none) ∧
      classOf iqd (BitVec.ofNat 5 ((frameMe frameEven).toNat / 2 ^ 51)) = .position ∧
      altDec iqd (BitVec.ofNat 12 ((frameMe frameEven).toNat / 2 ^ 36)) = some 38000 := by
  decide +kernel

theorem witness_RoundingIsNearestTiesToEven :
    (1 ≤ 1 ∧ 60 ≤ 60) ∧ ∃ t : ℚ, t = 1 / ((60 : Nat) : ℚ) * (((-1 : Int) : ℚ) + ((131071 : BitVec 17).toNat : ℚ) / 2 ^ 17) :=
  ⟨by decide, _, rfl⟩

theorem witness_ZoneCountCompletes : State.reset.fault = none := rfl

/-- At 45 degrees the folded latitude is 1/8, not within the last digit of any threshold. -/
theorem witness_ZoneCountIsTheCosineFormula :
    foldLat (1 / 8) ≠ 0 ∧ 42 = zoneCount (1 / 8) ∧
      ∀ r ∈ zoneTable, ¬((r.num : ℚ) - r.slack < foldLat (1 / 8) * r.den ∧ foldLat (1 / 8) * r.den < (r.num : ℚ) + r.slack) := by
  decide +kernel

theorem witness_RawLatitudesAreNeverUndecided :
    (⟨2, 87, 360, 0⟩ : ZoneRow) ∈ zoneTable ∧ (⟨59, 290846424999133, 10 ^ 16, 1⟩ : ZoneRow) ∈ zoneTable := by
  decide +kernel

/-- V8.9: the zone counts differ. V8.5: the latitude is out of range. V8.4: one zone. V8.1: 36 zones. -/
theorem witness_CombinerFollowsItsSteps :
    (∃ c : ℚ → ℚ, ∀ t, c t = if 1 / 2 ≤ t then t - 1 else t) ∧ State.reset.fault = none ∧
      zoneCount (angle (zphi (97658 / 2 ^ 17) (93849 / 2 ^ 17)) 59 (93849 / 2 ^ 17)) ≠
        zoneCount (angle (zphi (97658 / 2 ^ 17) (93849 / 2 ^ 17)) 60 (97658 / 2 ^ 17)) ∧
      ¬(t32 (center (angle (zphi (117965 / 2 ^ 17) (72090 / 2 ^ 17)) 60 (117965 / 2 ^ 17))) ≤ 2 ^ 30) ∧
      (∀ y ∈ [((98304 : ℚ), (66082 : ℚ), 1), (93000, 74158, 36)],
        zoneCount (angle (zphi (y.1 / 2 ^ 17) (y.2.1 / 2 ^ 17)) 60 (y.1 / 2 ^ 17)) = y.2.2 ∧
        zoneCount (angle (zphi (y.1 / 2 ^ 17) (y.2.1 / 2 ^ 17)) 59 (y.2.1 / 2 ^ 17)) = y.2.2 ∧
        -2 ^ 30 ≤ t32 (center (angle (zphi (y.1 / 2 ^ 17) (y.2.1 / 2 ^ 17)) 60 (y.1 / 2 ^ 17))) ∧
        t32 (center (angle (zphi (y.1 / 2 ^ 17) (y.2.1 / 2 ^ 17)) 60 (y.1 / 2 ^ 17))) ≤ 2 ^ 30 ∧
        -2 ^ 30 ≤ t32 (center (angle (zphi (y.1 / 2 ^ 17) (y.2.1 / 2 ^ 17)) 59 (y.2.1 / 2 ^ 17))) ∧
        t32 (center (angle (zphi (y.1 / 2 ^ 17) (y.2.1 / 2 ^ 17)) 59 (y.2.1 / 2 ^ 17))) ≤ 2 ^ 30) := by
  refine ⟨⟨fun t => if 1 / 2 ≤ t then t - 1 else t, fun _ => rfl⟩, ?_⟩
  decide +kernel

theorem witness_CombinedPositionIsInRange : cprDec 51372 93000 50194 74158 false = some (46759936, 623452706) := by
  decide +kernel

theorem witness_SampleAndFrameWordsAreTakenApart :
    ∃ W, W = frameA.toList.foldl (fun n b => n * 256 + b.toNat) 0 :=
  ⟨_, rfl⟩

theorem witness_RefusedCallsHaveNoTransition :
    (({ live with fault := some .index } : State).fault ≠ none ∧ isFormat .pwPos = false ∧ Instr.pwPos ≠ .reset) ∧
      (State.reset.fault = none ∧ State.reset.inited = false ∧ needsInit .dmNext = true) ∧
      (live.fault = none ∧ live.inited = true ∧ isStateless (.grayDec 0 0) = true) ∧ isFormat (.fmtAltQ0 0) = true := by
  decide

theorem witness_OnlyResetClearsTheFault :
    ∃ t, step { live with fault := some .index, requests := [0x20, 0x00, 0x00] } = .next t ∧
      ({ live with fault := some .index } : State).fault ≠ none :=
  ⟨_, rfl, by decide⟩

theorem witness_StatelessOperationsTouchNoState :
    (isStateless (.bitsX 0 0 32) = true ∧ ∃ t, exec (.bitsX 0 0 32) State.reset = .next t) ∧
      (isStateless (.crcByte []) = true ∧ ∃ t, exec (.crcByte []) live = .next t) ∧ live.fault = none ∧
      ∃ t, exec (.sdRead 1) (small 2 []) = .next t :=
  ⟨⟨rfl, _, rfl⟩, ⟨rfl, _, rfl⟩, rfl, _, rfl⟩

theorem witness_RegistersHaveTheirWriters :
    (∃ t, exec (.pcRead 1) (small 2 [0, 8, 1, 8]) = .next t) ∧ writesWindow (.pcRead 1) = false ∧
      (∃ t, exec .pwFull live = .next t) ∧ writesWindow .pwFull = false :=
  ⟨(after_some (f := State.k) (v := 2) (by decide +kernel)).imp fun _ h => h.1, rfl, ⟨_, rfl⟩, rfl⟩

theorem reset_inv : Inv State.reset :=
  ⟨rfl, rfl, rfl, rfl, rfl, by decide, by decide⟩

theorem live_inv : Inv live :=
  ⟨rfl, rfl, rfl, rfl, rfl, by decide, by decide⟩

/-- A state in the middle of a stream, at the refill point, with a request to advance. -/
theorem witness_EveryStepKeepsTheInvariant :
    Inv { atRefill [] with requests := [0x06] } ∧ ∃ t, step { atRefill [] with requests := [0x06] } = .next t :=
  ⟨⟨rfl, rfl, rfl, by decide, rfl, by decide, by decide⟩,
    (after_some (f := fun t => t.pos) (v := 64337) (by decide +kernel)).imp fun _ h => h.1⟩

theorem witness_EveryStepKeepsThePowerBound :
    PowerBound { live with requests := [0x06] } ∧ ∃ t, step { live with requests := [0x06] } = .next t :=
  ⟨⟨fun b k => by rw [show ({ live with requests := [0x06] } : State).mem = ⟨[], []⟩ from rfl, Laws.memRead_empty]; decide,
    by decide⟩, _, rfl⟩

theorem witness_DecodeOfEncodeIsTheInstruction :
    WellFormed (.pwGet (-2 ^ 63)) = true ∧ WellFormed (.grayDec (2 ^ 31 - 1) 31) = true ∧
      WellFormed (.fmtFrameDf17 frameA) = true ∧ WellFormed (.cprNl (1 / 2 ^ 64)) = true := by
  decide +kernel

theorem witness_DecodedRequestsAreWellFormed : decode [0x04, 0, 0, 0, 0, 0, 0, 0, 0x80] = .ok (.pwGet (-2 ^ 63), []) := rfl

theorem witness_SelectCodesAreTheTables :
    ({ live with requests := [0x1F] } : State).requests = BitVec.ofNat 8 (25 + (6 : Fin 7).val) :: [] := rfl

theorem witness_StepRunsTheNextRequest :
    (WellFormed (.pwAdvn 1200) = true ∧
      ({ live with requests := encode (.pwAdvn 1200) ++ [0x08] } : State).requests = encode (.pwAdvn 1200) ++ [0x08]) ∧
      live.requests = [] :=
  ⟨⟨rfl, rfl⟩, rfl⟩

end Sys2Proof.Tests
end

