-- ==== Sys2Proof/Proofs/Stateless.lean ====
section
/-! PROOF. The stateless operations (R25): each has an answer that its operands fix, and giving it touches the result and
`FAULT` alone. -/

namespace Sys2Proof.Proofs

open Sys2Proof.Machine Sys2Proof.Laws

/-! ### An answer and the state that gives it -/

/-- The state after an operation whose answer is a result for the host, or a fault that it takes (R140). -/
def answered (v : Except Cause Reply) (s : State) : State :=
  match v with
  | .ok r => s.reply r
  | .error c => s.takeFault c

@[simp] theorem answered_ok (r : Reply) (s : State) : answered (.ok r) s = s.reply r := rfl

@[simp] theorem answered_error (c : Cause) (s : State) : answered (.error c) s = s.takeFault c := rfl

theorem answered_frame (v : Except Cause Reply) (s : State) :
    ∃ f o, answered v s = { s with fault := f, out := o } ∧ (f ≠ s.fault → ∃ c, f = some c ∧ o = some (.fault c)) := by
  cases v with
  | ok r => exact ⟨s.fault, some r, rfl, fun h => absurd rfl h⟩
  | error c => exact ⟨some c, some (.fault c), rfl, fun _ => ⟨c, rfl, rfl⟩⟩

theorem answered_out_eq (v : Except Cause Reply) (s s' : State) : (answered v s').out = (answered v s).out := by
  cases v <;> rfl

theorem answered_fault_eq (v : Except Cause Reply) {s s' : State} (h : s'.fault = s.fault) :
    (answered v s').fault = (answered v s).fault := by
  cases v with
  | ok r => exact h
  | error c => rfl

/-! ### The operations that may raise -/

theorem deliver_crcChk (b : List Byte) (f : Bool → Reply) :
    ∃ v, ∀ s, deliver (crcChk b s) f = .next (answered v s) := by
  by_cases h : b.length = 14
  · exact ⟨.ok (f (crcBytewise b == 0)), fun s => by simp [crcChk, h]⟩
  · exact ⟨.error .bufferSize, fun s => by simp [crcChk, h]⟩

theorem deliver_bitsX (value : BitVec 64) (start size : Int) (f : Nat → Reply) :
    ∃ v, ∀ s, deliver (bitsX value start size s) f = .next (answered v s) := by
  by_cases hsize : 0 ≤ size ∧ size ≤ 31
  · by_cases hstart : 0 ≤ start ∧ start + size ≤ 64
    · exact ⟨.ok (f (field value.toNat start.toNat size.toNat)), fun s => by simp [bitsX, hsize, hstart]⟩
    · exact ⟨.error .bitRange, fun s => by simp [bitsX, hsize, hstart]⟩
  · exact ⟨.error .bitRange, fun s => by simp [bitsX, hsize]⟩

theorem deliver_rmParse (ts : BitVec 64) (b : List Byte) (f : Option Message → Reply) :
    ∃ v, ∀ s, deliver (rmParse ts b s) f = .next (answered v s) := by
  unfold rmParse
  cases frameOfList b with
  | none => exact ⟨.error .bufferSize, fun _ => rfl⟩
  | some g => exact ⟨.ok _, fun _ => rfl⟩

/-! ### Every stateless operation -/

/-- R25: the answer `v` is the same for all states; a state only decides, by `FAULT`, whether the call is refused. -/
theorem exec_of_isStateless {i : Instr} (hi : isStateless i = true) :
    ∃ v, ∀ s, exec i s = guarded s (.next (answered v s)) :=
  match i, hi with
  | .crcBit b, _ => ⟨.ok (.crc (crcBitwise b)), fun _ => rfl⟩
  | .crcByte b, _ => ⟨.ok (.crc (crcBytewise b)), fun _ => rfl⟩
  | .crcChk b, _ => (deliver_crcChk b .bool).imp fun _ h s => congrArg (guarded s) (h s)
  | .bitsX value start size, _ => (deliver_bitsX value start size .bits).imp fun _ h s => congrArg (guarded s) (h s)
  | .rmParse ts b, _ => (deliver_rmParse ts b messageReply).imp fun _ h s => congrArg (guarded s) (h s)
  | .rmDf f, _ => ⟨.ok (.df (frameDf f)), fun _ => rfl⟩
  | .rmIcao f, _ => ⟨.ok (.icao (frameIcao f)), fun _ => rfl⟩
  | .rmMe f, _ => ⟨.ok (.me (frameMe f)), fun _ => rfl⟩
  | .rmTc src, _ => ⟨.ok (.tc (payloadTc (tcPayload src))), fun _ => rfl⟩
  | .rmClass tc, _ => ⟨.ok (.kind (classOf iqd tc)), fun _ => rfl⟩
  | .grayDec g w, _ => ⟨.ok (.gray (grayResult g w)), fun _ => rfl⟩
  | .altDec alt, _ => ⟨.ok (altReply (altDec iqd alt)), fun _ => rfl⟩
  | .posDec msg, _ => ⟨.ok (positionReply (posDec iqd msg)), fun _ => rfl⟩
  | .cprNl lat, _ => ⟨.ok (.zones (zoneCount lat)), fun _ => rfl⟩
  | .cprDec x0 y0 x1 y1 recent, _ => ⟨.ok (globalReply (cprDec x0 y0 x1 y1 recent)), fun _ => rfl⟩

/-! ### `SD.READ` -/

theorem exec_sdRead_frame {n : Nat} {s t : State} (h : exec (.sdRead n) s = .next t) :
    ∃ src ctr f o, t = { s with source := src, freeCtr := ctr, fault := f, out := o } := by
  obtain ⟨-, hd⟩ := guarded_eq_next.1 h
  obtain ⟨xs, u, hok, rfl⟩ | ⟨c, u, hraised, rfl⟩ := deliver_eq_next.1 hd
  · obtain ⟨-, b, rest, -, -, rfl⟩ := sdRead_eq_ok.1 hok
    exact ⟨rest, s.freeCtr, s.fault, _, rfl⟩
  · obtain ⟨-, -, rfl⟩ | ⟨-, -, -, rfl⟩ := sdRead_eq_raised.1 hraised
    · exact ⟨u.source, u.freeCtr, some c, _, rfl⟩
    · exact ⟨_, _, some c, _, rfl⟩

/-- Settles O52: a stateless operation gives the answer its operands fix, and `SD.READ` moves the source alone. -/
theorem statelessOperationsTouchNoState : Obligations.StatelessOperationsTouchNoState := by
  refine ⟨fun i s t hi h => ?_, fun n s t => exec_sdRead_frame⟩
  obtain ⟨v, hv⟩ := exec_of_isStateless hi
  rw [hv, guarded_eq_next] at h
  obtain ⟨hs, ht⟩ := h
  cases ht
  refine ⟨answered_frame v s, fun s' hs' => ⟨answered v s', ?_, answered_out_eq v s s', ?_⟩⟩
  · rw [hv, guarded_of_none hs']
  · exact answered_fault_eq v (hs'.trans hs.symm)

end Sys2Proof.Proofs
end

