-- ==== Sys2Proof/Proofs/WindowStatus.lean ====
section
/-! PROOF. The two operations that read the status of the power window (R78, R79). -/

namespace Sys2Proof.Proofs

open Sys2Proof.Machine Sys2Proof.Laws

/-- R143, R147: the test before a window operation refuses with a reason that does not depend on the operation. -/
theorem guardedInit_refuses {s : State} (h : s.fault ≠ none ∨ s.inited = false) :
    ∃ r, ∀ body, guardedInit s body = .refused r := by
  by_cases hf : s.fault = none
  · have hi : s.inited = false := h.resolve_left (absurd hf)
    exact ⟨.notInitialised, guardedInit_of_not_inited hf hi⟩
  · exact ⟨.faultLatched, fun _ => guarded_of_fault hf _⟩

theorem windowFull_eq_true {s : State} : windowFull s = true ↔ (s.pos.toNat : Int) + s.wsize ≤ s.nloaded.toNat :=
  decide_eq_true_iff

theorem windowFull_eq_false {s : State} : windowFull s = false ↔ (s.nloaded.toNat : Int) < s.pos.toNat + s.wsize :=
  decide_eq_false_iff_not.trans Int.not_le

theorem exec_pwFull {s : State} (hf : s.fault = none) (hi : s.inited = true) :
    exec .pwFull s = .next (s.reply (.bool (windowFull s))) :=
  guardedInit_of hf hi _

theorem exec_pwPos {s : State} (hf : s.fault = none) (hi : s.inited = true) :
    exec .pwPos s = .next (s.reply (.pos s.pos)) :=
  guardedInit_of hf hi _

/-- Settles O14: behind its test each operation replies at once, and the test refuses both alike. -/
theorem windowStatusCompletes : Obligations.WindowStatusCompletes := by
  refine fun s => ⟨fun hf hi => ⟨fun hle => ?_, fun hlt => ?_, exec_pwPos hf hi⟩, fun h => ?_⟩
  · rw [exec_pwFull hf hi, windowFull_eq_true.2 hle, State.reply]
  · rw [exec_pwFull hf hi, windowFull_eq_false.2 hlt, State.reply]
  · obtain ⟨r, hr⟩ := guardedInit_refuses h
    exact ⟨r, hr _, hr _⟩

end Sys2Proof.Proofs
end

