-- ==== Sys2Proof/Proofs/Acceptance.lean ====
section
/-! PROOF. The acceptance test of the preamble detector (R87, R89). -/

namespace Sys2Proof.Proofs

open Sys2Proof.Machine

theorem peak_zero (s : State) : peak s 0 = g s 0 + g s 10 + g s 35 + g s 45 := rfl

theorem peak_nextOfs (s : State) : peak s iqd.nextOfs = g s 10 + g s 20 + g s 45 + g s 55 := rfl

theorem valley_zero (s : State) : valley s 0 = g s 5 + g s 15 + g s 20 + g s 25 + g s 30 + g s 40 := rfl

theorem accepts_eq_true {cfg : Config} {s : State} :
    accepts cfg s = true ↔
      2 * valley s 0 ≤ peak s 0 ∧ peak s cfg.nextOfs < peak s 0 ∧ s.prev.toNat < peak s 0 := by
  simp only [accepts, Bool.and_eq_true, decide_eq_true_iff, and_assoc]

/-- Settles O21: the test is its three comparisons, and in the chain the later sum stands at offset 10. -/
theorem acceptanceIsThreeComparisons : Obligations.AcceptanceIsThreeComparisons := by
  intro s
  rw [accepts_eq_true, peak_zero, peak_nextOfs, valley_zero]

end Sys2Proof.Proofs
end

