-- ==== Sys2Proof/Proofs/CrcCheck.lean ====
section
/-! PROOF. The CRC check of a frame given as bytes (R105). -/

namespace Sys2Proof.Proofs

open Sys2Proof.Machine Sys2Proof.Laws

theorem crcChk_of_length {b : List Byte} (hl : b.length = 14) (s : State) :
    crcChk b s = .ok (crcBytewise b == 0) s :=
  if_neg (not_not_intro hl)

theorem crcChk_of_length_ne {b : List Byte} (hl : b.length ≠ 14) (s : State) :
    crcChk b s = .raised .bufferSize s :=
  if_pos hl

theorem exec_crcChk {s : State} (hf : s.fault = none) (b : List Byte) :
    exec (.crcChk b) s = deliver (crcChk b s) .bool :=
  guarded_of_none hf _

theorem exec_crcChk_of_length {s : State} {b : List Byte} (hf : s.fault = none) (hl : b.length = 14) :
    exec (.crcChk b) s = .next (s.reply (.bool (crcBytewise b == 0))) := by
  rw [exec_crcChk hf, crcChk_of_length hl, deliver_of_ok]

theorem exec_crcChk_of_length_ne {s : State} {b : List Byte} (hf : s.fault = none) (hl : b.length ≠ 14) :
    exec (.crcChk b) s = .next (s.takeFault .bufferSize) := by
  rw [exec_crcChk hf, crcChk_of_length_ne hl, deliver_of_raised]

/-- Settles O28: the length alone decides between a reply and code 2, and the CRC decides the reply. -/
theorem crcCheckComparesWithZero : Obligations.CrcCheckComparesWithZero := by
  refine fun s b hf => ⟨fun hl h0 => ?_, fun hl h0 => ?_, exec_crcChk_of_length_ne hf⟩
  · rw [exec_crcChk_of_length hf hl, beq_iff_eq.2 h0, State.reply]
  · rw [exec_crcChk_of_length hf hl, beq_eq_false_iff_ne.2 h0, State.reply]

end Sys2Proof.Proofs
end

