-- ==== Sys2Proof/Proofs/FrameFields.lean ====
section
/-! PROOF. The fields of a frame and of a payload as numbers over their bytes and bits (R110, R112, R114). -/

namespace Sys2Proof.Proofs

open Sys2Proof.Machine Sys2Proof.Laws

/-! ### Fields and joined bytes as numbers -/

theorem field_eq (v lo width : Nat) : field v lo width = v / 2 ^ lo % 2 ^ width := by
  rw [field, Nat.shiftRight_eq_div_pow]

/-- A field that reaches the top bit of its word is what the shift leaves. -/
theorem toNat_ofNat_field {v lo width : Nat} (hv : v < 2 ^ (lo + width)) :
    (BitVec.ofNat width (field v lo width)).toNat = v / 2 ^ lo := by
  have hlt : v / 2 ^ lo < 2 ^ width := Nat.div_lt_of_lt_mul (by rwa [← Nat.pow_add])
  rw [BitVec.toNat_ofNat, field_eq, Nat.mod_mod, Nat.mod_eq_of_lt hlt]

/-- One step of Horner's rule: the next byte joins below the bytes before it. -/
theorem shiftLeft_or_byte (x k : Nat) (b : Byte) :
    x <<< (k + 8) ||| b.toNat <<< k = (x * 256 + b.toNat) <<< k := by
  rw [Nat.add_comm k 8, Nat.shiftLeft_add, ← Nat.shiftLeft_or_distrib, ← Nat.shiftLeft_add_eq_or_of_lt b.isLt,
    Nat.shiftLeft_eq x 8]

/-- `shiftLeft_or_byte` for the last byte, which the model leaves unshifted. -/
theorem shiftLeft_or_last (x : Nat) (b : Byte) : x <<< 8 ||| b.toNat = x * 256 + b.toNat :=
  shiftLeft_or_byte x 0 b

/-! ### The fields -/

theorem toNat_frameDf (f : Frame) : (frameDf f).toNat = f[0].toNat / 8 :=
  toNat_ofNat_field f[0].isLt

theorem toNat_payloadTc (me : Payload) : (payloadTc me).toNat = me.toNat / 2 ^ 51 :=
  toNat_ofNat_field me.isLt

theorem toNat_frameMe (f : Frame) :
    (frameMe f).toNat = f[4].toNat * 256 ^ 6 + f[5].toNat * 256 ^ 5 + f[6].toNat * 256 ^ 4 + f[7].toNat * 256 ^ 3 +
      f[8].toNat * 256 ^ 2 + f[9].toNat * 256 + f[10].toNat := by
  simp only [frameMe, BitVec.toNat_ofNat, shiftLeft_or_byte, shiftLeft_or_last]
  omega

/-- R114: the type code of a frame lies in its byte 4. -/
theorem toNat_payloadTc_frameMe (f : Frame) : (payloadTc (frameMe f)).toNat = f[4].toNat / 8 := by
  rw [toNat_payloadTc, toNat_frameMe]
  omega

/-! ### The operations -/

theorem exec_rmDf {s : State} (hf : s.fault = none) (f : Frame) :
    exec (.rmDf f) s = .next (s.reply (.df (frameDf f))) :=
  stateless_of_none hf _

theorem exec_rmMe {s : State} (hf : s.fault = none) (f : Frame) :
    exec (.rmMe f) s = .next (s.reply (.me (frameMe f))) :=
  stateless_of_none hf _

theorem exec_rmTc {s : State} (hf : s.fault = none) (src : TcOperand) :
    exec (.rmTc src) s = .next (s.reply (.tc (payloadTc (tcPayload src)))) :=
  stateless_of_none hf _

/-- Settles O35: each operation replies with its field, and each field is its number. -/
theorem accessorsReadTheirFields : Obligations.AccessorsReadTheirFields :=
  fun _ f m hf =>
    ⟨frameDf f, frameMe f, payloadTc (frameMe f), payloadTc m,
      exec_rmDf hf f, toNat_frameDf f,
      exec_rmMe hf f, toNat_frameMe f,
      exec_rmTc hf (.frame f), toNat_payloadTc_frameMe f,
      exec_rmTc hf (.payload m), toNat_payloadTc m⟩

end Sys2Proof.Proofs
end

