-- ==== Sys2Proof/Proofs/Gray.lean ====
section
/-! PROOF. The Gray decode (R118) inverts the Gray encoding `v ^^^ v / 2`: the sum of shifts telescopes. -/

namespace Sys2Proof.Proofs

open Sys2Proof.Machine Sys2Proof.Laws

/-! ### The decode as a sum of shifts -/

@[simp] theorem grayDec_zero (g : Nat) : grayDec g 0 = 0 := rfl

theorem grayDec_succ (g n : Nat) : grayDec g (n + 1) = grayDec g n ^^^ (g >>> n) := by
  simp [grayDec, List.range_succ]

theorem grayDec_lt {g w : Nat} (hg : g < 2 ^ w) (n : Nat) : grayDec g n < 2 ^ w := by
  induction n with
  | zero => exact Nat.two_pow_pos w
  | succ n ih =>
    rw [grayDec_succ]
    exact Nat.xor_lt_two_pow ih ((Nat.shiftRight_le g n).trans_lt hg)

/-! ### Decode and encode -/

/-- Encoding what `n` shifts decode leaves the operand, less the part that `n` shifts do not reach. -/
theorem encode_grayDec (g n : Nat) : grayDec g n ^^^ (grayDec g n / 2) = g ^^^ (g >>> n) := by
  induction n with
  | zero => simp
  | succ n ih =>
    calc grayDec g (n + 1) ^^^ (grayDec g (n + 1) / 2)
        = (grayDec g n ^^^ (grayDec g n / 2)) ^^^ (g >>> n ^^^ (g >>> (n + 1))) := by
          rw [grayDec_succ, Nat.xor_div_two, Nat.shiftRight_succ]; ac_rfl
      _ = g ^^^ (g >>> (n + 1)) := by rw [ih, Nat.xor_assoc, Nat.xor_xor_cancel_left]

/-- Decoding an encoded value by `n` shifts leaves the value, less the part that `n` shifts do not reach. -/
theorem grayDec_encode (v n : Nat) : grayDec (v ^^^ (v / 2)) n = v ^^^ (v >>> n) := by
  induction n with
  | zero => simp
  | succ n ih =>
    rw [grayDec_succ, ih, Nat.shiftRight_xor_distrib, ← Nat.shiftRight_one v, ← Nat.shiftRight_add,
      Nat.add_comm 1 n, Nat.xor_assoc, Nat.xor_xor_cancel_left]

theorem encode_grayDec_of_lt {g w : Nat} (hg : g < 2 ^ w) : grayDec g w ^^^ (grayDec g w / 2) = g := by
  rw [encode_grayDec, Nat.shiftRight_eq_zero g w hg, Nat.xor_zero]

theorem grayDec_encode_of_lt {v w : Nat} (hv : v < 2 ^ w) : grayDec (v ^^^ (v / 2)) w = v := by
  rw [grayDec_encode, Nat.shiftRight_eq_zero v w hv, Nat.xor_zero]

/-! ### The bits of the decode -/

theorem testBit_grayDec (g n j : Nat) :
    (grayDec g n).testBit j = (List.range n).foldl (fun b k => xor b (g.testBit (j + k))) false := by
  induction n with
  | zero => simp
  | succ n ih => simp [grayDec_succ, List.range_succ, ih, Nat.add_comm j n]

/-- Shifts that bring no bit of the operand to place `j` do not change bit `j`. -/
theorem testBit_grayDec_of_le {g w n m j : Nat} (hg : g < 2 ^ w) (hn : w ≤ j + n) (hnm : n ≤ m) :
    (grayDec g m).testBit j = (grayDec g n).testBit j := by
  induction m, hnm using Nat.le_induction with
  | base => rfl
  | succ m hm ih =>
    have hbit : g.testBit (m + j) = false :=
      Nat.testBit_lt_two_pow (hg.trans_le (Nat.pow_le_pow_right two_pos (by omega)))
    rw [grayDec_succ, Nat.testBit_xor, Nat.testBit_shiftRight, hbit, Bool.xor_false, ih]

/-! ### The operation -/

theorem grayResult_of_lt {g w : Nat} (h1 : 1 ≤ w) (h31 : w ≤ 31) (hg : g < 2 ^ w) :
    grayResult g w = grayDec g w := by
  simp [grayResult, grayInDomain, h1, h31, hg]

theorem exec_grayDec {s : State} (hf : s.fault = none) (g w : Nat) :
    exec (.grayDec g w) s = .next (s.reply (.gray (grayResult g w))) :=
  stateless_of_none hf _

/-- Settles O37: decode and encode are inverse on `w` bits, and only the shifts below `w - j` reach bit `j`. -/
theorem grayDecodeInvertsGrayEncode : Obligations.GrayDecodeInvertsGrayEncode := by
  intro s g w hf h1 h31 hg
  refine ⟨grayDec g w, ?_, grayDec_lt hg w, fun j hj => ?_, encode_grayDec_of_lt hg, fun v hv hvg => ?_⟩
  · rw [exec_grayDec hf, grayResult_of_lt h1 h31 hg, State.reply]
  · rw [testBit_grayDec_of_le hg (n := w - j) (by omega) (Nat.sub_le w j), testBit_grayDec]
  · rw [← hvg, grayDec_encode_of_lt hv]

end Sys2Proof.Proofs
end

