-- ==== Sys2Proof/Proofs/LinearAltitude.lean ====
section
/-! PROOF. The altitude with Q = 1 (R119). -/

namespace Sys2Proof.Proofs

open Sys2Proof.Machine Sys2Proof.Laws

/-- R51: `ALT[11:5]` stands directly above `ALT[3:0]`, without the bit Q. -/
theorem altValue_eq (alt : BitVec 12) : altValue alt = alt.toNat / 32 * 16 + alt.toNat % 16 := by
  have hhigh : (altHigh alt).toNat = alt.toNat / 32 := toNat_ofNat_field alt.isLt
  have hlow : (altLow alt).toNat = alt.toNat % 16 := by simp [altLow, field_eq]
  rw [altValue, ← Nat.shiftLeft_add_eq_or_of_lt (altLow alt).isLt, hhigh, hlow, Nat.shiftLeft_eq]

theorem altValue_le (alt : BitVec 12) : altValue alt ≤ 2047 := by
  have hlt := alt.isLt
  rw [altValue_eq]
  omega

theorem altDec_of_q (cfg : Config) {alt : BitVec 12} (hq : altQ alt = true) : altDec cfg alt = some (altLinear alt) :=
  if_pos hq

theorem exec_altDec {s : State} (hf : s.fault = none) (alt : BitVec 12) :
    exec (.altDec alt) s = .next (s.reply (altReply (altDec iqd alt))) :=
  stateless_of_none hf _

/-- Settles O38: the reply is linear in an 11-bit number, which fixes its range and its step. -/
theorem linearAltitudeCompletes : Obligations.LinearAltitudeCompletes := by
  intro s alt hf hq
  have hle := altValue_le alt
  refine ⟨altLinear alt, ?_, by rw [altLinear, altValue_eq], ?_, ?_, ?_⟩
  · rw [exec_altDec hf, altDec_of_q iqd hq, altReply, State.reply]
  all_goals rw [altLinear]; omega

end Sys2Proof.Proofs
end

