-- ==== Sys2Proof/Proofs/Transitions.lean ====
section
/-! PROOF. What one operation can do to the state, said once: the ending state of each rule, and the one transition of
each instruction. The statements about all instructions are case splits over `Transition`. -/

namespace Sys2Proof.Proofs

open Sys2Proof.Machine Sys2Proof.Laws

/-! ### The state in which a rule ends -/

/-- The rule ends in the state `u`, with a value or at a `raise`. -/
def EndsIn {α : Type} (r : Res α) (u : State) : Prop :=
  (∃ a, r = .ok a u) ∨ ∃ c, r = .raised c u

theorem endsIn_andThen {α β : Type} {r : Res α} {f : α → State → Res β} {u : State} (h : EndsIn (andThen r f) u) :
    (∃ c, r = .raised c u) ∨ ∃ a s, r = .ok a s ∧ EndsIn (f a s) u := by
  obtain ⟨b, hb⟩ | ⟨c, hc⟩ := h
  · obtain ⟨a, s, hr, hf⟩ := andThen_eq_ok.1 hb
    exact .inr ⟨a, s, hr, .inl ⟨b, hf⟩⟩
  · obtain hr | ⟨a, s, hr, hf⟩ := andThen_eq_raised.1 hc
    · exact .inl ⟨c, hr⟩
    · exact .inr ⟨a, s, hr, .inr ⟨c, hf⟩⟩

/-- The end of the outermost operation touches the result and `FAULT` alone (R140). -/
theorem endsIn_of_deliver {α : Type} {r : Res α} {f : α → Reply} {t : State} (h : deliver r f = .next t) :
    ∃ u g o, EndsIn r u ∧ t = { u with fault := g, out := o } := by
  obtain ⟨a, u, hr, rfl⟩ | ⟨c, u, hr, rfl⟩ := deliver_eq_next.1 h
  · exact ⟨u, u.fault, _, .inl ⟨a, hr⟩, rfl⟩
  · exact ⟨u, some c, _, .inr ⟨c, hr⟩, rfl⟩

/-! ### The rules that read a batch -/

theorem sdRead_endsIn {n : Int} {s u : State} (h : EndsIn (sdRead n s) u) :
    ∃ src ctr, u = { s with source := src, freeCtr := ctr } := by
  obtain ⟨xs, hok⟩ | ⟨c, hraised⟩ := h
  · obtain ⟨-, b, rest, -, -, rfl⟩ := sdRead_eq_ok.1 hok
    exact ⟨rest, s.freeCtr, rfl⟩
  · obtain ⟨-, -, rfl⟩ | ⟨-, -, -, rfl⟩ := sdRead_eq_raised.1 hraised
    · exact ⟨u.source, u.freeCtr, rfl⟩
    · exact ⟨_, _, rfl⟩

/-- What a batch leaves of the state `s`: the chain's history and the host's cursor are moved, a bank may be filled with a
batch of power samples. -/
theorem pcRead_endsIn {n : Int} {s u : State} (h : EndsIn (pcRead n s) u) :
    ∃ src ctr xs, u = { s with source := src, freeCtr := ctr, h := (pairSteps s.h s.k xs).1, k := (pairSteps s.h s.k xs).2.1 } := by
  obtain ⟨ps, hok⟩ | ⟨c, hraised⟩ := h
  · obtain ⟨-, -, b, rest, xs, -, -, -, rfl⟩ := pcRead_eq_ok.1 hok
    exact ⟨rest, s.freeCtr, xs, rfl⟩
  · obtain ⟨src, ctr, rfl, -⟩ := pcRead_raised_state hraised
    exact ⟨src, ctr, [], rfl⟩

/-- The batch of a bank: its size, and the powers that its pairs give. -/
theorem pcRead_batch {s t : State} {ps : List Power} (h : pcRead batch s = .ok ps t) :
    ps.length ≤ 65536 ∧ ∃ src xs, ps = (pairSteps s.h s.k xs).2.2 ∧
      t = { s with source := src, h := (pairSteps s.h s.k xs).1, k := (pairSteps s.h s.k xs).2.1 } := by
  have hlen := (pcRead_length h).2
  obtain ⟨-, -, b, rest, xs, -, -, hps, ht⟩ := pcRead_eq_ok.1 h
  refine ⟨by simpa [batch] using hlen, rest, xs, hps, ht⟩

/-! ### Repeated rules -/

/-- What each advance keeps, any number of them keeps. -/
theorem advTimes_endsIn {P : State → Prop} (hadv : ∀ s u, P s → EndsIn (pwAdv s) u → P u) {n : Nat} {s u : State}
    (hs : P s) (h : EndsIn (advTimes n s) u) : P u := by
  induction n generalizing s with
  | zero =>
    obtain ⟨a, ha⟩ | ⟨c, hc⟩ := h
    · obtain ⟨-, rfl⟩ := Res.ok.inj ha
      exact hs
    · cases hc
  | succ n ih =>
    obtain ⟨c, hc⟩ | ⟨a, v, hv, hu⟩ := endsIn_andThen h
    · exact hadv s u hs (.inr ⟨c, hc⟩)
    · exact ih (hadv s v hs (.inl ⟨a, hv⟩)) hu

theorem pwAdvn_endsIn {P : State → Prop} (hadv : ∀ s u, P s → EndsIn (pwAdv s) u → P u) {n : Int} {s u : State}
    (hs : P s) (h : EndsIn (pwAdvn n s) u) : P u := by
  unfold pwAdvn at h
  split_ifs at h
  · obtain ⟨a, ha⟩ | ⟨c, hc⟩ := h
    · cases ha
    · obtain ⟨-, rfl⟩ := Res.raised.inj hc
      exact hs
  · exact advTimes_endsIn hadv hs h

theorem scan_endsIn {P : State → Prop} (hscan : ∀ s, P s → P (scanned s)) {cfg : Config} {s u : State} (hs : P s)
    (h : EndsIn (scan cfg s) u) : P u := by
  obtain ⟨a, ha⟩ | ⟨c, hc⟩ := h
  · rw [(scan_ok ha).1]
    exact hscan s hs
  · obtain ⟨-, rfl | rfl, -⟩ := scan_raised hc
    · exact hs
    · exact hscan s hs

theorem takeFrameAt_endsIn {P : State → Prop} (hadv : ∀ s u, P s → EndsIn (pwAdv s) u → P u) {f : Frame} {s u : State}
    (hs : P s) (h : EndsIn (takeFrameAt f s) u) : P u := by
  obtain ⟨a, ha⟩ | ⟨c, hc⟩ := h
  · exact advTimes_endsIn hadv hs (.inl ⟨(), (takeFrameAt_eq_ok.1 ha).2.1⟩)
  · exact advTimes_endsIn hadv hs (.inr ⟨c, (takeFrameAt_eq_raised.1 hc).2⟩)

/-- What each advance and each write of `PREV` keeps, `DM.NEXT` keeps. -/
theorem dmLoop_endsIn {P : State → Prop} (hadv : ∀ s u, P s → EndsIn (pwAdv s) u → P u)
    (hscan : ∀ s, P s → P (scanned s)) {cfg : Config} {n : Nat} {s u : State} (hs : P s)
    (h : EndsIn (dmLoop cfg n s) u) : P u := by
  induction n generalizing s with
  | zero => obtain ⟨a, ha⟩ | ⟨c, hc⟩ := h <;> contradiction
  | succ n ih =>
    rw [dmLoop] at h
    split_ifs at h with hfull
    · obtain ⟨c, hc⟩ | ⟨found, v, hv, hu⟩ := endsIn_andThen h
      · exact scan_endsIn hscan hs (.inr ⟨c, hc⟩)
      · have hPv : P v := scan_endsIn hscan hs (.inl ⟨found, hv⟩)
        cases found with
        | some f => exact takeFrameAt_endsIn hadv hPv hu
        | none =>
          obtain ⟨c, hc⟩ | ⟨a, w, hw, hu⟩ := endsIn_andThen hu
          · exact hadv v u hPv (.inr ⟨c, hc⟩)
          · exact ih (hadv v w hPv (.inl ⟨a, hw⟩)) hu
    · obtain ⟨a, ha⟩ | ⟨c, hc⟩ := h
      · obtain ⟨-, rfl⟩ := Res.ok.inj ha
        exact hs
      · cases hc

/-! ### The transition of an instruction -/

/-- The operations that read no batch and are not `RESET`. -/
def isQuiet (i : Instr) : Bool :=
  isStateless i || isFormat i ||
    match i with
    | .pwGet _ | .pwFull | .pwPos => true
    | _ => false

/-- The state that the operation `i` leaves from `s`, but for the result and `FAULT`. -/
inductive Transition (s : State) : Instr → State → Prop
  | reset : Transition s .reset (resetRegs s)
  | quiet {i : Instr} (hi : isQuiet i = true) : Transition s i s
  | sdRead {n : Nat} {u : State} (h : EndsIn (Machine.sdRead n s) u) : Transition s (.sdRead n) u
  | pcRead {n : Nat} {u : State} (h : EndsIn (Machine.pcRead n s) u) : Transition s (.pcRead n) u
  | pwInit {u : State} (h : EndsIn (Machine.pwInit s) u) : Transition s .pwInit u
  | pwAdv {u : State} (hi : s.inited = true) (h : EndsIn (Machine.pwAdv s) u) : Transition s .pwAdv u
  | pwAdvn {n : Int} {u : State} (hi : s.inited = true) (h : EndsIn (Machine.pwAdvn n s) u) : Transition s (.pwAdvn n) u
  | dmNext {u : State} (hi : s.inited = true) (h : EndsIn (Machine.dmNext iqd s) u) : Transition s .dmNext u

theorem exec_of_isFormat {i : Instr} (hi : isFormat i = true) : ∃ v, ∀ s, exec i s = .next (s.reply v) :=
  match i, hi with
  | .fmtSampleWord _, _ => ⟨_, fun _ => rfl⟩
  | .fmtFrame _, _ => ⟨_, fun _ => rfl⟩
  | .fmtFrameDf17 _, _ => ⟨_, fun _ => rfl⟩
  | .fmtMe _, _ => ⟨_, fun _ => rfl⟩
  | .fmtMePosition _, _ => ⟨_, fun _ => rfl⟩
  | .fmtAltQ1 _, _ => ⟨_, fun _ => rfl⟩
  | .fmtAltQ0 _, _ => ⟨_, fun _ => rfl⟩

theorem pwGet_endsIn {i : Int} {s u : State} (h : EndsIn (pwGet i s) u) : u = s := by
  unfold pwGet at h
  obtain ⟨a, ha⟩ | ⟨c, hc⟩ := h
  · split_ifs at ha
    exact (Res.ok.inj ha).2.symm
  · split_ifs at hc
    exact (Res.raised.inj hc).2.symm

/-- A quiet operation leaves all but the result and `FAULT`. -/
theorem exec_quiet {i : Instr} (hi : isQuiet i = true) {s t : State} (h : exec i s = .next t) :
    ∃ f o, t = { s with fault := f, out := o } := by
  simp only [isQuiet, Bool.or_eq_true] at hi
  obtain (hi | hi) | hi := hi
  · obtain ⟨v, hv⟩ := exec_of_isStateless hi
    rw [hv, guarded_eq_next] at h
    obtain ⟨f, o, ht, -⟩ := answered_frame v s
    exact ⟨f, o, (Host.Outcome.next.inj h.2).symm.trans ht⟩
  · obtain ⟨v, hv⟩ := exec_of_isFormat hi
    rw [hv] at h
    exact ⟨s.fault, some v, (Host.Outcome.next.inj h).symm⟩
  · match i, hi with
    | .pwGet idx, _ =>
      obtain ⟨u, f, o, hu, ht⟩ := endsIn_of_deliver (guardedInit_eq_next.1 h).2.2
      exact ⟨f, o, pwGet_endsIn hu ▸ ht⟩
    | .pwFull, _ => exact ⟨s.fault, _, (Host.Outcome.next.inj (guardedInit_eq_next.1 h).2.2).symm⟩
    | .pwPos, _ => exact ⟨s.fault, _, (Host.Outcome.next.inj (guardedInit_eq_next.1 h).2.2).symm⟩

/-- `exec` inverted: the transition, and then the result and `FAULT`. -/
theorem exec_transition {i : Instr} {s t : State} (h : exec i s = .next t) :
    ∃ u f o, Transition s i u ∧ t = { u with fault := f, out := o } := by
  by_cases hi : isQuiet i = true
  · obtain ⟨f, o, ht⟩ := exec_quiet hi h
    exact ⟨s, f, o, .quiet hi, ht⟩
  · match i, hi with
    | .reset, _ => exact ⟨_, _, _, .reset, (Host.Outcome.next.inj h).symm⟩
    | .sdRead n, _ =>
      obtain ⟨u, f, o, hu, ht⟩ := endsIn_of_deliver (guarded_eq_next.1 h).2
      exact ⟨u, f, o, .sdRead hu, ht⟩
    | .pcRead n, _ =>
      obtain ⟨u, f, o, hu, ht⟩ := endsIn_of_deliver (guarded_eq_next.1 h).2
      exact ⟨u, f, o, .pcRead hu, ht⟩
    | .pwInit, _ =>
      have hb := (guarded_eq_next.1 h).2
      split_ifs at hb
      obtain ⟨u, f, o, hu, ht⟩ := endsIn_of_deliver hb
      exact ⟨u, f, o, .pwInit hu, ht⟩
    | .pwAdv, _ =>
      obtain ⟨-, hinit, hb⟩ := guardedInit_eq_next.1 h
      obtain ⟨u, f, o, hu, ht⟩ := endsIn_of_deliver hb
      exact ⟨u, f, o, .pwAdv hinit hu, ht⟩
    | .pwAdvn n, _ =>
      obtain ⟨-, hinit, hb⟩ := guardedInit_eq_next.1 h
      obtain ⟨u, f, o, hu, ht⟩ := endsIn_of_deliver hb
      exact ⟨u, f, o, .pwAdvn hinit hu, ht⟩
    | .dmNext, _ =>
      obtain ⟨-, hinit, hb⟩ := guardedInit_eq_next.1 h
      obtain ⟨u, f, o, hu, ht⟩ := endsIn_of_deliver hb
      exact ⟨u, f, o, .dmNext hinit hu, ht⟩

/-! ### The step -/

/-- A step with a request in front is the operation that the decoder reads (log 1). -/
theorem step_of_decode {s : State} {i : Instr} {rest : List Byte} (h : decode s.requests = .ok (i, rest)) :
    step s = exec i { s with requests := rest } := by
  have hne : s.requests ≠ [] := by
    intro h0
    rw [h0] at h
    cases h
  rw [step, if_neg hne, nextRequest, h]

theorem step_eq_next {s t : State} (h : step s = .next t) :
    t = s ∨ ∃ i rest, decode s.requests = .ok (i, rest) ∧ exec i { s with requests := rest } = .next t := by
  by_cases hr : s.requests = []
  · rw [step, if_pos hr] at h
    exact .inl (Host.Outcome.next.inj h).symm
  · rcases hd : decode s.requests with e | ⟨i, rest⟩
    · rw [step, if_neg hr, nextRequest, hd] at h
      cases h
    · rw [step_of_decode hd] at h
      exact .inr ⟨i, rest, rfl, h⟩

/-- An invariant that speaks neither of the result, nor of `FAULT`, nor of the requests, and that every transition keeps,
every step keeps. -/
theorem step_keeps {P : State → Prop} (hext : ∀ s f o r, P s → P { s with fault := f, out := o, requests := r })
    (htrans : ∀ {i s u}, P s → Transition s i u → P u) {s t : State} (hs : P s) (h : step s = .next t) : P t := by
  obtain rfl | ⟨i, rest, -, hexec⟩ := step_eq_next h
  · exact hs
  · obtain ⟨u, f, o, hu, rfl⟩ := exec_transition hexec
    exact hext u f o _ (htrans (hext s s.fault s.out rest hs) hu)

end Sys2Proof.Proofs
end

