-- ==== Sys2Proof/Proofs/Invariant.lean ====
section
/-! PROOF. The register invariants of R27 and R163 and the canonical memory: they hold at reset, every step keeps them. -/

namespace Sys2Proof.Proofs

open Sys2Proof.Machine Sys2Proof.Laws

/-! ### Reset -/

theorem inv_of_reset {s : State} (hk : s.k = 0) (hpib : s.pib = 0) (hcur : s.cur = 0) (hpos : s.pos = 0)
    (hmem : s.mem = ⟨[], []⟩) (hi : s.inited = false) : Inv s where
  kEven := by rw [hk]; rfl
  pibIsPos := by rw [hpib, hpos]; rfl
  curIsPos := by rw [hcur, hpos]; rfl
  posFits := by rw [hpos]; rfl
  memWf := by rw [hmem]; exact empty_memory_wf
  wsizeLegal h := by rw [hi] at h; cases h
  loaded h := by rw [hi] at h; cases h

/-! ### The batch -/

/-- A batch moves the history, `K` and the host's cursor; of these the invariant names `K` alone. -/
theorem inv_of_batch {s : State} (hs : Inv s) {k : BitVec 3} (hk : k.toNat % 2 = 0) (h : History)
    (src : List SourceEvent) (ctr : Nat) : Inv { s with source := src, freeCtr := ctr, h := h, k := k } :=
  ⟨hk, hs.pibIsPos, hs.curIsPos, hs.posFits, hs.memWf, hs.wsizeLegal, hs.loaded⟩

theorem inv_pcRead {n : Int} {s u : State} (hs : Inv s) (h : EndsIn (pcRead n s) u) : Inv u := by
  obtain ⟨src, ctr, xs, rfl⟩ := pcRead_endsIn h
  exact inv_of_batch hs (pairSteps_even hs.kEven) _ src ctr

theorem inv_pwInit {s u : State} (hs : Inv s) (h : EndsIn (pwInit s) u) : Inv u := by
  obtain ⟨⟨⟩, hok⟩ | ⟨c, hraised⟩ := h
  · obtain ⟨hlo, hhi, ps, s1, hp, rfl⟩ := pwInit_eq_ok.1 hok
    obtain ⟨hlen, src, xs, -, hs1⟩ := pcRead_batch hp
    have hs1i : Inv s1 := inv_pcRead hs (.inl ⟨ps, hp⟩)
    have hw : s1.wsize = s.wsize := by rw [hs1]
    refine ⟨hs1i.kEven, rfl, by simp, rfl, memFill_wf hs1i.memWf 0 hlen, fun _ => by simpa [hw] using ⟨hlo, hhi⟩, fun _ => ?_⟩
    have hloaded : (BitVec.ofNat 64 ps.length).toNat = ps.length := by
      rw [BitVec.toNat_ofNat]
      omega
    rw [hloaded, hw, if_pos (by simp; omega)]
    simpa using hlen
  · obtain ⟨-, -, rfl⟩ | ⟨-, hp⟩ := pwInit_eq_raised.1 hraised
    · exact hs
    · exact inv_pcRead hs (.inr ⟨c, hp⟩)

/-! ### The advance -/

/-- Before the registers move the refill has loaded what the window will need: the bank boundary of R27 item 4 stands one
sample earlier. -/
theorem advRefill_loaded {s s1 : State} (hs : Inv s) (hi : s.inited = true) (h : advRefill s = .ok () s1) :
    s1.nloaded.toNat + s.pib.toNat ≤ s.pos.toNat + if (s.pib.toNat : Int) + s.wsize < 65536 then 65536 else 131072 := by
  have hl := hs.loaded hi
  obtain ⟨hne, rfl⟩ | ⟨heq, ps, s2, hp, hlt, rfl⟩ := advRefill_eq_ok.1 h
  · split_ifs at hl ⊢ <;> omega
  · obtain ⟨hlen, src, xs, -, rfl⟩ := pcRead_batch hp
    dsimp only at hlt ⊢
    rw [BitVec.toNat_add, BitVec.toNat_ofNat]
    split_ifs at hl ⊢ <;> omega

theorem advRefill_wf {s s1 : State} (hs : Inv s) (h : advRefill s = .ok () s1) :
    s1.k.toNat % 2 = 0 ∧ s1.mem.wf = true := by
  obtain ⟨-, rfl⟩ | ⟨-, ps, s2, hp, -, rfl⟩ := advRefill_eq_ok.1 h
  · exact ⟨hs.kEven, hs.memWf⟩
  · have hs2 : Inv s2 := inv_pcRead hs (.inl ⟨ps, hp⟩)
    exact ⟨hs2.kEven, memFill_wf hs2.memWf _ (pcRead_batch hp).1⟩

/-- The place in the bank after one sample, as a number. -/
theorem toNat_advRegs_pib (s : State) :
    (advRegs s).pib.toNat = if s.pib.toNat = 65535 then 0 else s.pib.toNat + 1 := by
  rw [advRegs_pib]
  split_ifs with h h' h'
  · rfl
  · omega
  · omega
  · rw [BitVec.toNat_add]
    simp
    omega

theorem val_advRegs_cur (s : State) :
    (advRegs s).cur.val = if s.pib.toNat = 65535 then 1 - s.cur.val else s.cur.val := by
  rw [advRegs_cur]
  generalize s.cur = c
  split_ifs with h h' h'
  · fin_cases c <;> rfl
  · omega
  · omega
  · rfl

theorem inv_pwAdv {s u : State} (hs : Inv s ∧ s.inited = true) (h : EndsIn (pwAdv s) u) : Inv u ∧ u.inited = true := by
  obtain ⟨hs, hi⟩ := hs
  obtain ⟨⟨⟩, hok⟩ | ⟨c, hraised⟩ := h
  · have hkeeps := (pwAdv_keeps hok).1
    have hpos := (pwAdv_keeps hok).2.1
    obtain ⟨s1, h1, hrange, rfl⟩ := pwAdv_eq_ok.1 hok
    obtain ⟨hk1, hpos1, hpib1, hcur1, -, -⟩ := advRefill_keeps h1
    obtain ⟨heven, hwf⟩ := advRefill_wf hs h1
    have hload := advRefill_loaded hs hi h1
    have hw := hs.wsizeLegal hi
    have hpib := hs.pibIsPos
    have hcur := hs.curIsPos
    have hplt := s.pib.isLt
    refine ⟨⟨by simpa using heven, ?_, ?_, by rwa [hpos, ← hpos1], by simpa using hwf, fun _ => hkeeps.wsize ▸ hw,
      fun _ => ?_⟩, hkeeps.inited.trans hi⟩
    · rw [hpos, toNat_advRegs_pib, hpib1]
      split_ifs <;> omega
    · rw [hpos, val_advRegs_cur, hpib1, hcur1]
      split_ifs <;> omega
    · rw [hpos, toNat_advRegs_pib, hpib1, hkeeps.wsize, advRegs_nloaded]
      split_ifs at hload ⊢ <;> omega
  · obtain ⟨-, hp⟩ := pwAdv_eq_raised.1 hraised
    obtain ⟨src, ctr, rfl, -⟩ := pcRead_raised_state hp
    exact ⟨inv_of_batch hs hs.kEven _ src ctr, hi⟩

theorem inv_scanned {s : State} (hs : Inv s ∧ s.inited = true) : Inv (scanned s) ∧ (scanned s).inited = true :=
  ⟨⟨hs.1.kEven, hs.1.pibIsPos, hs.1.curIsPos, hs.1.posFits, hs.1.memWf, hs.1.wsizeLegal, hs.1.loaded⟩, hs.2⟩

/-! ### Every transition -/

theorem inv_transition {i : Instr} {s u : State} (hs : Inv s) (h : Transition s i u) : Inv u := by
  cases h with
  | reset => exact inv_of_reset rfl rfl rfl rfl rfl rfl
  | quiet => exact hs
  | sdRead h =>
    obtain ⟨src, ctr, rfl⟩ := sdRead_endsIn h
    exact inv_of_batch hs hs.kEven _ src ctr
  | pcRead h => exact inv_pcRead hs h
  | pwInit h => exact inv_pwInit hs h
  | pwAdv hi h => exact (inv_pwAdv ⟨hs, hi⟩ h).1
  | pwAdvn hi h => exact (pwAdvn_endsIn (P := fun s => Inv s ∧ s.inited = true) (fun _ _ => inv_pwAdv) ⟨hs, hi⟩ h).1
  | dmNext hi h =>
    exact (dmLoop_endsIn (P := fun s => Inv s ∧ s.inited = true) (fun _ _ => inv_pwAdv) (fun _ => inv_scanned)
      ⟨hs, hi⟩ h).1

/-- Settles O55: each transition keeps the invariant, the advance because its refill comes one sample early. -/
theorem everyStepKeepsTheInvariant : Obligations.EveryStepKeepsTheInvariant :=
  fun _ _ => step_keeps
    (fun _ _ _ _ h => ⟨h.kEven, h.pibIsPos, h.curIsPos, h.posFits, h.memWf, h.wsizeLegal, h.loaded⟩) inv_transition

end Sys2Proof.Proofs
end

