-- ==== Sys2Proof/Proofs/PowerBound.lean ====
section
/-! PROOF. The bounds of R29 on the stored powers and on `PREV`. -/

namespace Sys2Proof.Proofs

open Sys2Proof.Machine Sys2Proof.Laws

theorem powerBound_of_empty {s : State} (hmem : s.mem = ⟨[], []⟩) (hprev : s.prev = 0) : PowerBound s where
  bank b k := by rw [hmem, memRead_empty]; decide
  prev := by rw [hprev]; decide

/-- A bank filled with the powers of a batch keeps the bound, whatever the history and the samples are. -/
theorem memFill_bound {m : Memory} (hm : ∀ b k, (memRead m b k).toNat ≤ 134152200) (b : Fin 2) (h : History) (k : BitVec 3)
    (xs : List Int) (b' : Fin 2) (j : Nat) : (memRead (memFill m b (pairSteps h k xs).2.2) b' j).toNat ≤ 134152200 := by
  rw [memRead_memFill]
  split_ifs with hj
  · rw [List.getD_eq_getElem _ _ hj.2]
    exact pairSteps_bound h k xs _ (List.getElem_mem hj.2)
  · exact hm b' j

theorem powerBound_pcRead {n : Int} {s u : State} (hs : PowerBound s) (h : EndsIn (pcRead n s) u) : PowerBound u := by
  obtain ⟨src, ctr, xs, rfl⟩ := pcRead_endsIn h
  exact ⟨hs.bank, hs.prev⟩

theorem powerBound_pwInit {s u : State} (hs : PowerBound s) (h : EndsIn (pwInit s) u) : PowerBound u := by
  obtain ⟨⟨⟩, hok⟩ | ⟨c, hraised⟩ := h
  · obtain ⟨-, -, ps, s1, hp, rfl⟩ := pwInit_eq_ok.1 hok
    obtain ⟨-, src, xs, rfl, rfl⟩ := pcRead_batch hp
    exact ⟨memFill_bound hs.bank 0 _ _ _, hs.prev⟩
  · obtain ⟨-, -, rfl⟩ | ⟨-, hp⟩ := pwInit_eq_raised.1 hraised
    · exact hs
    · exact powerBound_pcRead hs (.inr ⟨c, hp⟩)

theorem powerBound_pwAdv {s u : State} (hs : PowerBound s) (h : EndsIn (pwAdv s) u) : PowerBound u := by
  obtain ⟨⟨⟩, hok⟩ | ⟨c, hraised⟩ := h
  · obtain ⟨s1, h1, -, rfl⟩ := pwAdv_eq_ok.1 hok
    have hs1 : PowerBound s1 := by
      obtain ⟨-, rfl⟩ | ⟨-, ps, s2, hp, -, rfl⟩ := advRefill_eq_ok.1 h1
      · exact hs
      · obtain ⟨-, src, xs, rfl, rfl⟩ := pcRead_batch hp
        exact ⟨memFill_bound hs.bank _ _ _ _, hs.prev⟩
    exact ⟨by simpa using hs1.bank, by simpa using hs1.prev⟩
  · exact powerBound_pcRead hs (.inr ⟨c, (pwAdv_eq_raised.1 hraised).2⟩)

/-- R29: a sum of four powers, which `PREV` holds without loss. -/
theorem peak_le {s : State} (hs : PowerBound s) (o : Nat) : peak s o ≤ 536608800 := by
  have hg : ∀ i, g s i ≤ 134152200 := fun i => hs.bank _ _
  have h0 := hg (o + 0)
  have h1 := hg (o + 10)
  have h2 := hg (o + 35)
  have h3 := hg (o + 45)
  simp only [peak]
  omega

theorem toNat_peak {s : State} (hs : PowerBound s) : (BitVec.ofNat 30 (peak s 0)).toNat = peak s 0 := by
  have := peak_le hs 0
  rw [BitVec.toNat_ofNat]
  omega

theorem powerBound_scanned {s : State} (hs : PowerBound s) : PowerBound (scanned s) :=
  ⟨hs.bank, (toNat_peak hs).trans_le (peak_le hs 0)⟩

theorem powerBound_transition {i : Instr} {s u : State} (hs : PowerBound s) (h : Transition s i u) : PowerBound u := by
  cases h with
  | reset => exact powerBound_of_empty rfl rfl
  | quiet => exact hs
  | sdRead h =>
    obtain ⟨src, ctr, rfl⟩ := sdRead_endsIn h
    exact ⟨hs.bank, hs.prev⟩
  | pcRead h => exact powerBound_pcRead hs h
  | pwInit h => exact powerBound_pwInit hs h
  | pwAdv _ h => exact powerBound_pwAdv hs h
  | pwAdvn _ h => exact pwAdvn_endsIn (fun _ _ => powerBound_pwAdv) hs h
  | dmNext _ h => exact dmLoop_endsIn (fun _ _ => powerBound_pwAdv) (fun _ => powerBound_scanned) hs h

/-- Settles O56: the banks are written by batches alone, and `PREV` with a sum of four bank entries alone. -/
theorem everyStepKeepsThePowerBound : Obligations.EveryStepKeepsThePowerBound :=
  fun _ _ => step_keeps (fun _ _ _ _ h => ⟨h.bank, h.prev⟩) powerBound_transition

/-- Settles O54: at reset the window is not initialised and the banks are empty. -/
theorem invariantHoldsAtReset : Obligations.InvariantHoldsAtReset :=
  ⟨inv_of_reset rfl rfl rfl rfl rfl rfl, powerBound_of_empty rfl rfl⟩

end Sys2Proof.Proofs
end

