-- ==== Sys2Proof/Proofs/Frames.lean ====
section
/-! PROOF. Which operations write which registers (R16, R17), and that `RESET` alone clears `FAULT` (R148). -/

namespace Sys2Proof.Proofs

open Sys2Proof.Machine Sys2Proof.Laws

/-! ### What the rules of the window leave -/

theorem pwInit_endsIn {s u : State} (h : EndsIn (pwInit s) u) :
    u.prev = s.prev ∧ u.wsize = s.wsize ∧ u.pcBatch = s.pcBatch ∧ u.sdBatch = s.sdBatch ∧ u.params = s.params ∧
      u.requests = s.requests := by
  obtain ⟨⟨⟩, hok⟩ | ⟨c, hraised⟩ := h
  · obtain ⟨-, -, ps, s1, hp, rfl⟩ := pwInit_eq_ok.1 hok
    obtain ⟨src, h', k', rfl⟩ := pcRead_ok_state hp
    exact ⟨rfl, rfl, rfl, rfl, rfl, rfl⟩
  · obtain ⟨-, -, rfl⟩ | ⟨-, hp⟩ := pwInit_eq_raised.1 hraised
    · exact ⟨rfl, rfl, rfl, rfl, rfl, rfl⟩
    · obtain ⟨src, ctr, rfl, -⟩ := pcRead_raised_state hp
      exact ⟨rfl, rfl, rfl, rfl, rfl, rfl⟩

theorem pwAdv_endsIn_keeps {s u : State} (h : EndsIn (pwAdv s) u) : AdvKeeps s u := by
  obtain ⟨⟨⟩, hok⟩ | ⟨c, hraised⟩ := h
  · exact (pwAdv_keeps hok).1
  · obtain ⟨src, ctr, rfl, -⟩ := pcRead_raised_state (pwAdv_eq_raised.1 hraised).2
    exact ⟨rfl, rfl, rfl, rfl, rfl, rfl, rfl, rfl, rfl⟩

theorem pwAdvn_endsIn_keeps {n : Int} {s u : State} (h : EndsIn (pwAdvn n s) u) : AdvKeeps s u :=
  pwAdvn_endsIn (P := AdvKeeps s) (fun _ _ hk ha => hk.trans' (pwAdv_endsIn_keeps ha)) (.rfl' s) h

/-- `DM.NEXT` keeps what an advance keeps, but for `PREV`. -/
theorem dmNext_endsIn_keeps {s u : State} (h : EndsIn (dmNext iqd s) u) : AdvKeeps { s with prev := u.prev } u := by
  refine dmLoop_endsIn (P := fun v => AdvKeeps { s with prev := v.prev } v) (fun v w hk ha => ?_) (fun v hk => ?_)
    (.rfl' s) h
  · have ha := pwAdv_endsIn_keeps ha
    rw [ha.prev]
    exact hk.trans' ha
  · exact ⟨hk.fault, hk.inited, hk.wsize, hk.pcBatch, hk.sdBatch, hk.params, hk.requests, hk.out, rfl⟩

/-! ### The writers -/

/-- The frames of R16 and R17, of one transition. -/
structure Writers (i : Instr) (s t : State) : Prop where
  window : writesWindow i = false →
    t.mem = s.mem ∧ t.cur = s.cur ∧ t.pib = s.pib ∧ t.pos = s.pos ∧ t.nloaded = s.nloaded ∧ t.inited = s.inited
  prev : i ≠ .reset → i ≠ .dmNext → t.prev = s.prev
  config : i ≠ .reset → t.wsize = s.wsize ∧ t.pcBatch = s.pcBatch ∧ t.sdBatch = s.sdBatch
  history : writesWindow i = false → (∀ n, i ≠ .pcRead n) → t.h = s.h ∧ t.k = s.k
  stream : writesWindow i = false → (∀ n, i ≠ .pcRead n) → (∀ n, i ≠ .sdRead n) →
    t.source = s.source ∧ t.freeCtr = s.freeCtr
  host : t.params = s.params ∧ t.requests = s.requests

theorem Writers.refl (i : Instr) (s : State) : Writers i s s :=
  ⟨fun _ => ⟨rfl, rfl, rfl, rfl, rfl, rfl⟩, fun _ _ => rfl, fun _ => ⟨rfl, rfl, rfl⟩, fun _ _ => ⟨rfl, rfl⟩,
    fun _ _ _ => ⟨rfl, rfl⟩, rfl, rfl⟩

/-- A writer of the window that is not `RESET` has the frames of `PREV`, the configuration and the host alone. -/
theorem Writers.of_writesWindow {i : Instr} (hi : writesWindow i = true) {s t : State}
    (hprev : i ≠ .dmNext → t.prev = s.prev) (hw : t.wsize = s.wsize) (hpc : t.pcBatch = s.pcBatch)
    (hsd : t.sdBatch = s.sdBatch) (hp : t.params = s.params) (hr : t.requests = s.requests) : Writers i s t where
  window h := by rw [hi] at h; cases h
  prev _ h := hprev h
  config _ := ⟨hw, hpc, hsd⟩
  history h := by rw [hi] at h; cases h
  stream h := by rw [hi] at h; cases h
  host := ⟨hp, hr⟩

theorem writers_of_transition {i : Instr} {s u : State} (h : Transition s i u) : Writers i s u := by
  cases h with
  | reset =>
    exact ⟨nofun, fun h => absurd rfl h, fun h => absurd rfl h, nofun, nofun, rfl, rfl⟩
  | quiet => exact .refl i s
  | @sdRead n u h =>
    obtain ⟨src, ctr, rfl⟩ := sdRead_endsIn h
    exact { Writers.refl (.sdRead n) s with stream := fun _ _ h => absurd rfl (h n) }
  | @pcRead n u h =>
    obtain ⟨src, ctr, xs, rfl⟩ := pcRead_endsIn h
    exact { Writers.refl (.pcRead n) s with
      history := fun _ h => absurd rfl (h n), stream := fun _ h => absurd rfl (h n) }
  | pwInit h =>
    obtain ⟨hprev, hw, hpc, hsd, hp, hr⟩ := pwInit_endsIn h
    exact .of_writesWindow rfl (fun _ => hprev) hw hpc hsd hp hr
  | pwAdv _ h =>
    have hk := pwAdv_endsIn_keeps h
    exact .of_writesWindow rfl (fun _ => hk.prev) hk.wsize hk.pcBatch hk.sdBatch hk.params hk.requests
  | pwAdvn _ h =>
    have hk := pwAdvn_endsIn_keeps h
    exact .of_writesWindow rfl (fun _ => hk.prev) hk.wsize hk.pcBatch hk.sdBatch hk.params hk.requests
  | dmNext _ h =>
    have hk := dmNext_endsIn_keeps h
    exact .of_writesWindow rfl (fun h => absurd rfl h) hk.wsize hk.pcBatch hk.sdBatch hk.params hk.requests

/-- Settles O53: the frames of each transition; the result and `FAULT` are no register of theirs. -/
theorem registersHaveTheirWriters : Obligations.RegistersHaveTheirWriters := by
  intro i s t h
  obtain ⟨u, f, o, hu, rfl⟩ := exec_transition h
  have hw := writers_of_transition hu
  exact ⟨hw.window, hw.prev, hw.config, hw.history, hw.stream, hw.host⟩

/-! ### `FAULT` -/

/-- R143: while `FAULT` is set, `RESET` and the data words alone have a transition. -/
theorem exec_of_fault {i : Instr} {s : State} (hf : s.fault ≠ none) (hi : isFormat i = false) (hr : i ≠ .reset) :
    exec i s = .refused .faultLatched := by
  cases i with
  | reset => exact absurd rfl hr
  | fmtSampleWord | fmtFrame | fmtFrameDf17 | fmtMe | fmtMePosition | fmtAltQ1 | fmtAltQ0 => cases hi
  | _ => exact guarded_of_fault hf _

/-- Settles O51: with `FAULT` set, a step that goes on is idle, a data word, or `RESET`. -/
theorem onlyResetClearsTheFault : Obligations.OnlyResetClearsTheFault := by
  intro s t h hf
  obtain rfl | ⟨i, rest, hd, hexec⟩ := step_eq_next h
  · exact .inl rfl
  · by_cases hr : i = .reset
    · exact .inr ⟨rest, hr ▸ hd⟩
    · cases hi : isFormat i with
      | false =>
        rw [exec_of_fault (s := { s with requests := rest }) hf hi hr] at hexec
        cases hexec
      | true =>
        obtain ⟨v, hv⟩ := exec_of_isFormat hi
        rw [hv] at hexec
        obtain rfl := Host.Outcome.next.inj hexec
        exact .inl rfl

/-- R143: the operations of PW and DM before `PW.INIT`. -/
theorem exec_of_needsInit {i : Instr} {s : State} (hf : s.fault = none) (hs : s.inited = false)
    (hi : needsInit i = true) : exec i s = .refused .notInitialised :=
  match i, hi with
  | .pwGet _, _ => guardedInit_of_not_inited hf hs _
  | .pwFull, _ => guardedInit_of_not_inited hf hs _
  | .pwPos, _ => guardedInit_of_not_inited hf hs _
  | .pwAdv, _ => guardedInit_of_not_inited hf hs _
  | .pwAdvn _, _ => guardedInit_of_not_inited hf hs _
  | .dmNext, _ => guardedInit_of_not_inited hf hs _

theorem exec_pwInit {s : State} (hf : s.fault = none) (hi : s.inited = false) :
    exec .pwInit s = deliver (pwInit s) fun _ => .done := by
  refine (guarded_of_none hf _).trans (if_neg ?_)
  simp [hi]

/-- Settles O50: the three refusals, and the operations that have no other. -/
theorem refusedCallsHaveNoTransition : Obligations.RefusedCallsHaveNoTransition := by
  refine fun i s => ⟨exec_of_fault, exec_of_needsInit, fun hf hi => ?_, fun hf hi => ?_, fun hi => ?_⟩
  · exact (guarded_of_none hf _).trans (if_pos hi)
  · obtain ⟨v, hv⟩ := exec_of_isStateless hi
    exact ⟨_, (hv s).trans (guarded_of_none hf _)⟩
  · obtain ⟨v, hv⟩ := exec_of_isFormat hi
    exact ⟨_, hv s⟩

end Sys2Proof.Proofs
end

