-- ==== Sys2Proof/Proofs/Reset.lean ====
section
/-! PROOF. The values at reset (R151) and the operation `RESET` (R150). -/

namespace Sys2Proof.Proofs

open Sys2Proof.Machine Sys2Proof.Laws

theorem histGet_replicate (i : Nat) : histGet (Vector.replicate 8 0) i = 0 := by
  simp [histGet]

/-- Settles O1: the registers hold the values as written, and each slot and entry reads 0. -/
theorem resetStateHoldsTheSpecsValues : Obligations.ResetStateHoldsTheSpecsValues :=
  ⟨fun i _ => histGet_replicate i, rfl, memRead_empty, rfl, rfl, rfl, rfl, rfl, rfl, rfl, rfl, rfl, rfl⟩

theorem batchIllegal_iff (p : Params) :
    batchIllegal p = true ↔ p.pcBatch ≤ 0 ∨ p.pcBatch % 8 ≠ 0 ∨ p.sdBatch ≤ 0 := by
  simp only [batchIllegal, Bool.or_eq_true, decide_eq_true_eq, or_assoc]

/-- Settles O2: the next state is `resetRegs`, whose `FAULT` is the test of the batch sizes. -/
theorem resetOperationCompletes : Obligations.ResetOperationCompletes := by
  intro s
  refine ⟨_, rfl, fun i _ => histGet_replicate i, rfl, memRead_empty, rfl, rfl, rfl, rfl, rfl, rfl, rfl, rfl, rfl,
    fun h => ?_, fun h => ?_, rfl, rfl, rfl, rfl, rfl⟩
  · rw [reply_fault, resetRegs_fault, if_pos ((batchIllegal_iff s.params).2 h)]
  · rw [reply_fault, resetRegs_fault, if_neg (mt (batchIllegal_iff s.params).1 h)]

end Sys2Proof.Proofs
end

