-- ==== Sys2Proof/Proofs/Requests.lean ====
section
/-! PROOF. The decoder undoes the encoder, and what it accepts is well-formed (log 2, log 3). -/

namespace Sys2Proof.Proofs

open Sys2Proof.Machine Sys2Proof.Laws

/-! ### Decode after encode -/

theorem decode_request {code : Nat} (hc : code < 256) (bs r : List Byte) :
    decode (request code bs ++ r) = decodeAs code (bs ++ r) := by
  rw [request, List.cons_append, decode, BitVec.toNat_ofNat, Nat.mod_eq_of_lt hc]

@[simp] theorem bind_ok {ε α β : Type} (a : α) (f : α → Except ε β) : (Except.ok a >>= f) = f a := rfl

theorem takeNl_encode {lat : ℚ} (hn : intOk lat.num = true) (hd : lat.den ≤ 2 ^ 64) (r : List Byte) :
    takeNl (intBytes lat.num ++ leBytes 8 (lat.den - 1) ++ r) = .ok (.cprNl lat, r) := by
  have hpos : lat.den - 1 + 1 = lat.den := Nat.sub_add_cancel lat.den_pos
  have hlt : lat.den - 1 < 256 ^ 8 := by omega
  simp only [takeNl, List.append_assoc, takeInt_intBytes hn, takeNat_leBytes hlt, bind_ok, hpos, Rat.mkRat_self]

theorem takeNat_length_operand {n : Nat} (h : lengthOk n = true) (r : List Byte) :
    takeNat 4 (leBytes 4 n ++ r) = .ok (n, r) :=
  takeNat_leBytes (by simpa [lengthOk] using h) r

theorem takeGray_encode {g w : Nat} (hg : lengthOk g = true) (hw : w < 256) (r : List Byte) :
    takeGray (leBytes 1 w ++ leBytes 4 g ++ r) = .ok (.grayDec g w, r) := by
  simp only [takeGray, List.append_assoc, takeNat_leBytes (n := 1) hw, takeNat_length_operand hg, bind_ok]

theorem takeBits_recent (recent : Bool) (r : List Byte) :
    takeBits 1 1 (leBytes 1 recent.toNat ++ r) = .ok (BitVec.ofBool recent, r) := by
  cases recent <;> rfl

theorem takeCpr_encode (x0 y0 x1 y1 : BitVec 17) (recent : Bool) (r : List Byte) :
    takeCpr (leBytes 3 x0.toNat ++ leBytes 3 y0.toNat ++ leBytes 3 x1.toNat ++ leBytes 3 y1.toNat ++
      leBytes 1 recent.toNat ++ r) = .ok (.cprDec x0 y0 x1 y1 recent, r) := by
  have hfield : ∀ (v : BitVec 17) r, takeBits 3 17 (leBytes 3 v.toNat ++ r) = .ok (v, r) :=
    fun v => takeBits_leBytes v (by decide)
  simp only [takeCpr, List.append_assoc, hfield, takeBits_recent, bind_ok, BitVec.getLsbD_ofBool, decide_true,
    Bool.true_and]

theorem takeTc_encode_frame (f : Frame) (r : List Byte) :
    takeTc (0 :: f.toList ++ r) = .ok (.rmTc (.frame f), r) := by
  have hform : takeBits 1 1 (0 :: (f.toList ++ r)) = .ok (0, f.toList ++ r) := rfl
  simp only [takeTc, List.cons_append, hform, takeFrame_toList, bind_ok, if_true]

theorem takeTc_encode_payload (me : Payload) (r : List Byte) :
    takeTc (1 :: beBytes 7 me.toNat ++ r) = .ok (.rmTc (.payload me), r) := by
  have hform : takeBits 1 1 (1 :: (beBytes 7 me.toNat ++ r)) = .ok (1, beBytes 7 me.toNat ++ r) := rfl
  have hne : (1 : BitVec 1) ≠ 0 := by decide
  simp only [takeTc, List.cons_append, hform, takePayload_beBytes, bind_ok, hne, if_false]

/-! ### The two rows of a data word -/

theorem frameRow_of_df {f : Frame} (h : frameDf f = dfAdsb) : frameRow f = .fmtFrameDf17 f := if_pos h

theorem frameRow_of_df_ne {f : Frame} (h : frameDf f ≠ dfAdsb) : frameRow f = .fmtFrame f := if_neg h

theorem payloadRow_of_class {me : Payload} (h : classOf iqd (payloadTc me) = .position) :
    payloadRow me = .fmtMePosition me := if_pos h

theorem payloadRow_of_class_ne {me : Payload} (h : classOf iqd (payloadTc me) ≠ .position) :
    payloadRow me = .fmtMe me := if_neg h

theorem altRow_of_q {alt : BitVec 12} (h : altQ alt = true) : altRow alt = .fmtAltQ1 alt := if_pos h

theorem altRow_of_not_q {alt : BitVec 12} (h : altQ alt = false) : altRow alt = .fmtAltQ0 alt := by
  rw [altRow, h]
  rfl

/-- Settles O57: each code leads to the readers of its operands, and each reader undoes its writer. -/
theorem decodeOfEncodeIsTheInstruction : Obligations.DecodeOfEncodeIsTheInstruction := by
  intro i r h
  have h12 : ∀ (v : BitVec 12) r, takeBits 2 12 (leBytes 2 v.toNat ++ r) = .ok (v, r) :=
    fun v => takeBits_leBytes v (by decide)
  have h64 : ∀ (v : BitVec 64) r, takeBits 8 64 (leBytes 8 v.toNat ++ r) = .ok (v, r) :=
    fun v => takeBits_leBytes v (by decide)
  cases i with
  | reset | pwInit | pwFull | pwAdv | pwPos | dmNext => rfl
  | sdRead n | pcRead n =>
    rw [encode, decode_request (by decide)]
    simp only [decodeAs, takeNat_length_operand h, bind_ok]
  | pwGet n | pwAdvn n =>
    rw [encode, decode_request (by decide)]
    simp only [decodeAs, takeInt_intBytes h, bind_ok]
  | crcBit b | crcByte b | crcChk b =>
    rw [encode, decode_request (by decide)]
    simp only [decodeAs, takeList_listBytes h, bind_ok]
  | bitsX v start size =>
    obtain ⟨hstart, hsize⟩ := Bool.and_eq_true_iff.1 h
    rw [encode, decode_request (by decide)]
    simp only [decodeAs, List.append_assoc, h64, takeInt_intBytes hstart, takeInt_intBytes hsize, bind_ok]
  | rmParse ts b =>
    rw [encode, decode_request (by decide)]
    simp only [decodeAs, List.append_assoc, h64, takeList_listBytes h, bind_ok]
  | rmDf f | rmIcao f | rmMe f =>
    rw [encode, decode_request (by decide)]
    simp only [decodeAs, takeFrame_toList, bind_ok]
  | rmTc src =>
    cases src with
    | frame f =>
      rw [encode, decode_request (by decide)]
      exact takeTc_encode_frame f r
    | payload me =>
      rw [encode, decode_request (by decide)]
      exact takeTc_encode_payload me r
  | rmClass tc =>
    rw [encode, decode_request (by decide)]
    simp only [decodeAs, takeBits_leBytes (n := 1) tc (by decide), bind_ok]
  | grayDec g w =>
    obtain ⟨hg, hw⟩ := Bool.and_eq_true_iff.1 h
    rw [encode, decode_request (by decide)]
    exact takeGray_encode hg (of_decide_eq_true hw) r
  | altDec alt =>
    rw [encode, decode_request (by decide)]
    simp only [decodeAs, h12, bind_ok]
  | posDec msg =>
    rw [encode, decode_request (by decide)]
    simp only [decodeAs, List.append_assoc, h64, takeFrame_toList, bind_ok]
  | cprNl lat =>
    obtain ⟨hn, hd⟩ := Bool.and_eq_true_iff.1 h
    rw [encode, decode_request (by decide)]
    exact takeNl_encode hn (of_decide_eq_true hd) r
  | cprDec x0 y0 x1 y1 recent =>
    rw [encode, decode_request (by decide)]
    exact takeCpr_encode x0 y0 x1 y1 recent r
  | fmtSampleWord u =>
    rw [encode, decode_request (by decide)]
    simp only [decodeAs, tagSample, h12, bind_ok]
  | fmtFrame f =>
    rw [encode, decode_request (by decide)]
    simp only [decodeAs, tagFrame, takeFrame_toList, bind_ok, frameRow_of_df_ne (bne_iff_ne.1 h)]
  | fmtFrameDf17 f =>
    rw [encode, decode_request (by decide)]
    simp only [decodeAs, tagFrame, takeFrame_toList, bind_ok, frameRow_of_df (beq_iff_eq.1 h)]
  | fmtMe me =>
    rw [encode, decode_request (by decide)]
    simp only [decodeAs, tagPayload, takePayload_beBytes, bind_ok, payloadRow_of_class_ne (bne_iff_ne.1 h)]
  | fmtMePosition me =>
    rw [encode, decode_request (by decide)]
    simp only [decodeAs, tagPayload, takePayload_beBytes, bind_ok, payloadRow_of_class (beq_iff_eq.1 h)]
  | fmtAltQ1 alt =>
    rw [encode, decode_request (by decide)]
    simp only [decodeAs, tagAlt, h12, bind_ok, altRow_of_q h]
  | fmtAltQ0 alt =>
    rw [encode, decode_request (by decide)]
    simp only [decodeAs, tagAlt, h12, bind_ok, altRow_of_not_q (by simpa [WellFormed] using h)]

/-! ### What the decoder accepts -/

/-- The reader `x`, started on the bytes `r`, reads only operands with the property `P`, and gives no bytes back. -/
def Reads {α : Type} (P : α → Prop) (x : Except DecodeError (α × List Byte)) (r : List Byte) : Prop :=
  ∀ a r', x = .ok (a, r') → P a ∧ r'.length ≤ r.length

theorem reads_ok {i : Instr} (h : WellFormed i = true) (r : List Byte) : Reads (WellFormed · = true) (.ok (i, r)) r := by
  rintro _ _ he
  obtain ⟨rfl, rfl⟩ := Prod.mk.inj (Except.ok.inj he)
  exact ⟨h, le_rfl⟩

theorem Reads.bind {α β : Type} {P : α → Prop} {Q : β → Prop} {x : Except DecodeError (α × List Byte)} {r : List Byte}
    {f : α × List Byte → Except DecodeError (β × List Byte)} (hx : Reads P x r)
    (hf : ∀ a r', P a → Reads Q (f (a, r')) r') : Reads Q (x >>= f) r := by
  rintro b r'' hb
  rcases x with e | ⟨a, r'⟩
  · cases hb
  · obtain ⟨hP, hlen⟩ := hx a r' rfl
    obtain ⟨hQ, hlen'⟩ := hf a r' hP b r'' hb
    exact ⟨hQ, hlen'.trans hlen⟩

theorem reads_takeNat (n : Nat) (r : List Byte) : Reads (· < 256 ^ n) (takeNat n r) r := fun _ _ => takeNat_length

theorem reads_takeInt (r : List Byte) : Reads (intOk · = true) (takeInt r) r := fun _ _ => takeInt_length

theorem reads_takeBits (n w : Nat) (r : List Byte) : Reads (fun _ => True) (takeBits n w r) r :=
  fun _ _ h => ⟨trivial, takeBits_length h⟩

theorem reads_takeFrame (r : List Byte) : Reads (fun _ => True) (takeFrame r) r :=
  fun _ _ h => ⟨trivial, takeFrame_length h⟩

theorem reads_takePayload (r : List Byte) : Reads (fun _ => True) (takePayload r) r :=
  fun _ _ h => ⟨trivial, takePayload_length h⟩

theorem reads_takeList (r : List Byte) : Reads (lengthOk ·.length = true) (takeList r) r := fun _ _ => takeList_length

theorem wellFormed_frameRow (f : Frame) : WellFormed (frameRow f) = true := by
  by_cases h : frameDf f = dfAdsb
  · rw [frameRow_of_df h]
    exact beq_iff_eq.2 h
  · rw [frameRow_of_df_ne h]
    exact bne_iff_ne.2 h

theorem wellFormed_payloadRow (me : Payload) : WellFormed (payloadRow me) = true := by
  by_cases h : classOf iqd (payloadTc me) = .position
  · rw [payloadRow_of_class h]
    exact beq_iff_eq.2 h
  · rw [payloadRow_of_class_ne h]
    exact bne_iff_ne.2 h

theorem wellFormed_altRow (alt : BitVec 12) : WellFormed (altRow alt) = true := by
  cases h : altQ alt with
  | true => rw [altRow_of_q h]; exact h
  | false => rw [altRow_of_not_q h, WellFormed, h]; rfl

/-- Cancelling brings the numerator nearer to 0. -/
theorem intOk_num_mkRat {num : Int} (h : intOk num = true) (den : Nat) : intOk (mkRat num (den + 1)).num = true := by
  simp only [intOk, Bool.and_eq_true, decide_eq_true_eq] at h ⊢
  have hg : (1 : Int) ≤ ((den + 1).gcd num.natAbs : Nat) := by exact_mod_cast Nat.gcd_pos_of_pos_left _ den.succ_pos
  rw [Rat.num_mkRat, if_neg den.succ_ne_zero]
  exact ⟨Int.le_ediv_of_mul_le (by omega) (by nlinarith), Int.ediv_lt_of_lt_mul (by omega) (by nlinarith)⟩

theorem den_mkRat_le (num : Int) (den : Nat) : (mkRat num (den + 1)).den ≤ den + 1 := by
  rw [Rat.den_mkRat, if_neg (Nat.succ_ne_zero den)]
  exact Nat.div_le_self _ _

theorem reads_takeTc (r : List Byte) : Reads (WellFormed · = true) (takeTc r) r := by
  refine (reads_takeBits 1 1 r).bind fun form r' _ => ?_
  change Reads _ (if form = 0 then _ else _) r'
  split_ifs
  · exact (reads_takeFrame r').bind fun f r'' _ => reads_ok rfl r''
  · exact (reads_takePayload r').bind fun me r'' _ => reads_ok rfl r''

theorem reads_takeGray (r : List Byte) : Reads (WellFormed · = true) (takeGray r) r := by
  refine (reads_takeNat 1 r).bind fun w r' hw => (reads_takeNat 4 r').bind fun g r'' hg => reads_ok ?_ r''
  simp only [WellFormed, lengthOk, Bool.and_eq_true, decide_eq_true_eq]
  exact ⟨hg, hw⟩

theorem reads_takeNl (r : List Byte) : Reads (WellFormed · = true) (takeNl r) r := by
  refine (reads_takeInt r).bind fun num r' hnum => (reads_takeNat 8 r').bind fun den r'' hden => reads_ok ?_ r''
  have hle := den_mkRat_le num den
  simp only [WellFormed, intOk_num_mkRat hnum den, Bool.true_and, decide_eq_true_eq]
  omega

theorem reads_takeCpr (r : List Byte) : Reads (WellFormed · = true) (takeCpr r) r :=
  (reads_takeBits 3 17 r).bind fun _ r1 _ => (reads_takeBits 3 17 r1).bind fun _ r2 _ =>
    (reads_takeBits 3 17 r2).bind fun _ r3 _ => (reads_takeBits 3 17 r3).bind fun _ r4 _ =>
      (reads_takeBits 1 1 r4).bind fun _ r5 _ => reads_ok rfl r5

theorem reads_decodeAs (code : Nat) (r : List Byte) : Reads (WellFormed · = true) (decodeAs code r) r := by
  unfold decodeAs
  split
  case h_2 | h_3 => exact (reads_takeNat 4 r).bind fun n r' hn => reads_ok (by exact decide_eq_true hn) r'
  case h_5 | h_8 => exact (reads_takeInt r).bind fun n r' hn => reads_ok (by exact hn) r'
  case h_11 | h_12 | h_13 => exact (reads_takeList r).bind fun b r' hb => reads_ok (by exact hb) r'
  case h_14 =>
    exact (reads_takeBits 8 64 r).bind fun v r1 _ => (reads_takeInt r1).bind fun start r2 hstart =>
      (reads_takeInt r2).bind fun size r3 hsize => reads_ok (by exact Bool.and_eq_true_iff.2 ⟨hstart, hsize⟩) r3
  case h_15 =>
    exact (reads_takeBits 8 64 r).bind fun ts r1 _ => (reads_takeList r1).bind fun b r2 hb => reads_ok (by exact hb) r2
  case h_16 | h_17 | h_18 => exact (reads_takeFrame r).bind fun f r' _ => reads_ok rfl r'
  case h_19 => exact reads_takeTc r
  case h_20 => exact (reads_takeBits 1 5 r).bind fun tc r' _ => reads_ok rfl r'
  case h_21 => exact reads_takeGray r
  case h_22 | h_26 => exact (reads_takeBits 2 12 r).bind fun alt r' _ => reads_ok rfl r'
  case h_23 =>
    exact (reads_takeBits 8 64 r).bind fun ts r1 _ => (reads_takeFrame r1).bind fun f r2 _ => reads_ok rfl r2
  case h_24 => exact reads_takeNl r
  case h_25 => exact reads_takeCpr r
  case h_27 => exact (reads_takeFrame r).bind fun f r' _ => reads_ok (wellFormed_frameRow f) r'
  case h_28 => exact (reads_takePayload r).bind fun me r' _ => reads_ok (wellFormed_payloadRow me) r'
  case h_29 => exact (reads_takeBits 2 12 r).bind fun alt r' _ => reads_ok (wellFormed_altRow alt) r'
  case h_30 => exact nofun
  all_goals exact reads_ok rfl r

/-- Settles O58: the code byte is taken, and the readers of the operands give nothing back. -/
theorem decodedRequestsAreWellFormed : Obligations.DecodedRequestsAreWellFormed := by
  intro bs i r h
  cases bs with
  | nil => cases h
  | cons b bs =>
    obtain ⟨hwf, hlen⟩ := reads_decodeAs b.toNat bs i r h
    exact ⟨hwf, Nat.lt_succ_of_le hlen⟩

/-! ### The step on a request -/

/-- Settles O60: the decoder gives the request back, and an empty queue is idle. -/
theorem stepRunsTheNextRequest : Obligations.StepRunsTheNextRequest := by
  refine ⟨fun s i r hi hr => step_of_decode ?_, fun s hr => if_pos hr⟩
  rw [hr, decodeOfEncodeIsTheInstruction i r hi]

theorem step_of_decode_error {s : State} {e : DecodeError} (hne : s.requests ≠ []) (h : decode s.requests = .error e) :
    step s = .refused (refusalOf e) := by
  rw [step, if_neg hne, nextRequest, h]

theorem decode_unassigned (c : Fin 7) (r : List Byte) :
    decode (BitVec.ofNat 8 (25 + c.val) :: r) = .error .unassignedCode := by
  fin_cases c <;> rfl

/-- Settles O59: the decoder runs on each word of the table; the codes above the table have no arm. -/
theorem selectCodesAreTheTables : Obligations.SelectCodesAreTheTables := by
  refine ⟨by decide +kernel, by decide +kernel, ?_, fun c s r hr => ?_, rfl, rfl, rfl, rfl, rfl⟩
  · have h : ∀ c : Fin 25, ((decodeTableWord 8 c.val).bind opCode) = some c.val := by decide +kernel
    exact fun c => Option.bind_eq_some_iff.1 (h c)
  · have hd : decode s.requests = .error .unassignedCode := by rw [hr, decode_unassigned]
    exact step_of_decode_error (by simp [hr]) hd

end Sys2Proof.Proofs
end

