-- ==== Sys2Proof/Proofs/Stream.lean ====
section
/-! PROOF. The byte stream (R31) and the samples that `SD.READ` gives (R60 to R62). -/

namespace Sys2Proof.Proofs

open Sys2Proof.Machine Sys2Proof.Laws

/-! ### The stream -/

/-- A read that ends within the bytes at hand does not see what follows them. -/
theorem readSource_append {n : Nat} {b : List Byte} (hn : n ≤ b.length) (tail : List SourceEvent) :
    readSource n (b.map .byte ++ tail) = .bytes (b.take n) ((b.drop n).map .byte ++ tail) := by
  induction n generalizing b with
  | zero => rfl
  | succ n ih =>
    cases b with
    | nil => cases hn
    | cons x r =>
      have hr := ih (Nat.le_of_succ_le_succ hn)
      simp only [List.map_cons, List.cons_append, readSource, hr, List.take_succ_cons, List.drop_succ_cons]

/-- Settles O3: the read takes the bytes one by one, and stops at the count or at the end of the stream. -/
theorem streamReadGivesTheNextBytes : Obligations.StreamReadGivesTheNextBytes :=
  fun n b tail => ⟨fun hn => readSource_append hn tail, readSource_bytes n b⟩

/-! ### The samples of a byte list -/

/-- R33: words of twelve bits are well-formed. -/
theorem samplesOf_isSome {b : List Byte} (h : ∀ j, 2 * j + 1 < b.length → (b.getD (2 * j + 1) 0).toNat < 16) :
    ∃ xs, samplesOf b = some xs := by
  induction b using List.twoStepInduction with
  | nil => exact ⟨[], rfl⟩
  | singleton x => exact ⟨[], rfl⟩
  | cons_cons lo hi r ih =>
    have hhi : hi.toNat < 16 := by simpa using h 0 (by simp)
    obtain ⟨xs, hxs⟩ := ih fun j hj => by
      have := h (j + 1) (by simp only [List.length_cons]; omega)
      simpa [Nat.mul_succ] using this
    have hw : sampleWord lo hi ≤ 4095 := by
      have := lo.isLt
      rw [sampleWord_eq]
      omega
    exact ⟨_, by rw [samplesOf_cons, if_pos hw, hxs]; rfl⟩

/-- R60, R61: sample `j` is the little-endian word `j`, less the bias. -/
theorem samplesOf_getD {b : List Byte} {xs : List Int} (h : samplesOf b = some xs) {j : Nat} (hj : j < b.length / 2) :
    xs.getD j 0 = ((b.getD (2 * j + 1) 0).toNat : Int) * 256 + ((b.getD (2 * j) 0).toNat : Int) - 2048 := by
  induction b using List.twoStepInduction generalizing xs j with
  | nil => simp at hj
  | singleton x => simp at hj
  | cons_cons lo hi r ih =>
    rw [samplesOf_cons] at h
    split_ifs at h
    obtain ⟨ys, hys, rfl⟩ := Option.map_eq_some_iff.1 h
    cases j with
    | zero => simp [sampleWord_eq, bias]
    | succ j => simpa [Nat.mul_succ] using ih hys (j := j) (by simp only [List.length_cons] at hj; omega)

/-- The samples of two byte lists, the first of whole words. -/
theorem samplesOf_append {a b : List Byte} (ha : a.length % 2 = 0) :
    samplesOf (a ++ b) = (samplesOf a).bind fun xs => (samplesOf b).map (xs ++ ·) := by
  induction a using List.twoStepInduction with
  | nil => cases hb : samplesOf b <;> simp [samplesOf, hb]
  | singleton x => simp at ha
  | cons_cons lo hi r ih =>
    have hr := ih (by simp only [List.length_cons] at ha; omega)
    simp only [List.cons_append, samplesOf_cons, hr]
    split_ifs
    · cases samplesOf r <;> cases samplesOf b <;> rfl
    · rfl

/-! ### `SD.READ` -/

theorem exec_sdRead {s : State} (hf : s.fault = none) (n : Nat) :
    exec (.sdRead n) s = deliver (sdRead n s) fun xs => .samples xs.length xs :=
  guarded_of_none hf _

/-- Settles O4: the bytes are well-formed words, and each gives its sample. -/
theorem sampleReadGivesCentredSamples : Obligations.SampleReadGivesCentredSamples := by
  intro s n b rest hf hn hread hwords
  obtain ⟨xs, hxs⟩ := samplesOf_isSome hwords
  have hlen := samplesOf_length hxs
  have hread' : readSource (2 * s.sdBatch).toNat s.source = .bytes b rest := by
    rw [show (2 * s.sdBatch).toNat = 2 * n by omega, hread]
  refine ⟨xs, ?_, hlen, fun j => samplesOf_getD hxs⟩
  rw [exec_sdRead hf, sdRead_eq_ok.2 ⟨hn, b, rest, hread', hxs, rfl⟩, deliver_of_ok, hlen, State.reply]

end Sys2Proof.Proofs
end

