-- ==== Sys2Proof/Proofs/Batches.lean ====
section
/-! PROOF. The four operations that read a batch: how they end where the batch completes, and where it does not
(R33, R59, R66, R68, R75, R144, R145). -/

namespace Sys2Proof.Proofs

open Sys2Proof.Machine Sys2Proof.Laws

theorem exec_pcRead {s : State} (hf : s.fault = none) (n : Nat) :
    exec (.pcRead n) s = deliver (pcRead n s) fun ps => .powers ps.length ps :=
  guarded_of_none hf _

theorem exec_pwAdv {s : State} (hf : s.fault = none) (hi : s.inited = true) :
    exec .pwAdv s = deliver (pwAdv s) fun _ => .done :=
  guardedInit_of hf hi _

/-! ### A batch that gives no value -/

/-- The rule ends with no value. -/
def Fails {α : Type} (r : Res α) : Prop :=
  ∀ a s, r ≠ .ok a s

theorem fails_raised {α : Type} (c : Cause) (s : State) : Fails (.raised c s : Res α) := by simp [Fails]

theorem fails_refused {α : Type} (x : Refusal) : Fails (.refused x : Res α) := by simp [Fails]

theorem fails_stuck {α : Type} (x : Fault) : Fails (.stuck x : Res α) := by simp [Fails]

/-- A rule that gives no value ends the operation, whatever was to follow. -/
theorem Fails.andThen {α β : Type} {r : Res α} (hr : Fails r) (f : α → State → Res β) : Fails (andThen r f) := by
  rintro b t h
  obtain ⟨a, s, ha, -⟩ := andThen_eq_ok.1 h
  exact hr a s ha

theorem Fails.deliver_andThen {α β : Type} {r : Res α} (hr : Fails r) (f : α → State → Res β) (p : β → Reply)
    (q : α → Reply) : deliver (Machine.andThen r f) p = deliver r q := by
  cases r with
  | ok a s => exact absurd rfl (hr a s)
  | raised c s => rfl
  | refused x => rfl
  | stuck x => rfl

/-- The batch behind `PC.READ(n)` is `SD.READ(2n)`. -/
theorem deliver_pcRead_of_fails {s : State} (h : Fails (sdRead (2 * s.pcBatch) s)) (p : List Power → Reply)
    (q : List Int → Reply) : deliver (pcRead s.pcBatch s) p = deliver (sdRead (2 * s.pcBatch) s) q := by
  rw [pcRead, if_neg (not_not_intro rfl)]
  exact h.deliver_andThen _ p q

theorem fails_pcRead {s : State} (h : Fails (sdRead (2 * s.pcBatch) s)) : Fails (pcRead s.pcBatch s) := by
  rw [pcRead, if_neg (not_not_intro rfl)]
  exact h.andThen _

/-- The batch behind `PW.INIT` is `PC.READ(65536)` (R73). -/
theorem deliver_pwInit_of_fails {s : State} (hlo : 1 ≤ s.wsize) (hhi : s.wsize < 65536) (h : Fails (pcRead batch s))
    (p : Unit → Reply) (q : List Power → Reply) : deliver (pwInit s) p = deliver (pcRead batch s) q := by
  rw [pwInit, if_neg (not_not_intro ⟨hlo, hhi⟩)]
  exact ((h.andThen _).deliver_andThen _ p (fun _ => .done)).trans (h.deliver_andThen _ _ q)

/-- The batch behind `PW.ADV` at the refill point is `PC.READ(65536)` (R80). -/
theorem deliver_pwAdv_of_fails {s : State} (hpib : (s.pib.toNat : Int) + s.wsize = 65536) (h : Fails (pcRead batch s))
    (p : Unit → Reply) (q : List Power → Reply) : deliver (pwAdv s) p = deliver (pcRead batch s) q := by
  have hrefill : advRefill s = andThen (refill (1 - s.cur) s) _ := if_pos (by omega)
  rw [pwAdv, hrefill]
  exact (((h.andThen _).andThen _).deliver_andThen _ p (fun _ => .done)).trans
    (((h.andThen _).deliver_andThen _ _ (fun _ => .done)).trans (h.deliver_andThen _ _ q))

/-- The four operations in the chain, where `SD.READ` gives no value: each of them ends as it does. -/
theorem exec_batch_of_fails {s : State} (hf : s.fault = none) (hpc : s.pcBatch = 65536) (h : Fails (sdRead 131072 s)) :
    exec (.pcRead 65536) s = exec (.sdRead 131072) s ∧
      (s.inited = false → 1 ≤ s.wsize → s.wsize < 65536 → exec .pwInit s = exec (.sdRead 131072) s) ∧
      (s.inited = true → (s.pib.toNat : Int) + s.wsize = 65536 → exec .pwAdv s = exec (.sdRead 131072) s) := by
  have hsd : Fails (sdRead (2 * s.pcBatch) s) := by rwa [hpc]
  have hbatch : pcRead batch s = pcRead s.pcBatch s := by rw [hpc]; rfl
  have hpcf : Fails (pcRead batch s) := hbatch ▸ fails_pcRead hsd
  have hdeliver : ∀ p, deliver (pcRead batch s) p = exec (.sdRead 131072) s := by
    intro p
    rw [hbatch, deliver_pcRead_of_fails hsd p fun xs => .samples xs.length xs, exec_sdRead hf, hpc]
    rfl
  refine ⟨(exec_pcRead hf 65536).trans (hdeliver _), fun hi hlo hhi => ?_, fun hi hpib => ?_⟩
  · rw [exec_pwInit hf hi, deliver_pwInit_of_fails hlo hhi hpcf _ fun _ => .done, hdeliver]
  · rw [exec_pwAdv hf hi, deliver_pwAdv_of_fails hpib hpcf _ fun _ => .done, hdeliver]

/-! ### An ill-formed word, and a read that never returns -/

theorem sdRead_refused {s : State} {n j : Nat} {b : List Byte} {rest : List SourceEvent} (hn : (n : Int) = s.sdBatch)
    (hj : 2 * j + 1 < b.length) (hw : 16 ≤ (b.getD (2 * j + 1) 0).toNat)
    (hread : readSource (2 * n) s.source = .bytes b rest) : sdRead n s = .refused .illFormedStream := by
  refine sdRead_eq_refused.2 ⟨hn, rfl, b, rest, ?_, samplesOf_eq_none hj hw⟩
  rw [show (2 * s.sdBatch).toNat = 2 * n by omega, hread]

/-- The bytes that a batch of the chain asks for. -/
theorem toNat_sdBatch_chain {s : State} (hsd : s.sdBatch = 131072) : (2 * s.sdBatch).toNat = 262144 := by
  omega

theorem sdRead_stuck {s : State} (hsd : s.sdBatch = 131072) (hread : readSource 262144 s.source = .blocks) :
    sdRead 131072 s = .stuck .neverReturns :=
  sdRead_eq_stuck.2 ⟨hsd.symm, rfl, by rw [toNat_sdBatch_chain hsd, hread]⟩

theorem pcRead_refused {s : State} {n : Nat} {x : Refusal} (hn : (n : Int) = s.pcBatch)
    (h : sdRead (2 * n : Nat) s = .refused x) : pcRead n s = .refused x :=
  pcRead_eq_refused.2 ⟨hn, by rw [← hn]; exact_mod_cast h⟩

/-- Settles O5: `SD.READ` is refused or stuck, and what calls it ends alike. -/
theorem unusableStreamGivesNoResult : Obligations.UnusableStreamGivesNoResult := by
  refine ⟨fun s n j b rest hf hj hw => ⟨fun hn hread => ?_, fun hn hsd hread => ?_, fun hpc hsd hread => ?_⟩,
    fun s hf hc hread => ?_⟩
  · rw [exec_sdRead hf, sdRead_refused hn hj hw hread, deliver_of_refused]
  · have hsdr := sdRead_refused (n := 2 * n) (by exact_mod_cast hsd) hj hw (by rw [show 2 * (2 * n) = 4 * n by omega, hread])
    rw [exec_pcRead hf, pcRead_refused hn hsdr, deliver_of_refused]
  · have hsdr : sdRead 131072 s = .refused .illFormedStream :=
      sdRead_refused (n := 131072) hsd.symm hj hw hread
    have hexec : exec (.sdRead 131072) s = .refused .illFormedStream := by
      rw [exec_sdRead hf]
      exact congrArg (deliver · _) hsdr
    obtain ⟨-, hinit, hadv⟩ := exec_batch_of_fails hf hpc (hsdr ▸ fails_refused _)
    exact ⟨fun hi hlo hhi => (hinit hi hlo hhi).trans hexec, fun hi hpib => (hadv hi hpib).trans hexec⟩
  · obtain ⟨hw, hpc, hsd⟩ := hc
    have hsdr := sdRead_stuck hsd hread
    have hexec : exec (.sdRead 131072) s = .fault .neverReturns := by
      rw [exec_sdRead hf]
      exact congrArg (deliver · _) hsdr
    obtain ⟨hpcr, hinit, hadv⟩ := exec_batch_of_fails hf hpc (hsdr ▸ fails_stuck _)
    exact ⟨hexec, hpcr.trans hexec, fun hi => (hinit hi (by omega) (by omega)).trans hexec,
      fun hi hpib => (hadv hi (by omega)).trans hexec⟩

/-! ### A read error, and a broken contract -/

/-- Settles O7: `SD.READ` raises with the registers as they were, and what calls it ends alike. -/
theorem readErrorLatchesCode7 : Obligations.ReadErrorLatchesCode7 := by
  intro s hf ⟨hw, hpc, hsd⟩ hread
  have hsdr := sdRead_eq_raised.2 (.inr ⟨hsd.symm, by rw [toNat_sdBatch_chain hsd, hread], rfl, rfl⟩)
  have hexec := exec_sdRead hf 131072
  rw [show sdRead (131072 : Nat) s = _ from hsdr, deliver_of_raised] at hexec
  obtain ⟨hpcr, hinit, hadv⟩ := exec_batch_of_fails hf hpc (hsdr ▸ fails_raised _ _)
  exact ⟨_, _, hexec, hpcr.trans hexec, fun hi => (hinit hi (by omega) (by omega)).trans hexec,
    fun hi hpib => (hadv hi (by omega)).trans hexec⟩

/-- Settles O6: the test of each contract stands before the read. -/
theorem batchContractsAreEnforced : Obligations.BatchContractsAreEnforced := by
  refine fun s hf => ⟨fun n hn => ?_, fun n hn => ?_, fun hi hw => ?_, fun hi hlo hhi hpc => ?_⟩
  · rw [exec_sdRead hf, sdRead_eq_raised.2 (.inl ⟨hn, rfl, rfl⟩), deliver_of_raised, State.takeFault]
  · rw [exec_pcRead hf, pcRead_eq_raised.2 (.inl ⟨.inl hn, rfl, rfl⟩), deliver_of_raised, State.takeFault]
  · rw [exec_pwInit hf hi, pwInit_eq_raised.2 (.inl ⟨hw, rfl, rfl⟩), deliver_of_raised, State.takeFault]
  · have hraised := pcRead_eq_raised.2 (.inl ⟨.inl hpc.symm, rfl, rfl⟩)
    rw [exec_pwInit hf hi, pwInit_eq_raised.2 (.inr ⟨⟨hlo, hhi⟩, hraised⟩), deliver_of_raised, State.takeFault]

/-! ### A batch that completes -/

/-- Settles O10: the samples of the bytes go through `PairStep`, pair by pair. -/
theorem powerReadCompletes : Obligations.PowerReadCompletes := by
  intro s n b rest xs hf hn hsd hread hxs
  have hlen := pairSteps_length s.h s.k xs
  have hread' : readSource (2 * s.sdBatch).toNat s.source = .bytes b rest := by
    rw [show (2 * s.sdBatch).toNat = 4 * n by omega, hread]
  have hok := pcRead_eq_ok.2 ⟨hn, by rw [← hn, hsd], b, rest, xs, hread', hxs, rfl, rfl⟩
  refine ⟨_, _, _, rfl, hlen, ?_⟩
  rw [exec_pcRead hf, hok, deliver_of_ok, hlen, State.reply]

/-- `PC.READ(65536)` on a well-formed batch. -/
theorem pcRead_batch_ok {s : State} {b : List Byte} {rest : List SourceEvent} {xs : List Int} (hpc : s.pcBatch = 65536)
    (hsd : s.sdBatch = 131072) (hread : readSource 262144 s.source = .bytes b rest) (hxs : samplesOf b = some xs) :
    pcRead batch s = .ok (pairSteps s.h s.k xs).2.2
      { s with source := rest, h := (pairSteps s.h s.k xs).1, k := (pairSteps s.h s.k xs).2.1 } :=
  pcRead_eq_ok.2 ⟨hpc.symm, by omega, b, rest, xs, by rw [toNat_sdBatch_chain hsd, hread], hxs, rfl, rfl⟩

/-- Settles O12: one batch in bank 0, and the registers set. -/
theorem windowInitCompletes : Obligations.WindowInitCompletes := by
  intro s b rest xs hf hi hlo hhi hpc hsd hread hxs
  have hok := pcRead_batch_ok hpc hsd hread hxs
  refine ⟨_, _, _, rfl, (pcRead_batch hok).1, ?_⟩
  rw [exec_pwInit hf hi, pwInit_eq_ok.2 ⟨hlo, hhi, _, _, hok, rfl⟩, deliver_of_ok, State.reply]

/-- `advRegs` in one state: both registers of the window's place turn over together at the end of a bank. -/
theorem advRegs_eq (s : State) :
    advRegs s =
      { s with
        pos := s.pos + 1, pib := if s.pib.toNat = 65535 then 0 else s.pib + 1,
        cur := if s.pib.toNat = 65535 then 1 - s.cur else s.cur } := by
  unfold advRegs
  by_cases h : s.pib.toNat = 65535
  · rw [if_pos (by omega), if_pos h, if_pos h]
  · rw [if_neg (by omega), if_neg h, if_neg h]

theorem pwAdv_without_refill {s : State} (hpib : (s.pib.toNat : Int) + s.wsize ≠ 65536)
    (hpos : (s.pos.toNat + 1) * 100 ≤ 2 ^ 63 - 1) : pwAdv s = .ok () (advRegs s) :=
  pwAdv_eq_ok.2 ⟨s, advRefill_eq_ok.2 (.inl ⟨hpib, rfl⟩), posInRange_iff.2 (by omega), rfl⟩

/-- Settles O15: the registers move, and there is nothing else to do. -/
theorem advanceWithoutRefillCompletes : Obligations.AdvanceWithoutRefillCompletes := by
  intro s hf hi hpib hpos
  rw [exec_pwAdv hf hi, pwAdv_without_refill hpib hpos, deliver_of_ok, advRegs_eq, State.reply]
  refine ⟨fun h => ?_, fun h => ?_⟩
  · rw [if_neg (by omega), if_neg (by omega)]
  · rw [if_pos h, if_pos h]

/-- Settles O16: the batch goes to the spare bank, and then the registers move. -/
theorem advanceWithRefillCompletes : Obligations.AdvanceWithRefillCompletes := by
  intro s b rest xs hf hi hpib hpc hsd hread hxs hload hpos
  have hok := pcRead_batch_ok hpc hsd hread hxs
  have hlen := pairSteps_length s.h s.k xs
  have hlen' := samplesOf_length hxs
  have hrefill := advRefill_eq_ok.2 (.inr ⟨hpib, _, _, hok, by rw [hlen]; exact hload, rfl⟩)
  refine ⟨_, _, _, rfl, ?_⟩
  rw [exec_pwAdv hf hi, pwAdv_eq_ok.2 ⟨_, hrefill, posInRange_iff.2 (by dsimp only; omega), rfl⟩, deliver_of_ok, advRegs_eq,
    State.reply]

end Sys2Proof.Proofs
end

