-- ==== Sys2Proof/Proofs/PowerStream.lean ====
section
/-! PROOF. The pair step (R67) and the closed formula of the power stream (R69). -/

namespace Sys2Proof.Proofs

open Sys2Proof.Machine Sys2Proof.Laws

/-! ### One pair -/

theorem toInt_ofInt_sample {a : Int} (hlo : -2048 ≤ a) (hhi : a ≤ 2047) : (BitVec.ofInt 12 a).toInt = a := by
  rw [BitVec.toInt_ofInt, Int.bmod_eq_of_le] <;> omega

theorem toNat_add_two (k : BitVec 3) : (k + 2).toNat = (k.toNat + 2) % 8 := by
  rw [BitVec.toNat_add]
  rfl

/-- The history after a pair: the two slots from an even `K` on hold the samples. -/
theorem histGet_histPair {h : History} {k : BitVec 3} {a b : Int} (hk : k.toNat % 2 = 0) (ha : -2048 ≤ a ∧ a ≤ 2047)
    (hb : -2048 ≤ b ∧ b ≤ 2047) (i : Nat) :
    histGet (histPair h k a b) i =
      if i % 8 = k.toNat + 1 then b else if i % 8 = k.toNat then a else histGet h i := by
  have hlt := k.isLt
  have h0 : k.toNat % 8 = k.toNat := Nat.mod_eq_of_lt hlt
  have h1 : (k.toNat + 1) % 8 = k.toNat + 1 := by omega
  rw [histPair, histGet_histPut, histGet_histPut, h0, h1, toInt_ofInt_sample ha.1 ha.2, toInt_ofInt_sample hb.1 hb.2]

theorem pairSteps_pair (h : History) (k : BitVec 3) (a b : Int) :
    pairSteps h k [a, b] =
      (histPair h k a b, k + 2, [BitVec.ofInt 28 (powerAt (histPair h k a b) (k + 2).toNat)]) := rfl

/-- Settles O8: one pair, read slot by slot. -/
theorem pairStepWritesThenSums : Obligations.PairStepWritesThenSums := by
  intro h k a b hk ha ha' hb hb'
  have hlt := k.isLt
  have hget := histGet_histPair (h := h) hk ⟨ha, ha'⟩ ⟨hb, hb'⟩
  refine ⟨_, _, pairSteps_pair h k a b, ?_, ?_, fun i hi hne hne' => ?_, _, rfl, ?_⟩
  · rw [hget, if_neg (by omega), if_pos (by omega)]
  · rw [hget, if_pos (by omega)]
  · rw [hget, if_neg (by omega), if_neg (by omega)]
  · rw [powerBits_toNat, toNat_add_two]
    simp only [powerAt, sumI, sumQ, histGet_mod, sq]

/-! ### The power stream -/

/-- Before pair `m` of the stream `xs` the history holds the last eight samples, the oldest at `K` (R67). -/
def HoldsLastEight (xs : List Int) (m : Nat) (h : History) (k : BitVec 3) : Prop :=
  ∀ d, d < 8 → histGet h (k.toNat + d) = sampleAt xs (2 * (m : Int) - 8 + d)

theorem sampleAt_of_neg {xs : List Int} {j : Int} (hj : j < 0) : sampleAt xs j = 0 := if_pos hj

theorem sampleAt_natCast (xs : List Int) (j : Nat) : sampleAt xs j = xs.getD j 0 := by
  rw [sampleAt, if_neg (Int.not_lt.2 (Int.natCast_nonneg j)), Int.toNat_natCast]

theorem holdsLastEight_reset (xs : List Int) : HoldsLastEight xs 0 (Vector.replicate 8 0) 0 := by
  intro d hd
  rw [histGet_replicate, sampleAt_of_neg (by omega)]

/-- A pair takes the place of the two oldest samples. -/
theorem HoldsLastEight.pair {xs : List Int} {m : Nat} {h : History} {k : BitVec 3} {a b : Int}
    (hh : HoldsLastEight xs m h k) (hk : k.toNat % 2 = 0) (ha : -2048 ≤ a ∧ a ≤ 2047) (hb : -2048 ≤ b ∧ b ≤ 2047)
    (hxa : sampleAt xs (2 * (m : Int)) = a) (hxb : sampleAt xs (2 * (m : Int) + 1) = b) :
    HoldsLastEight xs (m + 1) (histPair h k a b) (k + 2) := by
  intro d hd
  have hlt := k.isLt
  rw [histGet_histPair hk ha hb, toNat_add_two]
  by_cases h6 : d = 6
  · rw [if_neg (by omega), if_pos (by omega), ← hxa]
    congr 1
    omega
  · by_cases h7 : d = 7
    · rw [if_pos (by omega), ← hxb]
      congr 1
      omega
    · rw [if_neg (by omega), if_neg (by omega), ← histGet_mod, show ((k.toNat + 2) % 8 + d) % 8 = (k.toNat + (d + 2)) % 8 by omega,
        histGet_mod, hh (d + 2) (by omega)]
      congr 1
      omega

/-- The power of the updated history is the closed formula of R69. -/
theorem HoldsLastEight.power {xs : List Int} {m : Nat} {h : History} {k : BitVec 3}
    (hh : HoldsLastEight xs (m + 1) h k) : powerAt h k.toNat = powerOf xs m := by
  have hget : ∀ d, d < 8 → histGet h (k.toNat + d) = sampleAt xs (2 * (m : Int) - 6 + d) := by
    intro d hd
    rw [hh d hd]
    congr 1
    omega
  have h0 := hget 0 (by omega)
  simp only [powerAt, sumI, sumQ, powerOf, hget 1 (by omega), hget 2 (by omega), hget 3 (by omega), hget 4 (by omega),
    hget 5 (by omega), hget 6 (by omega), hget 7 (by omega)]
  rw [show histGet h k.toNat = _ from h0, sq, sq]
  push_cast
  ring_nf

/-- The pairs of `ys`, where `ys` goes on with the stream from pair `m`: the history holds the last eight samples again,
and each power is its closed formula. -/
theorem pairSteps_powerOf {xs ys : List Int} {m : Nat} {h : History} {k : BitVec 3}
    (hys : ∀ j, j < ys.length → sampleAt xs (2 * (m : Int) + j) = ys.getD j 0) (hbound : ∀ y ∈ ys, -2048 ≤ y ∧ y ≤ 2047)
    (hk : k.toNat % 2 = 0) (hh : HoldsLastEight xs m h k) :
    HoldsLastEight xs (m + ys.length / 2) (pairSteps h k ys).1 (pairSteps h k ys).2.1 ∧
      ∀ n, n < ys.length / 2 → (((pairSteps h k ys).2.2.getD n 0).toNat : Int) = powerOf xs (m + n) := by
  induction ys using List.twoStepInduction generalizing m h k with
  | nil => exact ⟨hh, fun n hn => absurd hn (Nat.not_lt_zero n)⟩
  | singleton x => exact ⟨by simpa [pairSteps] using hh, fun n hn => absurd hn (by simp)⟩
  | cons_cons a b r ih =>
    have hxa : sampleAt xs (2 * (m : Int)) = a := by simpa using hys 0 (by simp)
    have hxb : sampleAt xs (2 * (m : Int) + 1) = b := by simpa using hys 1 (by simp)
    have hh' := hh.pair hk (hbound a (by simp)) (hbound b (by simp)) hxa hxb
    have hk' : (k + 2).toNat % 2 = 0 := by
      rw [toNat_add_two]
      omega
    have hr : ∀ j, j < r.length → sampleAt xs (2 * ((m + 1 : Nat) : Int) + j) = r.getD j 0 := by
      intro j hj
      have := hys (j + 2) (by simp only [List.length_cons]; omega)
      rw [show 2 * ((m + 1 : Nat) : Int) + j = 2 * (m : Int) + (j + 2 : Nat) by push_cast; ring, this]
      rfl
    obtain ⟨hend, hpow⟩ := ih hr (fun y hy => hbound y (by simp [hy])) hk' hh'
    have hlen : m + (a :: b :: r).length / 2 = m + 1 + r.length / 2 := by
      simp only [List.length_cons]
      omega
    rw [pairSteps_cons, hlen]
    refine ⟨hend, fun n hn => ?_⟩
    cases n with
    | zero => rw [List.getD_cons_zero, powerBits_toNat, hh'.power, Nat.add_zero]
    | succ n =>
      rw [List.getD_cons_succ, hpow n (by simp only [List.length_cons] at hn; omega)]
      congr 1
      omega

/-- R69: the power samples of a stream, from the reset history. -/
theorem pairSteps_reset_powerOf {xs : List Int} (hxs : ∀ x ∈ xs, -2048 ≤ x ∧ x ≤ 2047) {n : Nat}
    (hn : n < xs.length / 2) :
    (((pairSteps (Vector.replicate 8 0) 0 xs).2.2.getD n 0).toNat : Int) = powerOf xs n := by
  have hall : ∀ j, j < xs.length → sampleAt xs (2 * ((0 : Nat) : Int) + j) = xs.getD j 0 := fun j _ => by
    rw [Nat.cast_zero, mul_zero, zero_add, sampleAt_natCast]
  have := (pairSteps_powerOf hall hxs rfl (holdsLastEight_reset xs)).2 n hn
  rwa [Nat.zero_add] at this

/-- Settles O9: the history always holds the last eight samples, so that batches do not show. -/
theorem powerStreamFollowsTheFormula : Obligations.PowerStreamFollowsTheFormula :=
  ⟨fun xs hxs => ⟨pairSteps_length _ _ xs, fun _ => pairSteps_reset_powerOf hxs⟩, pairSteps_append⟩

end Sys2Proof.Proofs
end

