-- ==== Sys2Proof/Proofs/Banks.lean ====
section
/-! PROOF. Writes to the power banks (R35), and the reads of `PW.GET` (R76, R77). -/

namespace Sys2Proof.Proofs

open Sys2Proof.Machine Sys2Proof.Laws

/-- The single writes of a batch from entry `k` on, and what they read: the memory stays canonical. -/
theorem foldl_memWrite {m : Memory} (hm : m.wf = true) (b : Fin 2) {ps : List Power} {k : Nat}
    (hk : k + ps.length ≤ 65536) :
    ((ps.zipIdx k).foldl (fun m' e => memWrite m' b e.2 e.1) m).wf = true ∧
      ∀ b' j, memRead ((ps.zipIdx k).foldl (fun m' e => memWrite m' b e.2 e.1) m) b' j =
        if b' = b ∧ k ≤ j ∧ j < k + ps.length then ps.getD (j - k) 0 else memRead m b' j := by
  induction ps generalizing m k with
  | nil =>
    refine ⟨hm, fun b' j => ?_⟩
    rw [if_neg (by simp)]
    rfl
  | cons p ps ih =>
    simp only [List.length_cons] at hk ⊢
    obtain ⟨hwf, hread⟩ := ih (k := k + 1) (memWrite_wf hm b (by omega : k < 65536) p) (by omega)
    refine ⟨hwf, fun b' j => (hread b' j).trans ?_⟩
    rw [memRead_memWrite hm]
    by_cases hb : b' = b
    · rcases Nat.lt_trichotomy j k with hj | hj | hj
      · rw [if_neg (by omega), if_neg (by omega), if_neg (by omega)]
      · rw [if_neg (by omega), if_pos ⟨hb, hj⟩, if_pos (by omega), hj, Nat.sub_self, List.getD_cons_zero]
      · by_cases hj' : j < k + 1 + ps.length
        · rw [if_pos (by omega), if_pos (by omega), show j - k = j - (k + 1) + 1 by omega, List.getD_cons_succ]
        · rw [if_neg (by omega), if_neg (by omega), if_neg (by omega)]
    · simp only [hb, false_and, if_false]

theorem memFill_eq_foldl_memWrite {m : Memory} (hm : m.wf = true) (b : Fin 2) {ps : List Power}
    (hps : ps.length ≤ 65536) : memFill m b ps = ps.zipIdx.foldl (fun m' e => memWrite m' b e.2 e.1) m := by
  obtain ⟨hwf, hread⟩ := foldl_memWrite hm b (k := 0) (by omega : 0 + ps.length ≤ 65536)
  refine memory_ext (memFill_wf hm b hps) hwf fun b' j => ?_
  rw [hread, memRead_memFill]
  simp only [Nat.zero_le, true_and, Nat.zero_add, Nat.sub_zero]

/-- Settles O11: reads tell canonical memories apart, and a batch reads as its single writes do. -/
theorem writesLandInTheirBank : Obligations.WritesLandInTheirBank :=
  ⟨fun _ b k v b' k' hm _ => memRead_memWrite hm b k v b' k', memRead_memFill,
    fun _ b _ hm hps => memFill_eq_foldl_memWrite hm b hps⟩

theorem exec_pwGet {s : State} (hf : s.fault = none) (hi : s.inited = true) (i : Int) :
    exec (.pwGet i) s = deliver (pwGet i s) .power :=
  guardedInit_of hf hi _

theorem pwGet_of_index {i : Int} {s : State} (h0 : 0 ≤ i) (hw : i < s.wsize) : pwGet i s = .ok (windowAt s i.toNat) s :=
  if_neg (not_not_intro ⟨h0, hw⟩)

theorem locate_of_lt {s : State} {i : Nat} (h : s.pib.toNat + i < 65536) : locate s i = (s.cur, s.pib.toNat + i) :=
  if_pos h

theorem locate_of_ge {s : State} {i : Nat} (h : 65536 ≤ s.pib.toNat + i) :
    locate s i = (1 - s.cur, s.pib.toNat + i - 65536) :=
  if_neg (Nat.not_lt.2 h)

/-- Settles O13: `Locate` names the current bank below its end and the spare bank from there on. -/
theorem windowGetReadsTheLocatedEntry : Obligations.WindowGetReadsTheLocatedEntry := by
  refine fun s i hf hi => ⟨fun h0 hw hlt => ?_, fun h0 hw hge => ?_, fun hi' => ?_⟩
  · rw [exec_pwGet hf hi, pwGet_of_index h0 hw, deliver_of_ok, windowAt, locate_of_lt hlt, State.reply]
  · rw [exec_pwGet hf hi, pwGet_of_index h0 hw, deliver_of_ok, windowAt, locate_of_ge hge, State.reply]
  · rw [exec_pwGet hf hi, pwGet, if_pos (by omega), deliver_of_raised, State.takeFault]

end Sys2Proof.Proofs
end

