-- ==== Sys2Proof/Proofs/Fields.lean ====
section
/-! PROOF. The fields of numbers, messages and data words (R47 to R51, R108, R109, R111, R113, R124). -/

namespace Sys2Proof.Proofs

open Sys2Proof.Machine Sys2Proof.Laws

/-! ### Unit BITS -/

theorem exec_bitsX {s : State} (hf : s.fault = none) (v : BitVec 64) (start size : Int) :
    exec (.bitsX v start size) s = deliver (bitsX v start size s) .bits :=
  guarded_of_none hf _

theorem bitsX_of_legal {start size : Int} (v : BitVec 64) (s : State) (hsize : 0 ≤ size ∧ size ≤ 31)
    (hstart : 0 ≤ start ∧ start + size ≤ 64) :
    bitsX v start size s = .ok (field v.toNat start.toNat size.toNat) s := by
  rw [bitsX, if_neg (not_not_intro hsize), if_neg (not_not_intro hstart)]

theorem bitsX_of_illegal {start size : Int} (v : BitVec 64) (s : State)
    (h : size < 0 ∨ 31 < size ∨ start < 0 ∨ 64 < start + size) : bitsX v start size s = .raised .bitRange s := by
  by_cases hsize : 0 ≤ size ∧ size ≤ 31
  · rw [bitsX, if_neg (not_not_intro hsize), if_pos (by omega)]
  · rw [bitsX, if_pos hsize]

/-- Settles O33: the two tests are those of R108. -/
theorem bitsExtractOrReject : Obligations.BitsExtractOrReject := by
  refine fun s v start size hf => ⟨fun h0 h31 hs0 hs64 => ?_, fun h => ?_⟩
  · rw [exec_bitsX hf, bitsX_of_legal v s ⟨h0, h31⟩ ⟨hs0, hs64⟩, deliver_of_ok, field_eq, State.reply]
  · rw [exec_bitsX hf, bitsX_of_illegal v s h, deliver_of_raised, State.takeFault]

/-! ### Unit RM -/

theorem frameOfList_toList (f : Frame) : frameOfList f.toList = some f :=
  dif_pos f.length_toList

theorem frameOfList_of_length_ne {b : List Byte} (h : b.length ≠ 14) : frameOfList b = none := dif_neg h

theorem exec_rmParse {s : State} (hf : s.fault = none) (ts : BitVec 64) (b : List Byte) :
    exec (.rmParse ts b) s = deliver (rmParse ts b s) messageReply :=
  guarded_of_none hf _

theorem rmParse_toList (ts : BitVec 64) (f : Frame) (s : State) :
    rmParse ts f.toList s = .ok (if crcBytewise f.toList = 0 then some ⟨ts, f⟩ else none) s := by
  rw [rmParse, frameOfList_toList]

theorem rmParse_of_length_ne {b : List Byte} (ts : BitVec 64) (h : b.length ≠ 14) (s : State) :
    rmParse ts b s = .raised .bufferSize s := by
  rw [rmParse, frameOfList_of_length_ne h]

/-- Settles O34: a frame's bytes are the frame again, and its CRC decides. -/
theorem parseKeepsValidFrames : Obligations.ParseKeepsValidFrames := by
  refine fun s ts hf => ⟨fun f hc => ?_, fun f hc => ?_, fun b hl => ?_⟩
  · rw [exec_rmParse hf, rmParse_toList, if_pos hc, deliver_of_ok, messageReply, State.reply]
  · rw [exec_rmParse hf, rmParse_toList, if_neg hc, deliver_of_ok, messageReply, State.reply]
  · rw [exec_rmParse hf, rmParse_of_length_ne ts hl, deliver_of_raised, State.takeFault]

theorem toNat_frameIcao (f : Frame) :
    (frameIcao f).toNat = f[1].toNat * 65536 + f[2].toNat * 256 + f[3].toNat := by
  simp only [frameIcao, BitVec.toNat_ofNat, shiftLeft_or_byte, shiftLeft_or_last]
  omega

/-- The table of R113, row by row. -/
theorem classOf_iqd (tc : BitVec 5) :
    (classOf iqd tc = .ident ↔ 1 ≤ tc.toNat ∧ tc.toNat ≤ 4) ∧ (classOf iqd tc = .velocity ↔ tc.toNat = 19) ∧
      (classOf iqd tc = .position ↔ (9 ≤ tc.toNat ∧ tc.toNat ≤ 18) ∨ (20 ≤ tc.toNat ∧ tc.toNat ≤ 22)) := by
  revert tc
  decide

/-- Settles O36: the address is its number, and the kind is that of the table. -/
theorem addressAndClassComplete : Obligations.AddressAndClassComplete := by
  intro s f tc hf
  exact ⟨frameIcao f, classOf iqd tc, stateless_of_none hf _, toNat_frameIcao f, stateless_of_none hf _, classOf_iqd tc⟩

/-! ### The fields of a frame word -/

theorem frame_toList (f : Frame) :
    f.toList = [f[0], f[1], f[2], f[3], f[4], f[5], f[6], f[7], f[8], f[9], f[10], f[11], f[12], f[13]] := by
  obtain ⟨⟨l⟩, h⟩ := f
  simp only [List.size_toArray] at h
  match l, h with
  | [f0, f1, f2, f3, f4, f5, f6, f7, f8, f9, f10, f11, f12, f13], _ => rfl

/-- R48: the frame as the 112-bit integer of its bytes, the first in the most significant place. -/
theorem foldl_frame (f : Frame) :
    f.toList.foldl (fun n b => n * 256 + b.toNat) 0 =
      f[0].toNat * 2 ^ 104 + (f[1].toNat * 65536 + f[2].toNat * 256 + f[3].toNat) * 2 ^ 80 +
        (f[4].toNat * 256 ^ 6 + f[5].toNat * 256 ^ 5 + f[6].toNat * 256 ^ 4 + f[7].toNat * 256 ^ 3 +
          f[8].toNat * 256 ^ 2 + f[9].toNat * 256 + f[10].toNat) * 2 ^ 24 +
        (f[11].toNat * 65536 + f[12].toNat * 256 + f[13].toNat) := by
  rw [frame_toList]
  simp only [List.foldl_cons, List.foldl_nil]
  ring

theorem toNat_framePi (f : Frame) :
    (framePi f).toNat = f[11].toNat * 65536 + f[12].toNat * 256 + f[13].toNat := by
  simp only [framePi, BitVec.toNat_ofNat, shiftLeft_or_byte, shiftLeft_or_last]
  omega

theorem toNat_frameLow (f : Frame) : (frameLow f).toNat = f[0].toNat % 8 := by
  simp [frameLow, field_eq]

/-- A frame word is its fields one after the other, each below its width. -/
theorem foldl_frame_fields (f : Frame) :
    f.toList.foldl (fun n b => n * 256 + b.toNat) 0 =
      (frameDf f).toNat * 2 ^ 107 + (frameLow f).toNat * 2 ^ 104 + (frameIcao f).toNat * 2 ^ 80 +
        (frameMe f).toNat * 2 ^ 24 + (framePi f).toNat := by
  rw [foldl_frame, toNat_frameDf, toNat_frameLow, toNat_frameIcao, toNat_frameMe, toNat_framePi]
  omega

/-- Settles O48: the word is put together from the fields that the reply holds. -/
theorem sampleAndFrameWordsAreTakenApart : Obligations.SampleAndFrameWordsAreTakenApart := by
  intro s u f W hW
  rw [foldl_frame_fields] at hW
  have hdf := (frameDf f).isLt
  have hlow := (frameLow f).isLt
  have hicao := (frameIcao f).isLt
  have hme := (frameMe f).isLt
  have hpi := (framePi f).isLt
  refine ⟨rfl, fieldsOfFrame f, rfl, rfl, ?_, ?_, ?_, ?_, ?_⟩ <;> simp only [fieldsOfFrame] <;> omega

/-! ### The fields of payloads and altitude fields -/

/-- A field of a word, as the library cuts it out. -/
theorem ofNat_field {n : Nat} (v : BitVec n) (lo width : Nat) :
    BitVec.ofNat width (field v.toNat lo width) = v.extractLsb' lo width := by
  apply BitVec.eq_of_toNat_eq
  simp [field]

/-- Settles O49: each field of the reply is cut out where its row says. -/
theorem payloadAndAltitudeWordsAreTakenApart : Obligations.PayloadAndAltitudeWordsAreTakenApart := by
  refine fun s me alt => ⟨?_, ?_, ?_, rfl⟩
  · rw [← ofNat_field me 51 5, ← ofNat_field me 0 51]
    rfl
  · rw [← ofNat_field me 51 5, ← ofNat_field me 36 12, ← ofNat_field me 17 17, ← ofNat_field me 0 17]
    rfl
  · rw [← ofNat_field alt 5 7, ← ofNat_field alt 0 4, ← altValue_eq]
    rfl

/-! ### The position record -/

/-- Bits above the width of a field are dropped in any case. -/
theorem ofNat_field_eq_ofNat (v lo width : Nat) : BitVec.ofNat width (field v lo width) = BitVec.ofNat width (v / 2 ^ lo) := by
  apply BitVec.eq_of_toNat_eq
  simp [field_eq]

theorem exec_posDec {s : State} (hf : s.fault = none) (msg : Message) :
    exec (.posDec msg) s = .next (s.reply (positionReply (posDec iqd msg))) :=
  stateless_of_none hf _

theorem posDec_of_class_ne {cfg : Config} {msg : Message} (h : classOf cfg (payloadTc (frameMe msg.bytes)) ≠ .position) :
    posDec cfg msg = none :=
  if_pos h

theorem posDec_of_class {cfg : Config} {msg : Message} (h : classOf cfg (payloadTc (frameMe msg.bytes)) = .position) :
    posDec cfg msg = (altDec cfg (payloadAlt cfg (frameMe msg.bytes))).map fun a =>
      { ts := msg.ts, icao := frameIcao msg.bytes, altFt := a, par := payloadPar cfg (frameMe msg.bytes),
        x := payloadX (frameMe msg.bytes), y := payloadY (frameMe msg.bytes) } :=
  if_neg (not_not_intro h)

theorem payloadPar_iqd (me : Payload) : payloadPar iqd me = decide (me.toNat / 2 ^ 34 % 2 = 1) := by
  rw [payloadPar, ← BitVec.testBit_toNat, Nat.testBit_eq_decide_div_mod_eq]
  rfl

/-- Settles O41: the class and the altitude decide, and the record holds the fields of the payload. -/
theorem positionRecordCollectsItsFields : Obligations.PositionRecordCollectsItsFields := by
  intro s ts f me hf hme
  have htc : BitVec.ofNat 5 (me / 2 ^ 51) = payloadTc (frameMe f) := by
    rw [hme, payloadTc, ofNat_field_eq_ofNat]
  have halt : BitVec.ofNat 12 (me / 2 ^ 36) = payloadAlt iqd (frameMe f) := by
    rw [hme, payloadAlt, ofNat_field_eq_ofNat]
    rfl
  have hx : BitVec.ofNat 17 me = payloadX (frameMe f) := by
    rw [hme, payloadX, ofNat_field_eq_ofNat, pow_zero, Nat.div_one]
  have hy : BitVec.ofNat 17 (me / 2 ^ 17) = payloadY (frameMe f) := by
    rw [hme, payloadY, ofNat_field_eq_ofNat]
  rw [htc, halt, hx, hy]
  refine ⟨fun hc => ?_, fun hc => ⟨fun ha => ?_, fun ft ha => ?_⟩⟩
  · rw [exec_posDec hf, posDec_of_class_ne (msg := ⟨ts, f⟩) hc, positionReply, State.reply]
  · rw [exec_posDec hf, posDec_of_class (msg := ⟨ts, f⟩) hc, ha, Option.map_none, positionReply, State.reply]
  · rw [exec_posDec hf, posDec_of_class (msg := ⟨ts, f⟩) hc, ha, Option.map_some, positionReply, payloadPar_iqd, hme, State.reply]

end Sys2Proof.Proofs
end

