-- ==== Sys2Proof/Proofs/Advances.lean ====
section
/-! PROOF. Repeated advances of the window (R81): `PW.ADVN` as its single steps, and that they complete (R80, R144). -/

namespace Sys2Proof.Proofs

open Sys2Proof.Machine Sys2Proof.Laws

/-! ### Going on after an advance, as the host sees it -/

/-- How an operation goes on whose first part is the rule `r`, in terms of the outcome of `r` as an operation of its own:
the host's result of the first part is overwritten, and every other ending is that of the whole. -/
theorem deliver_andThen_outcomes {α : Type} {r : Res Unit} {f : Unit → State → Res α} {p : α → Reply}
    {o : Host.Outcome State Fault Refusal} (ho : o = deliver r fun _ => .done)
    (hfault : ∀ u, r = .ok () u → u.fault = none)
    (hout : ∀ v u, deliver (f () (withOut v u)) p = deliver (f () u) p) :
    (∀ t, o = .next t → t.fault = none → deliver (andThen r f) p = deliver (f () t) p) ∧
      (∀ t, o = .next t → t.fault ≠ none → deliver (andThen r f) p = .next t) ∧
      (∀ x, o = .refused x → deliver (andThen r f) p = .refused x) ∧
      ∀ x, o = .fault x → deliver (andThen r f) p = .fault x := by
  subst ho
  cases r with
  | ok a u =>
    have hu : u.fault = none := hfault u rfl
    simp only [deliver_of_ok, andThen_of_ok, Host.Outcome.next.injEq, reduceCtorEq, false_implies, implies_true, and_true]
    refine ⟨fun t ht _ => ?_, fun t ht hne => absurd (ht ▸ hu) hne⟩
    rw [← ht]
    exact (hout (some .done) u).symm
  | raised c u =>
    simp only [deliver_of_raised, andThen_of_raised, Host.Outcome.next.injEq, reduceCtorEq, false_implies, implies_true,
      and_true]
    exact ⟨fun t ht h => by simp [← ht] at h, fun t ht _ => ht⟩
  | refused x => simp
  | stuck x => simp

theorem pwAdv_ok_fault {s u : State} (hf : s.fault = none) (h : pwAdv s = .ok () u) : u.fault = none :=
  (pwAdv_keeps h).1.fault.trans hf

theorem exec_pwAdv_inited {s t : State} (hf : s.fault = none) (hi : s.inited = true) (h : exec .pwAdv s = .next t) :
    t.inited = true := by
  rw [exec_pwAdv hf hi] at h
  obtain ⟨u, f, o, hu, rfl⟩ := endsIn_of_deliver h
  exact (pwAdv_endsIn_keeps hu).inited.trans hi

/-! ### `PW.ADVN` as repeated `PW.ADV` -/

theorem exec_pwAdvn {s : State} (hf : s.fault = none) (hi : s.inited = true) {n : Int} (hn : 0 < n) :
    exec (.pwAdvn n) s = deliver (advTimes n.toNat s) fun _ => .done := by
  refine (guardedInit_of hf hi _).trans ?_
  rw [pwAdvn, if_neg (Int.not_le.2 hn)]

theorem exec_pwAdvn_of_nonpos {s : State} (hf : s.fault = none) (hi : s.inited = true) {n : Int} (hn : n ≤ 0) :
    exec (.pwAdvn n) s = .next (s.takeFault .count) := by
  refine (guardedInit_of hf hi _).trans ?_
  rw [pwAdvn, if_pos hn, deliver_of_raised]

theorem andThen_ok (r : Res Unit) : (andThen r fun _ u => .ok () u) = r := by
  cases r <;> rfl

theorem advTimes_one (s : State) : advTimes 1 s = pwAdv s :=
  andThen_ok (pwAdv s)

/-- Settles O17: the first advance ends the operation or the others follow, whatever result stands. -/
theorem advanceByIsRepeatedAdvance : Obligations.AdvanceByIsRepeatedAdvance := by
  refine fun s hf hi => ⟨fun n => exec_pwAdvn_of_nonpos hf hi, ?_, fun n hn => ?_⟩
  · rw [exec_pwAdvn hf hi one_pos, exec_pwAdv hf hi]
    exact congrArg (deliver · _) (advTimes_one s)
  · have hexec : exec (.pwAdvn (n + 1)) s = deliver (andThen (pwAdv s) fun _ u => advTimes n.toNat u) fun _ => .done := by
      rw [exec_pwAdvn hf hi (by omega), show (n + 1).toNat = n.toNat + 1 by omega, advTimes_succ]
    obtain ⟨hgo, hstop, hrefused, hstuck⟩ := deliver_andThen_outcomes (f := fun _ u => advTimes n.toNat u)
      (p := fun _ => .done) (exec_pwAdv hf hi) (fun u => pwAdv_ok_fault hf)
      fun v u => by rw [advTimes_withOut, deliver_outRes]
    rw [hexec]
    refine ⟨fun t ht hft => ?_, hstop, hrefused, hstuck⟩
    rw [hgo t ht hft, exec_pwAdvn hft (exec_pwAdv_inited hf hi ht) (by omega)]

/-- Settles O19: the advance that raises is the one after `k` that completed, and it takes the fault alone. -/
theorem readErrorKeepsTheStepsBefore : Obligations.ReadErrorKeepsTheStepsBefore := by
  intro s t n h ht
  obtain ⟨hf, hi, hd⟩ := guardedInit_eq_next.1 h
  obtain ⟨⟨⟩, v, hok, rfl⟩ | ⟨c, v, hraised, rfl⟩ := deliver_eq_next.1 hd
  · have hv := (pwAdvn_endsIn_keeps (.inl ⟨(), hok⟩)).fault
    rw [reply_fault, hv, hf] at ht
    cases ht
  · obtain rfl : c = .ioError := Option.some.inj ht
    obtain ⟨-, hc, -⟩ | ⟨hn, hraised⟩ := pwAdvn_eq_raised.1 hraised
    · cases hc
    · obtain ⟨k, u, hk, hu, hadv⟩ := advTimes_eq_raised hraised
      obtain ⟨src, ctr, rfl, -⟩ := pcRead_raised_state (pwAdv_eq_raised.1 hadv).2
      have hkeep := (advTimes_keeps hu).1
      have hfu := hkeep.fault.trans hf
      have hiu := hkeep.inited.trans hi
      rcases Nat.eq_zero_or_pos k with rfl | hpos
      · obtain rfl : s = u := (Res.ok.inj hu).2
        exact ⟨0, s, hn, .inl ⟨rfl, rfl⟩, by rw [exec_pwAdv hf hi, hadv, deliver_of_raised], src, ctr, rfl⟩
      · refine ⟨k, u.reply .done, by omega, .inr ⟨hpos, ?_, hfu⟩, ?_, src, ctr, rfl⟩
        · rw [exec_pwAdvn hf hi (by omega), Int.toNat_natCast, hu, deliver_of_ok]
        · rw [exec_pwAdv (s := u.reply .done) hfu hiu]
          change deliver (pwAdv (withOut (some .done) u)) _ = _
          rw [pwAdv_withOut, deliver_outRes, hadv, deliver_of_raised]

/-! ### Advances on a finite well-formed stream -/

/-- The samples of the first and of the further words of a byte list. -/
theorem samplesOf_take_drop {b : List Byte} {xs : List Int} (h : samplesOf b = some xs) (m : Nat) :
    samplesOf (b.take (2 * m)) = some (xs.take m) ∧ samplesOf (b.drop (2 * m)) = some (xs.drop m) := by
  induction b using List.twoStepInduction generalizing xs m with
  | nil =>
    obtain rfl : [] = xs := Option.some.inj h
    simp [samplesOf]
  | singleton x =>
    obtain rfl : [] = xs := Option.some.inj h
    cases m <;> simp [samplesOf, Nat.mul_succ]
  | cons_cons lo hi r ih =>
    have hword := h
    rw [samplesOf_cons] at hword
    split_ifs at hword with hw
    obtain ⟨ys, hys, rfl⟩ := Option.map_eq_some_iff.1 hword
    cases m with
    | zero => exact ⟨rfl, h⟩
    | succ m =>
      obtain ⟨htake, hdrop⟩ := ih hys m
      rw [Nat.mul_succ]
      refine ⟨?_, hdrop⟩
      rw [List.take_succ_cons, List.take_succ_cons, samplesOf_cons, if_pos hw, htake]
      rfl

/-- A state of the chain on a finite well-formed stream that gives `c` power samples at most, loaded and to come. -/
structure Flows (c : Nat) (s : State) : Prop where
  chain : ChainConfig s
  clean : SourceClean s
  load : s.nloaded.toNat + s.source.length ≤ c

/-- A batch of the chain completes on a clean source and leaves a clean source. -/
theorem pcRead_clean {s : State} (hc : ChainConfig s) (hs : SourceClean s) :
    ∃ ps s1, pcRead batch s = .ok ps s1 ∧ SourceClean s1 := by
  obtain ⟨-, hpc, hsd⟩ := hc
  obtain ⟨b, hb, hxs⟩ := hs
  obtain ⟨xs, hxs⟩ := Option.isSome_iff_exists.1 hxs
  obtain ⟨htake, hdrop⟩ := samplesOf_take_drop hxs 131072
  have hread : readSource 262144 s.source = .bytes (b.take 262144) ((b.drop 262144).map .byte) := by
    rw [hb, readSource_bytes]
  exact ⟨_, _, pcRead_batch_ok hpc hsd hread htake, b.drop 262144, rfl, by rw [show 262144 = 2 * 131072 from rfl, hdrop]; rfl⟩

theorem pwAdv_completes {c : Nat} {s : State} (h : Flows c s) (hc : c < 2 ^ 64)
    (hpos : (s.pos.toNat + 1) * 100 < 2 ^ 63) : ∃ t, pwAdv s = .ok () t ∧ Flows c t := by
  have hrefill : ∃ s1, advRefill s = .ok () s1 ∧ SourceClean s1 := by
    by_cases hpib : (s.pib.toNat : Int) + s.wsize = 65536
    · obtain ⟨ps, s1, hp, hclean⟩ := pcRead_clean h.chain h.clean
      have hlen := (pcRead_length hp).1
      have hload := h.load
      have hnl : s1.nloaded = s.nloaded := by
        obtain ⟨src, h', k', rfl⟩ := pcRead_ok_state hp
        rfl
      exact ⟨_, advRefill_eq_ok.2 (.inr ⟨hpib, ps, s1, hp, by rw [hnl]; omega, rfl⟩), hclean⟩
    · exact ⟨s, advRefill_eq_ok.2 (.inl ⟨hpib, rfl⟩), h.clean⟩
  obtain ⟨s1, h1, b, hb, hsome⟩ := hrefill
  have hpos1 := (advRefill_keeps h1).2.1
  have hadv := pwAdv_eq_ok.2 ⟨s1, h1, posInRange_iff.2 (by rwa [hpos1]), rfl⟩
  obtain ⟨hk, -, -, hle⟩ := pwAdv_keeps hadv
  obtain ⟨hw, hpc, hsd⟩ := h.chain
  exact ⟨_, hadv, ⟨hk.wsize.trans hw, hk.pcBatch.trans hpc, hk.sdBatch.trans hsd⟩,
    ⟨b, (advRegs_source s1).trans hb, hsome⟩, hle.trans h.load⟩

theorem advTimes_completes {c n : Nat} {s : State} (h : Flows c s) (hc : c < 2 ^ 64)
    (hpos : (s.pos.toNat + n) * 100 < 2 ^ 63) : ∃ t, advTimes n s = .ok () t ∧ Flows c t := by
  induction n generalizing s with
  | zero => exact ⟨s, rfl, h⟩
  | succ n ih =>
    obtain ⟨u, hu, hflow⟩ := pwAdv_completes h hc (by omega)
    have hposu := (pwAdv_keeps hu).2.1
    obtain ⟨t, ht, hflow'⟩ := ih hflow (by omega)
    exact ⟨t, by rw [advTimes_succ, hu, andThen_of_ok, ht], hflow'⟩

/-- Settles O18: on such a stream each single advance completes. -/
theorem advanceByCompletes : Obligations.AdvanceByCompletes := by
  intro s n hf hi hc hclean hroom hn
  rw [RoomFor] at hroom
  obtain ⟨t, ht, hflow⟩ := advTimes_completes (n := n) ⟨hc, hclean, le_rfl⟩ (by omega) (by omega)
  obtain ⟨hk, hpos, hctr, -⟩ := advTimes_keeps ht
  refine ⟨t.reply .done, ?_, rfl, hk.fault.trans hf, hpos, hk.inited.trans hi, hk.prev, hflow.chain, hk.params,
    hk.requests, hctr⟩
  rw [exec_pwAdvn hf hi (by omega), Int.toNat_natCast, ht, deliver_of_ok]

end Sys2Proof.Proofs
end

