-- ==== Sys2Proof/Proofs/StreamView.lean ====
section
/-! PROOF. The abstract view of the window (R28): the banks hold the power stream of the host's samples, the last two
batches of it, and the window stands at `POS` of that stream. -/

namespace Sys2Proof.Proofs

open Sys2Proof.Machine Sys2Proof.Laws

/-! ### The stream behind the banks -/

/-- The state of a chain that has read `q` batches of the byte stream `b`, whose samples are `xs`, since reset: what is
left of the source, what is loaded, the history, and the last two batches in their banks. -/
structure StreamView (b : List Byte) (xs : List Int) (q : Nat) (s : State) : Prop where
  chain : ChainConfig s
  source : s.source = (b.drop (2 * (131072 * q))).map .byte
  loaded : s.nloaded.toNat = min (65536 * q) (xs.length / 2)
  even : s.k.toNat % 2 = 0
  history : HoldsLastEight xs s.nloaded.toNat s.h s.k
  banks : ∀ (j : Nat) (c : Fin 2), c.val = j / 65536 % 2 → 65536 * q ≤ j + 131072 → j < s.nloaded.toNat →
    ((memRead s.mem c (j % 65536)).toNat : Int) = powerOf xs j

/-- The samples of the next batch stand in the stream where the history ends; past the end of the stream there are none. -/
theorem sampleAt_batch (xs : List Int) (q j : Nat) (hj : j < ((xs.drop (131072 * q)).take 131072).length) :
    sampleAt xs (2 * ((min (65536 * q) (xs.length / 2) : Nat) : Int) + j) =
      ((xs.drop (131072 * q)).take 131072).getD j 0 := by
  simp only [List.length_take, List.length_drop] at hj
  rw [show 2 * ((min (65536 * q) (xs.length / 2) : Nat) : Int) + j = (131072 * q + j : Nat) by omega, sampleAt_natCast]
  simp [List.getD_eq_getElem?_getD, List.getElem?_drop, show j < 131072 by omega]

/-- The batch `q` of the stream goes to the bank `q` modulo 2. -/
theorem StreamView.batch {b : List Byte} {xs : List Int} {q : Nat} {s s1 : State} {ps : List Power} {c : Fin 2}
    (hv : StreamView b xs q s) (hb : samplesOf b = some xs) (hlt : xs.length < 2 ^ 64) (hc : c.val = q % 2)
    (hp : pcRead batch s = .ok ps s1) :
    ps.length < 2 ^ 64 - s.nloaded.toNat ∧ StreamView b xs (q + 1)
      { s1 with mem := memFill s1.mem c ps, nloaded := s1.nloaded + BitVec.ofNat 64 ps.length } := by
  obtain ⟨hw, hpc, hsd⟩ := hv.chain
  have hloaded := hv.loaded
  have hread : readSource 262144 s.source =
      .bytes ((b.drop (2 * (131072 * q))).take 262144) (((b.drop (2 * (131072 * q))).drop 262144).map .byte) := by
    rw [hv.source, readSource_bytes]
  have hdrop := (samplesOf_take_drop hb (131072 * q)).2
  have htake := (samplesOf_take_drop hdrop 131072).1
  have hok := (pcRead_batch_ok hpc hsd hread htake).symm.trans hp
  obtain ⟨rfl, rfl⟩ := Res.ok.inj hok
  set ys := (xs.drop (131072 * q)).take 131072 with hys
  have hlen : ys.length = min 131072 (xs.length - 131072 * q) := by
    rw [hys, List.length_take, List.length_drop]
  have hplen := pairSteps_length s.h s.k ys
  have hstream : ∀ j, j < ys.length → sampleAt xs (2 * (s.nloaded.toNat : Int) + j) = ys.getD j 0 := by
    rw [hloaded]
    exact sampleAt_batch xs q
  have hbound : ∀ y ∈ ys, -2048 ≤ y ∧ y ≤ 2047 :=
    fun y hy => samplesOf_bounds hb y (List.mem_of_mem_drop (List.mem_of_mem_take hy))
  obtain ⟨hend, hpow⟩ := pairSteps_powerOf hstream hbound hv.even hv.history
  have hnl : (s.nloaded + BitVec.ofNat 64 (pairSteps s.h s.k ys).2.2.length).toNat = s.nloaded.toNat + ys.length / 2 := by
    rw [BitVec.toNat_add, BitVec.toNat_ofNat, hplen]
    omega
  refine ⟨by omega, hv.chain, ?_, ?_, pairSteps_even hv.even, ?_, fun j c' hc' hq hj => ?_⟩
  · rw [List.drop_drop, show 2 * (131072 * q) + 262144 = 2 * (131072 * (q + 1)) by omega]
  · rw [hnl]
    omega
  · rw [hnl]
    exact hend
  · simp only [hnl] at hj
    rw [memRead_memFill]
    by_cases hnew : 65536 * q ≤ j
    · have hcc : c' = c := Fin.ext (by omega)
      rw [if_pos ⟨hcc, by omega⟩, hpow _ (by omega)]
      congr 1
      omega
    · have hcc : c' ≠ c := fun h => by
        have := congrArg Fin.val h
        omega
      rw [if_neg fun h => hcc h.1]
      exact hv.banks j c' hc' (by omega) (by omega)

/-- The place of the window is no part of the stream behind the banks. -/
theorem StreamView.withPlace {b : List Byte} {xs : List Int} {q : Nat} {s : State} (hv : StreamView b xs q s)
    (cur : Fin 2) (pib : BitVec 16) (pos : BitVec 64) (inited : Bool) :
    StreamView b xs q { s with cur := cur, pib := pib, pos := pos, inited := inited } :=
  ⟨hv.chain, hv.source, hv.loaded, hv.even, hv.history, hv.banks⟩

/-- The state from which R28 starts: reset, and the stream not begun. -/
def resetOn (b : List Byte) : State :=
  { State.reset with source := b.map .byte }

theorem resetOn_chain (b : List Byte) : ChainConfig (resetOn b) := ⟨rfl, rfl, rfl⟩

theorem resetOn_nloaded (b : List Byte) : (resetOn b).nloaded = 0 := rfl

theorem inv_resetOn (b : List Byte) : Inv (resetOn b) := inv_of_reset rfl rfl rfl rfl rfl rfl

theorem streamView_resetOn (b : List Byte) (xs : List Int) : StreamView b xs 0 (resetOn b) where
  chain := resetOn_chain b
  source := rfl
  loaded := by simp [resetOn_nloaded]
  even := rfl
  history := holdsLastEight_reset xs
  banks j c _ _ hj := absurd hj (Nat.not_lt_zero j)

/-! ### The window on the stream -/

/-- The window at `POS` on the stream: it has read every batch that it reaches into, and no other. -/
structure WindowView (b : List Byte) (xs : List Int) (s : State) : Prop where
  view : StreamView b xs ((s.pos.toNat + 1199) / 65536 + 1) s
  inv : Inv s
  inited : s.inited = true

theorem windowView_pwInit {b : List Byte} {xs : List Int} {t : State} (hb : samplesOf b = some xs)
    (hlt : xs.length < 2 ^ 64) (h : pwInit (resetOn b) = .ok () t) :
    WindowView b xs t := by
  have hinv := inv_pwInit (inv_resetOn b) (.inl ⟨(), h⟩)
  obtain ⟨-, -, ps, s1, hp, rfl⟩ := pwInit_eq_ok.1 h
  obtain ⟨-, hv⟩ := (streamView_resetOn b xs).batch hb hlt (c := 0) rfl hp
  have hnl : s1.nloaded = 0 := by
    obtain ⟨src, h', k', rfl⟩ := pcRead_ok_state hp
    exact resetOn_nloaded b
  have hsum : s1.nloaded + BitVec.ofNat 64 ps.length = BitVec.ofNat 64 ps.length := by
    rw [hnl]
    exact BitVec.zero_add _
  have hq : ((0 : BitVec 64).toNat + 1199) / 65536 + 1 = 0 + 1 := rfl
  rw [hsum] at hv
  refine ⟨?_, hinv, rfl⟩
  change StreamView b xs (((0 : BitVec 64).toNat + 1199) / 65536 + 1) _
  rw [hq]
  exact hv.withPlace 0 0 0 true

/-- An advance reads the next batch exactly where the window comes to reach into it. -/
theorem windowView_pwAdv {b : List Byte} {xs : List Int} {s t : State} (hb : samplesOf b = some xs)
    (hlt : xs.length < 2 ^ 64) (hs : WindowView b xs s) (h : pwAdv s = .ok () t) : WindowView b xs t := by
  have hpos := (pwAdv_keeps h).2.1
  have hinv := inv_pwAdv ⟨hs.inv, hs.inited⟩ (.inl ⟨(), h⟩)
  have hpib := hs.inv.pibIsPos
  have hcur := hs.inv.curIsPos
  have hview : StreamView b xs ((t.pos.toNat + 1199) / 65536 + 1) t := by
    rw [hpos]
    obtain ⟨s1, h1, -, rfl⟩ := pwAdv_eq_ok.1 h
    have hv1 : StreamView b xs ((s.pos.toNat + 1 + 1199) / 65536 + 1) s1 := by
      have hw := hs.view.chain.1
      obtain ⟨hne, rfl⟩ | ⟨heq, ps, s2, hp, -, rfl⟩ := advRefill_eq_ok.1 h1
      · rw [show (s1.pos.toNat + 1 + 1199) / 65536 = (s1.pos.toNat + 1199) / 65536 by omega]
        exact hs.view
      · have hspare : (1 - s.cur).val = ((s.pos.toNat + 1199) / 65536 + 1) % 2 := by
          have h1 : (1 - s.cur).val = 1 - s.cur.val := by
            generalize s.cur = c
            fin_cases c <;> rfl
          omega
        rw [show (s.pos.toNat + 1 + 1199) / 65536 = (s.pos.toNat + 1199) / 65536 + 1 by omega]
        exact (hs.view.batch hb hlt hspare hp).2
    exact ⟨by simpa [ChainConfig] using hv1.chain, by simpa using hv1.source, by simpa using hv1.loaded,
      by simpa using hv1.even, by simpa using hv1.history, by simpa using hv1.banks⟩
  exact ⟨hview, hinv.1, hinv.2⟩

theorem windowView_advTimes {b : List Byte} {xs : List Int} {n : Nat} {s t : State} (hb : samplesOf b = some xs)
    (hlt : xs.length < 2 ^ 64) (hs : WindowView b xs s) (h : advTimes n s = .ok () t) : WindowView b xs t := by
  induction n generalizing s with
  | zero =>
    obtain ⟨-, rfl⟩ := Res.ok.inj h
    exact hs
  | succ n ih =>
    obtain ⟨⟨⟩, u, hu, ht⟩ := andThen_eq_ok.1 h
    exact ih (windowView_pwAdv hb hlt hs hu) ht

/-- The batches that are loaded reach past the window, so only the end of the stream can leave it short. -/
theorem WindowView.windowFull_iff {b : List Byte} {xs : List Int} {s : State} (hs : WindowView b xs s) :
    windowFull s = true ↔ s.pos.toNat + 1200 ≤ xs.length / 2 := by
  have hw := hs.view.chain.1
  have hl := hs.view.loaded
  rw [windowFull_eq_true, hw]
  omega

/-- A full window shows the power stream (R28). -/
theorem WindowView.windowAt_eq {b : List Byte} {xs : List Int} {s : State} (hs : WindowView b xs s)
    (hfull : windowFull s = true) {i : Nat} (hi : i < 1200) :
    ((windowAt s i).toNat : Int) = powerOf xs (s.pos.toNat + i) := by
  have hfull' := hs.windowFull_iff.1 hfull
  have hl := hs.view.loaded
  have hpib := hs.inv.pibIsPos
  have hcur := hs.inv.curIsPos
  have hread := fun c hc => hs.view.banks (s.pos.toNat + i) c hc (by omega) (by omega)
  by_cases hlt : s.pib.toNat + i < 65536
  · rw [windowAt, locate_of_lt hlt, ← hread s.cur (by omega),
      show (s.pos.toNat + i) % 65536 = s.pib.toNat + i by omega]
  · have hspare : (1 - s.cur).val = 1 - s.cur.val := by
      generalize s.cur = c
      fin_cases c <;> rfl
    rw [windowAt, locate_of_ge (Nat.le_of_not_lt hlt), ← hread (1 - s.cur) (by omega),
      show (s.pos.toNat + i) % 65536 = s.pib.toNat + i - 65536 by omega]

/-! ### From reset -/

theorem pwInit_completes {b : List Byte} {xs : List Int} (hb : samplesOf b = some xs) :
    ∃ t, pwInit (resetOn b) = .ok () t ∧ Flows b.length t ∧ t.pos.toNat = 0 := by
  have hclean : SourceClean (resetOn b) := ⟨b, rfl, by rw [hb]; rfl⟩
  obtain ⟨ps, s1, hp, b', hb', hsome⟩ := pcRead_clean (resetOn_chain b) hclean
  have hlen := (pcRead_length hp).1
  have hchain : ChainConfig s1 := by
    obtain ⟨src, h', k', rfl⟩ := pcRead_ok_state hp
    exact resetOn_chain b
  have hw := (resetOn_chain b).1
  have hsrc : (resetOn b).source.length = b.length := List.length_map _
  refine ⟨_, pwInit_eq_ok.2 ⟨by omega, by omega, ps, s1, hp, rfl⟩, ⟨hchain, ⟨b', hb', hsome⟩, ?_⟩, rfl⟩
  simp only [BitVec.toNat_ofNat]
  omega

/-- Settles O20: `PW.INIT` loads batch 0, and each advance keeps the window on the stream. -/
theorem windowShowsThePowerStream : Obligations.WindowShowsThePowerStream := by
  intro b xs n hb hroom
  have hxs := samplesOf_length hb
  obtain ⟨u, hu, hflow, hpos⟩ := pwInit_completes hb
  obtain ⟨t, ht, -⟩ := advTimes_completes (n := n) hflow (by omega) (by omega)
  have hview := windowView_advTimes hb (by omega) (windowView_pwInit hb (by omega) hu) ht
  have hpost : t.pos.toNat = n := by
    rw [(advTimes_keeps ht).2.1, hpos, Nat.zero_add]
  refine ⟨t, (congrArg (andThen · _) hu).trans ht, hpost, ?_, fun i hi hfull => ?_⟩
  · rw [hview.windowFull_iff, hpost]
  · rw [hview.windowAt_eq hfull hi, hpost]

end Sys2Proof.Proofs
end

