-- ==== Sys2Proof/Proofs/Demodulator.lean ====
section
/-! PROOF. Unit DM (R90 to R93): its frame bits, its loop without the fuel, and what one call of `DM.NEXT` ends with. -/

namespace Sys2Proof.Proofs

open Sys2Proof.Machine Sys2Proof.Laws

/-! ### The bits of a frame -/

/-- R91: eight bits put together, the first in the most significant place; place `7 − r` is bit `r` again. -/
theorem getLsbD_byteOfBits (f : Nat → Bool) {r : Nat} (hr : r < 8) :
    ((List.range 8).foldl (fun v i => v + BitVec.ofNat 8 ((f i).toNat <<< (7 - i))) (0 : Byte)).getLsbD (7 - r) = f r := by
  have h : ∀ b0 b1 b2 b3 b4 b5 b6 b7 : Bool, ∀ r : Fin 8,
      ((((((((((0 : Byte) + BitVec.ofNat 8 (b0.toNat <<< 7)) + BitVec.ofNat 8 (b1.toNat <<< 6)) +
        BitVec.ofNat 8 (b2.toNat <<< 5)) + BitVec.ofNat 8 (b3.toNat <<< 4)) + BitVec.ofNat 8 (b4.toNat <<< 3)) +
        BitVec.ofNat 8 (b5.toNat <<< 2)) + BitVec.ofNat 8 (b6.toNat <<< 1)) + BitVec.ofNat 8 (b7.toNat <<< 0))).getLsbD
        (7 - r.val) = [b0, b1, b2, b3, b4, b5, b6, b7][r.val] := by
    decide +kernel
  have hf : [f 0, f 1, f 2, f 3, f 4, f 5, f 6, f 7][r]'hr = f r := by
    interval_cases r <;> rfl
  rw [← hf]
  exact h (f 0) (f 1) (f 2) (f 3) (f 4) (f 5) (f 6) (f 7) ⟨r, hr⟩

theorem frameBit_iqd (s : State) (k : Nat) :
    frameBit iqd s k = true ↔ g s (80 + 10 * k) < g s (85 + 10 * k) :=
  decide_eq_true_iff

theorem frameBytes_getElem (cfg : Config) (s : State) (j : Fin 14) : (frameBytes cfg s)[j] = frameByte cfg s j := by
  simp [frameBytes]

/-- Settles O22: place `7 − r` of a byte is its bit `r`, and the bit is the comparison. -/
theorem frameBitsAreComparisons : Obligations.FrameBitsAreComparisons := by
  intro s j r hr
  rw [frameBytes_getElem, frameByte, getLsbD_byteOfBits (fun r => frameBit iqd s (8 * j.val + r)) hr, frameBit_iqd]

/-! ### The loop -/

/-- How many positions are left at most, where a full window stands at the present one. -/
def positionsLeft (s : State) : Nat :=
  ((s.nloaded.toNat : Int) + s.source.length - s.wsize - s.pos.toNat + 1).toNat

theorem dmFuel_eq (s : State) : positionsLeft s < dmFuel s := by
  simp only [positionsLeft, dmFuel]
  omega

theorem positionsLeft_scanned (s : State) : positionsLeft (scanned s) = positionsLeft s := rfl

theorem positionsLeft_pwAdv {s t : State} (hfull : windowFull s = true) (h : pwAdv s = .ok () t) :
    positionsLeft t < positionsLeft s := by
  obtain ⟨hk, hpos, -, hle⟩ := pwAdv_keeps h
  have hw := hk.wsize
  rw [windowFull_eq_true] at hfull
  simp only [positionsLeft]
  omega

/-- The loop of R92, one position: what `DM.NEXT` is in terms of `next`, what it is from the next position on. -/
def dmBody (cfg : Config) (next : State → Res (Option (BitVec 64 × Frame))) (s : State) :
    Res (Option (BitVec 64 × Frame)) :=
  if windowFull s then
    andThen (scan cfg s) fun found s1 =>
      match found with
      | some f => takeFrameAt f s1
      | none => andThen (pwAdv s1) fun _ s2 => next s2
  else .ok none s

theorem dmLoop_succ (cfg : Config) (n : Nat) (s : State) : dmLoop cfg (n + 1) s = dmBody cfg (dmLoop cfg n) s := rfl

/-- The loop from two continuations that agree wherever fewer positions are left. -/
theorem dmBody_congr {cfg : Config} {next next' : State → Res (Option (BitVec 64 × Frame))} {s : State}
    (h : ∀ t, windowFull s = true → positionsLeft t < positionsLeft s → next t = next' t) :
    dmBody cfg next s = dmBody cfg next' s := by
  unfold dmBody
  split_ifs with hfull
  · cases hscan : scan cfg s with
    | ok found s1 =>
      cases found with
      | some f => rfl
      | none =>
        obtain rfl := (scan_ok hscan).1
        simp only [andThen_of_ok]
        cases hadv : pwAdv (scanned s) with
        | ok a t => exact h t hfull (positionsLeft_pwAdv (s := scanned s) hfull hadv)
        | raised c t => rfl
        | refused x => rfl
        | stuck x => rfl
    | raised c s1 => rfl
    | refused x => rfl
    | stuck x => rfl
  · rfl

/-- Fuel above the number of positions that are left does not show. -/
theorem dmLoop_of_lt {cfg : Config} {n m : Nat} {s : State} (hn : positionsLeft s < n) (hm : positionsLeft s < m) :
    dmLoop cfg n s = dmLoop cfg m s := by
  induction n generalizing m s with
  | zero => cases hn
  | succ n ih =>
    cases m with
    | zero => cases hm
    | succ m =>
      rw [dmLoop_succ, dmLoop_succ]
      exact dmBody_congr fun t _ hlt => ih (by omega) (by omega)

theorem dmNext_eq_dmBody (cfg : Config) (s : State) : dmNext cfg s = dmBody cfg (dmNext cfg) s := by
  obtain ⟨n, hn⟩ : ∃ n, dmFuel s = n + 1 := ⟨_, rfl⟩
  have hfuel := dmFuel_eq s
  rw [dmNext, hn, dmLoop_succ]
  exact dmBody_congr fun t _ hlt => dmLoop_of_lt (by omega) (dmFuel_eq t)

/-! ### One position in the chain -/

/-- R110 in the tests of R92. -/
theorem dfOfByte_eq_dfAdsb {b : Byte} : dfOfByte b = dfAdsb ↔ b.toNat / 8 = 17 := by
  rw [← BitVec.toNat_inj, dfOfByte, toNat_ofNat_field b.isLt]
  rfl

theorem frameBytes_zero (cfg : Config) (s : State) : (frameBytes cfg s)[0] = frameByte cfg s 0 :=
  frameBytes_getElem cfg s 0

/-- `PREV` is not among what a frame is made of. -/
theorem frameBytes_scanned (cfg : Config) (s : State) : frameBytes cfg (scanned s) = frameBytes cfg s := rfl

theorem frameByte_scanned (cfg : Config) (s : State) (j : Nat) : frameByte cfg (scanned s) j = frameByte cfg s j := rfl

/-- The scan of a position in the chain: the frame where the three tests pass, and none where one fails. -/
theorem scan_iqd {s : State} (hw : s.wsize = 1200) {valid : Bool}
    (hvalid : valid = true ↔
      accepts iqd s = true ∧ (frameBytes iqd s)[0].toNat / 8 = 17 ∧ crcBytewise (frameBytes iqd s).toList = 0) :
    scan iqd s = .ok (if valid then some (frameBytes iqd s) else none) (scanned s) := by
  rw [frameBytes_zero, ← dfOfByte_eq_dfAdsb] at hvalid
  have hreach : (sumReach iqd : Int) < s.wsize ∧ (byteReach 0 : Int) < s.wsize ∧ (byteReach 13 : Int) < s.wsize := by
    rw [hw]
    decide
  rw [scan_eq, if_pos hreach.1, if_pos hreach.2.1, if_pos hreach.2.2, frameBytes_scanned, frameByte_scanned]
  by_cases hacc : accepts iqd s = true
  · by_cases hdf : dfOfByte (frameByte iqd s 0) = dfAdsb
    · by_cases hcrc : crcBytewise (frameBytes iqd s).toList = 0
      · rw [if_pos hacc, if_pos hdf, if_pos hcrc, if_pos (hvalid.2 ⟨hacc, hdf, hcrc⟩)]
      · rw [if_pos hacc, if_pos hdf, if_neg hcrc, if_neg fun hv => hcrc (hvalid.1 hv).2.2]
    · rw [if_pos hacc, if_neg hdf, if_neg fun hv => hdf (hvalid.1 hv).2.1]
  · rw [if_neg hacc, if_neg fun hv => hacc (hvalid.1 hv).1]

theorem exec_dmNext {s : State} (hf : s.fault = none) (hi : s.inited = true) :
    exec .dmNext s = deliver (dmNext iqd s) frameReply :=
  guardedInit_of hf hi _

theorem exec_pwAdvn_frameSpan {u : State} (hf : u.fault = none) (hi : u.inited = true) :
    exec (.pwAdvn 1200) u = deliver (pwAdvn frameSpan u) fun _ => .done :=
  guardedInit_of hf hi _

theorem pwAdvn_ok_fault {n : Int} {s u : State} (hf : s.fault = none) (h : pwAdvn n s = .ok () u) : u.fault = none :=
  (pwAdvn_endsIn_keeps (.inl ⟨(), h⟩)).fault.trans hf

/-- `DM.NEXT` at a position with a valid frame: `PW.ADVN(1200)`, whose result the frame takes the place of. -/
theorem exec_dmNext_frame {s : State} {f : Frame} (hf : s.fault = none) (hi : s.inited = true)
    (hfull : windowFull s = true) (hscan : scan iqd s = .ok (some f) (scanned s)) (hrange : posInRange s.pos.toNat = true) :
    (∀ t, exec (.pwAdvn 1200) (scanned s) = .next t → t.fault = none →
      exec .dmNext s = .next { t with out := some (.frame (BitVec.ofNat 64 (s.pos.toNat * 100)) f) }) ∧
      (∀ t, exec (.pwAdvn 1200) (scanned s) = .next t → t.fault ≠ none → exec .dmNext s = .next t) ∧
      (∀ r, exec (.pwAdvn 1200) (scanned s) = .refused r → exec .dmNext s = .refused r) ∧
      ∀ r, exec (.pwAdvn 1200) (scanned s) = .fault r → exec .dmNext s = .fault r := by
  have hexec : exec .dmNext s = deliver (andThen (pwAdvn frameSpan (scanned s)) fun _ s1 =>
      .ok (some (BitVec.ofNat 64 (s.pos.toNat * 100), f)) s1) frameReply := by
    rw [exec_dmNext hf hi, dmNext_eq_dmBody, dmBody, if_pos hfull, hscan, andThen_of_ok]
    exact congrArg (deliver · _) (if_pos hrange)
  rw [hexec]
  exact deliver_andThen_outcomes (f := fun _ s1 => .ok (some (BitVec.ofNat 64 (s.pos.toNat * 100), f)) s1)
    (exec_pwAdvn_frameSpan (u := scanned s) hf hi) (fun u => pwAdvn_ok_fault (s := scanned s) hf) fun _ _ => rfl

/-- `DM.NEXT` at a position without a valid frame: `PW.ADV`, and `DM.NEXT` again. -/
theorem exec_dmNext_none {s : State} (hf : s.fault = none) (hi : s.inited = true) (hfull : windowFull s = true)
    (hscan : scan iqd s = .ok none (scanned s)) :
    (∀ t, exec .pwAdv (scanned s) = .next t → t.fault = none → exec .dmNext s = exec .dmNext t) ∧
      (∀ t, exec .pwAdv (scanned s) = .next t → t.fault ≠ none → exec .dmNext s = .next t) ∧
      (∀ r, exec .pwAdv (scanned s) = .refused r → exec .dmNext s = .refused r) ∧
      ∀ r, exec .pwAdv (scanned s) = .fault r → exec .dmNext s = .fault r := by
  have hexec : exec .dmNext s = deliver (andThen (pwAdv (scanned s)) fun _ s2 => dmNext iqd s2) frameReply := by
    rw [exec_dmNext hf hi, dmNext_eq_dmBody, dmBody, if_pos hfull, hscan, andThen_of_ok]
  obtain ⟨hgo, hstop, hrefused, hstuck⟩ := deliver_andThen_outcomes (f := fun _ s2 => dmNext iqd s2) (p := frameReply)
    (exec_pwAdv (s := scanned s) hf hi) (fun u => pwAdv_ok_fault (s := scanned s) hf)
    fun v u => by rw [dmNext_withOut, deliver_outRes]
  rw [hexec]
  refine ⟨fun t ht hft => ?_, hstop, hrefused, hstuck⟩
  rw [hgo t ht hft, exec_dmNext hft (exec_pwAdv_inited (s := scanned s) hf hi ht)]

theorem exec_dmNext_out_of_range {s : State} {f : Frame} (hf : s.fault = none) (hi : s.inited = true)
    (hfull : windowFull s = true) (hscan : scan iqd s = .ok (some f) (scanned s))
    (hrange : posInRange s.pos.toNat ≠ true) : exec .dmNext s = .refused .counterRange := by
  rw [exec_dmNext hf hi, dmNext_eq_dmBody, dmBody, if_pos hfull, hscan, andThen_of_ok]
  exact congrArg (deliver · _) (if_neg hrange)

/-- Settles O23: the fuel does not show, and a position ends by its scan. -/
theorem demodulatorSatisfiesItsLoop : Obligations.DemodulatorSatisfiesItsLoop := by
  refine ⟨dmNext_eq_dmBody iqd, ?_⟩
  rintro s u p f valid ⟨hw, -, -⟩ rfl rfl rfl hvalid
  have hscan := scan_iqd hw hvalid
  refine ⟨hscan, toNat_peak, fun hf hi hfull => ?_⟩
  have hfull := windowFull_eq_true.2 hfull
  refine ⟨fun hv hpos => ?_, fun hv hpos => ?_, fun hv => ?_⟩
  · rw [if_pos hv] at hscan
    exact exec_dmNext_frame hf hi hfull hscan (posInRange_iff.2 (by omega))
  · rw [if_pos hv] at hscan
    exact exec_dmNext_out_of_range hf hi hfull hscan (mt posInRange_iff.1 (by omega))
  · rw [hv] at hscan
    exact exec_dmNext_none hf hi hfull hscan

/-! ### The end of the stream -/

theorem dmNext_of_not_full (cfg : Config) {s : State} (h : windowFull s = false) : dmNext cfg s = .ok none s := by
  rw [dmNext_eq_dmBody, dmBody, h]
  rfl

/-- Settles O25: the loop ends before it begins. -/
theorem endOfStreamReturnsTheSentinel : Obligations.EndOfStreamReturnsTheSentinel := by
  intro s hf hi hlt
  rw [exec_dmNext hf hi, dmNext_of_not_full iqd (windowFull_eq_false.2 hlt), deliver_of_ok, frameReply, State.reply]

/-! ### What `DM.NEXT` ends with -/

/-- R92, R93: a frame that the loop gives. -/
theorem dmLoop_frame {cfg : Config} {n : Nat} {s t : State} {ts : BitVec 64} {f : Frame}
    (h : dmLoop cfg n s = .ok (some (ts, f)) t) :
    f[0].toNat / 8 = 17 ∧ crcBytewise f.toList = 0 ∧
      ∃ p, s.pos.toNat ≤ p ∧ ts.toNat = p * 100 ∧ t.pos.toNat = p + 1200 := by
  induction n generalizing s with
  | zero => cases h
  | succ n ih =>
    rw [dmLoop] at h
    split_ifs at h
    · obtain ⟨found, s1, hscan, hrest⟩ := andThen_eq_ok.1 h
      obtain ⟨rfl, hfound⟩ := scan_ok hscan
      cases found with
      | some f' =>
        obtain ⟨hrange, hadv, hts⟩ := takeFrameAt_eq_ok.1 hrest
        obtain ⟨rfl, rfl⟩ := Prod.mk.inj (Option.some.inj hts)
        obtain ⟨-, hbytes, hdf, hcrc⟩ := hfound _ rfl
        have hpos : (scanned s).pos = s.pos := rfl
        have hend := (advTimes_keeps hadv).2.1
        rw [hpos] at hend hrange ⊢
        rw [posInRange_iff] at hrange
        refine ⟨?_, hcrc, s.pos.toNat, le_rfl, ?_, hend⟩
        · rw [hbytes, frameBytes_zero, ← dfOfByte_eq_dfAdsb, hdf]
        · rw [BitVec.toNat_ofNat]
          omega
      | none =>
        obtain ⟨⟨⟩, u, hadv, hloop⟩ := andThen_eq_ok.1 hrest
        obtain ⟨hdf, hcrc, p, hp, hts, hend⟩ := ih hloop
        have hpos := (pwAdv_keeps hadv).2.1
        rw [show (scanned s).pos = s.pos from rfl] at hpos
        exact ⟨hdf, hcrc, p, by omega, hts, hend⟩
    · cases h

/-- Settles O26: a frame comes from the loop alone. -/
theorem returnedFrameIsValid : Obligations.ReturnedFrameIsValid := by
  intro s t ts f h hout
  obtain ⟨-, -, hd⟩ := guardedInit_eq_next.1 h
  obtain ⟨r, u, hok, rfl⟩ | ⟨c, u, -, rfl⟩ := deliver_eq_next.1 hd
  · match r, hout with
    | some (ts', f'), hout =>
      obtain ⟨rfl, rfl⟩ := Reply.frame.inj (Option.some.inj hout)
      exact dmLoop_frame (t := u) hok
    | none, hout => cases hout
  · cases hout

theorem pwAdv_raised_chain {s t : State} {c : Cause} (hc : ChainConfig s) (h : pwAdv s = .raised c t) : c = .ioError := by
  obtain ⟨-, hpc, hsd⟩ := hc
  obtain ⟨hbad, -, -⟩ | ⟨-, -, -, hio, -⟩ := pcRead_eq_raised.1 (pwAdv_eq_raised.1 h).2
  · simp [batch, hpc, hsd] at hbad
  · exact hio

theorem chainConfig_of_keeps {s t : State} (hc : ChainConfig s) (hk : AdvKeeps s t) : ChainConfig t := by
  obtain ⟨hw, hpc, hsd⟩ := hc
  exact ⟨hk.wsize.trans hw, hk.pcBatch.trans hpc, hk.sdBatch.trans hsd⟩

theorem advTimes_raised_chain {n : Nat} {s t : State} {c : Cause} (hc : ChainConfig s)
    (h : advTimes n s = .raised c t) : c = .ioError := by
  obtain ⟨k, u, -, hu, hadv⟩ := advTimes_eq_raised h
  exact pwAdv_raised_chain (chainConfig_of_keeps hc (advTimes_keeps hu).1) hadv

theorem dmLoop_raised_chain {n : Nat} {s t : State} {c : Cause} (hc : ChainConfig s)
    (h : dmLoop iqd n s = .raised c t) : c = .ioError := by
  induction n generalizing s with
  | zero => cases h
  | succ n ih =>
    obtain ⟨r, hscan⟩ := scan_chain hc.1
    have hc' : ChainConfig (scanned s) := hc
    rw [dmLoop] at h
    split_ifs at h
    rw [hscan, andThen_of_ok] at h
    cases r with
    | some f => exact advTimes_raised_chain hc' (takeFrameAt_eq_raised.1 h).2
    | none =>
      obtain hadv | ⟨⟨⟩, u, hadv, hloop⟩ := andThen_eq_raised.1 h
      · exact pwAdv_raised_chain hc' hadv
      · exact ih (chainConfig_of_keeps hc' (pwAdv_keeps hadv).1) hloop

/-- Settles O27: in the chain neither the scan nor the batch sizes can raise. -/
theorem demodulatorRaisesNoContractViolation : Obligations.DemodulatorRaisesNoContractViolation := by
  intro s t hc h
  obtain ⟨hf, -, hd⟩ := guardedInit_eq_next.1 h
  obtain ⟨r, u, hok, rfl⟩ | ⟨c, u, hraised, rfl⟩ := deliver_eq_next.1 hd
  · have hk := dmNext_endsIn_keeps (.inl ⟨r, hok⟩)
    exact .inl (hk.fault.trans hf)
  · exact .inr (congrArg some (dmLoop_raised_chain hc hraised))

/-! ### On a finite well-formed stream -/

theorem dmLoop_completes {c n : Nat} {s : State} (hs : Flows c s) (hc : c * 100 < 2 ^ 63) (hn : positionsLeft s < n) :
    ∃ r t, dmLoop iqd n s = .ok r t ∧ (r = none → windowFull t = false) ∧ t.freeCtr = s.freeCtr := by
  induction n generalizing s with
  | zero => cases hn
  | succ n ih =>
    rw [dmLoop]
    split_ifs with hfull
    · obtain ⟨r, hscan⟩ := scan_chain hs.chain.1
      have hs' : Flows c (scanned s) := ⟨hs.chain, hs.clean, hs.load⟩
      have hw := hs.chain.1
      have hload := hs.load
      have hpos : (scanned s).pos.toNat + 1200 ≤ c := by
        rw [windowFull_eq_true] at hfull
        change s.pos.toNat + 1200 ≤ c
        omega
      rw [hscan, andThen_of_ok]
      cases r with
      | some f =>
        obtain ⟨t, ht, -⟩ := advTimes_completes (n := 1200) hs' (by omega) (by omega)
        exact ⟨_, t, takeFrameAt_eq_ok.2 ⟨posInRange_iff.2 (by omega), ht, rfl⟩, nofun, (advTimes_keeps ht).2.2.1⟩
      | none =>
        obtain ⟨u, hu, hflow⟩ := pwAdv_completes hs' (by omega) (by omega)
        have hlt := positionsLeft_pwAdv (s := scanned s) hfull hu
        rw [positionsLeft_scanned] at hlt
        obtain ⟨r, t, ht, hend, hctr⟩ := ih hflow (by omega)
        refine ⟨r, t, ?_, hend, hctr.trans (pwAdv_keeps hu).2.2.1⟩
        simp only [hu, andThen_of_ok, ht]
    · exact ⟨none, s, rfl, fun _ => Bool.eq_false_iff.2 hfull, rfl⟩

/-- Settles O24: the scan ends, the advances complete, and each of them leaves fewer positions. -/
theorem demodulatorCompletes : Obligations.DemodulatorCompletes := by
  intro s hf hi hc hclean hroom
  rw [RoomFor] at hroom
  obtain ⟨r, t, ht, hend, hctr⟩ := dmLoop_completes ⟨hc, hclean, le_rfl⟩ (by omega) (dmFuel_eq s)
  have hk := dmNext_endsIn_keeps (.inl ⟨r, ht⟩)
  have hc' : ChainConfig t := chainConfig_of_keeps (s := { s with prev := t.prev }) hc hk
  refine ⟨t.reply (frameReply r), ?_, hk.fault.trans hf, ?_, hk.inited.trans hi, hc', hk.params, hk.requests, hctr⟩
  · rw [exec_dmNext hf hi, show dmNext iqd s = _ from ht, deliver_of_ok]
  · match r, hend with
    | none, hend => exact .inl ⟨rfl, hend rfl⟩
    | some (ts, f), _ => exact .inr ⟨ts, f, rfl⟩

end Sys2Proof.Proofs
end

