-- ==== Sys2Proof/Proofs/Crc.lean ====
section
/-! PROOF. The CRC as arithmetic modulo the generator over GF(2) (R100 to R104). Every value of the 24-bit register is the
polynomial of its bits; both algorithms are steps `p ↦ p · x^8 + o` of that arithmetic, and a register is fixed by its
polynomial modulo the generator. -/

namespace Sys2Proof.Proofs

open Sys2Proof.Machine Sys2Proof.Laws
open Polynomial

/-! ### Bits as polynomials -/

/-- The polynomial of the bits of a word, bit `i` at `x^i`. -/
noncomputable def bitsPoly (w : Nat) (v : BitVec w) : (ZMod 2)[X] :=
  ∑ i ∈ Finset.range w, if v.getLsbD i then X ^ i else 0

theorem coeff_bitsPoly {w : Nat} (v : BitVec w) (i : Nat) :
    (bitsPoly w v).coeff i = if v.getLsbD i then 1 else 0 := by
  have hterm : ∀ j, (if v.getLsbD j then X ^ j else 0 : (ZMod 2)[X]).coeff i = if i = j then (if v.getLsbD i then 1 else 0) else 0 := by
    intro j
    by_cases hij : i = j
    · subst hij
      cases v.getLsbD i <;> simp
    · cases v.getLsbD j <;> simp [coeff_X_pow, hij]
  rw [bitsPoly, finsetSum_coeff, Finset.sum_congr rfl fun j _ => hterm j, Finset.sum_ite_eq]
  by_cases hi : i < w
  · rw [if_pos (Finset.mem_range.2 hi)]
  · rw [if_neg (by simpa using hi), BitVec.getLsbD_of_ge v i (Nat.le_of_not_lt hi)]
    rfl

theorem degree_bitsPoly_lt {w : Nat} (v : BitVec w) : (bitsPoly w v).degree < w := by
  rw [degree_lt_iff_coeff_zero]
  intro i hi
  rw [coeff_bitsPoly, BitVec.getLsbD_of_ge v i (by exact_mod_cast hi)]
  rfl

theorem bitsPoly_injective {w : Nat} {u v : BitVec w} (h : bitsPoly w u = bitsPoly w v) : u = v := by
  apply BitVec.eq_of_getLsbD_eq
  intro i _
  have hc := congrArg (coeff · i) h
  simp only [coeff_bitsPoly] at hc
  cases hu : u.getLsbD i <;> cases hv : v.getLsbD i <;> simp_all

@[simp] theorem bitsPoly_zero (w : Nat) : bitsPoly w 0 = 0 := by
  ext i
  simp [coeff_bitsPoly]

/-- Addition over GF(2) is `xor`. -/
theorem bitsPoly_xor {w : Nat} (u v : BitVec w) : bitsPoly w (u ^^^ v) = bitsPoly w u + bitsPoly w v := by
  ext i
  rw [coeff_add, coeff_bitsPoly, coeff_bitsPoly, coeff_bitsPoly, BitVec.getLsbD_xor]
  cases u.getLsbD i <;> cases v.getLsbD i <;> decide

theorem add_self_eq_zero (p : (ZMod 2)[X]) : p + p = 0 := CharTwo.add_self_eq_zero p

/-! ### The generator -/

/-- `G(x)` of R100. -/
noncomputable def genPoly : (ZMod 2)[X] :=
  X ^ 24 + bitsPoly 24 gen

theorem genPoly_monic : genPoly.Monic :=
  monic_X_pow_add (degree_bitsPoly_lt gen)

theorem degree_genPoly : genPoly.degree = 24 := by
  have hlt : (bitsPoly 24 gen).degree < (X ^ 24 : (ZMod 2)[X]).degree := by
    rw [degree_X_pow]
    exact degree_bitsPoly_lt gen
  rw [genPoly, degree_add_eq_left_of_degree_lt hlt, degree_X_pow]
  rfl

/-- The residue of a polynomial modulo the generator. -/
noncomputable def residue : (ZMod 2)[X] →+* AdjoinRoot genPoly :=
  AdjoinRoot.mk genPoly

theorem residue_genPoly : residue genPoly = 0 := AdjoinRoot.mk_self

/-- A register is fixed by its residue: its polynomial is of a lower degree than the generator. -/
theorem eq_of_residue_eq {u v : BitVec 24} (h : residue (bitsPoly 24 u) = residue (bitsPoly 24 v)) : u = v := by
  have hdvd : genPoly ∣ bitsPoly 24 u - bitsPoly 24 v := AdjoinRoot.mk_eq_mk.1 h
  have hdeg : (bitsPoly 24 u - bitsPoly 24 v).degree < genPoly.degree := by
    rw [degree_genPoly]
    exact (degree_sub_le _ _).trans_lt (max_lt (degree_bitsPoly_lt u) (degree_bitsPoly_lt v))
  exact bitsPoly_injective (sub_eq_zero.1 (eq_zero_of_dvd_of_degree_lt hdvd hdeg))

/-! ### One bit -/

theorem getLsbD_shiftIn (c : BitVec 24) (o : Bool) (i : Nat) :
    (c <<< 1 ||| BitVec.ofNat 24 o.toNat).getLsbD i = if i = 0 then o else decide (i < 24) && c.getLsbD (i - 1) := by
  cases i with
  | zero => cases o <;> simp
  | succ i => cases o <;> simp

/-- Shifting a bit in, where the bit at the top leaves the register. -/
theorem bitsPoly_shiftIn (c : BitVec 24) (o : Bool) :
    bitsPoly 24 (c <<< 1 ||| BitVec.ofNat 24 o.toNat) + (if c.getLsbD 23 then X ^ 24 else 0) =
      bitsPoly 24 c * X + if o then 1 else 0 := by
  ext i
  rw [coeff_add, coeff_add, coeff_bitsPoly, getLsbD_shiftIn]
  cases i with
  | zero => cases o <;> cases c.getLsbD 23 <;> simp
  | succ i =>
    have ho : (if o then 1 else 0 : (ZMod 2)[X]).coeff (i + 1) = 0 := by cases o <;> simp [coeff_one]
    rw [coeff_mul_X, coeff_bitsPoly, ho, if_neg i.succ_ne_zero, Nat.add_sub_cancel, add_zero]
    rcases Nat.lt_trichotomy i 23 with hi | hi | hi
    · have htop : (if c.getLsbD 23 then X ^ 24 else 0 : (ZMod 2)[X]).coeff (i + 1) = 0 := by
        cases c.getLsbD 23 <;> simp [coeff_X_pow, show i + 1 ≠ 24 by omega]
      rw [htop, add_zero, decide_eq_true (by omega : i + 1 < 24), Bool.true_and]
    · subst hi
      cases c.getLsbD 23 <;> simp
    · have htop : (if c.getLsbD 23 then X ^ 24 else 0 : (ZMod 2)[X]).coeff (i + 1) = 0 := by
        cases c.getLsbD 23 <;> simp [coeff_X_pow, show i + 1 ≠ 24 by omega]
      rw [htop, add_zero, decide_eq_false (by omega : ¬i + 1 < 24), BitVec.getLsbD_of_ge c i (by omega)]
      rfl

/-- R101: shift the bit in, and subtract the generator where a 1 leaves at the top. -/
theorem residue_crcShift (c : BitVec 24) (o : Bool) :
    residue (bitsPoly 24 (crcShift c o)) = residue (bitsPoly 24 c) * residue X + if o then 1 else 0 := by
  have hshift := congrArg residue (bitsPoly_shiftIn c o)
  have ho : residue (if o then 1 else 0) = if o then 1 else 0 := by cases o <;> simp
  rw [map_add, map_add, map_mul, ho] at hshift
  rw [← hshift, crcShift]
  cases c.getLsbD 23 with
  | false => simp
  | true =>
    have hgen : residue (bitsPoly 24 gen) = residue (X ^ 24) := by
      have h0 : residue (X ^ 24 + bitsPoly 24 gen) = 0 := residue_genPoly
      rw [map_add] at h0
      have h2 := congrArg residue (add_self_eq_zero (X ^ 24))
      rw [map_add, map_zero, ← h0] at h2
      exact (add_left_cancel h2).symm
    simp only [if_true, bitsPoly_xor, map_add, hgen]

/-! ### One byte -/

theorem residue_bitsPoly_byte (o : Byte) :
    residue (bitsPoly 8 o) = ∑ i ∈ Finset.range 8, (if o.getLsbD i then 1 else 0) * residue X ^ i := by
  rw [bitsPoly, map_sum]
  refine Finset.sum_congr rfl fun i _ => ?_
  split_ifs <;> simp

theorem residue_crcBitByte (c : BitVec 24) (o : Byte) :
    residue (bitsPoly 24 (crcBitByte c o)) = residue (bitsPoly 24 c * X ^ 8 + bitsPoly 8 o) := by
  rw [map_add, map_mul, map_pow, residue_bitsPoly_byte]
  simp only [crcBitByte, List.foldl_cons, List.foldl_nil, residue_crcShift, Finset.sum_range_succ, Finset.sum_range_zero]
  ring

theorem getLsbD_shiftInByte (c : BitVec 24) (o : Byte) (i : Nat) :
    (c <<< 8 ||| BitVec.setWidth 24 o).getLsbD i =
      if i < 8 then o.getLsbD i else decide (i < 24) && c.getLsbD (i - 8) := by
  by_cases hi : i < 8
  · simp [hi, show i < 24 by omega]
  · simp [hi, BitVec.getLsbD_of_ge o i (Nat.le_of_not_lt hi)]

/-- Shifting a byte in, where the byte at the top leaves the register. -/
theorem bitsPoly_shiftInByte (c : BitVec 24) (o : Byte) :
    bitsPoly 24 (c <<< 8 ||| BitVec.setWidth 24 o) + bitsPoly 8 (c.extractLsb' 16 8) * X ^ 24 =
      bitsPoly 24 c * X ^ 8 + bitsPoly 8 o := by
  ext i
  simp only [coeff_add, coeff_mul_X_pow', coeff_bitsPoly, getLsbD_shiftInByte, BitVec.getLsbD_extractLsb']
  rcases Nat.lt_or_ge i 8 with h8 | h8
  · simp [h8, show ¬8 ≤ i by omega, show ¬24 ≤ i by omega]
  · have ho : o.getLsbD i = false := BitVec.getLsbD_of_ge o i h8
    rcases Nat.lt_or_ge i 24 with h24 | h24
    · simp only [h8, h24, ho, Nat.not_lt.2 h8, Nat.not_le.2 h24, if_true, if_false, decide_true, Bool.true_and, add_zero,
        Bool.false_eq_true]
    · simp only [h8, h24, ho, Nat.not_lt.2 h8, Nat.not_lt.2 h24, if_true, if_false, decide_false, Bool.false_and, zero_add,
        add_zero, Bool.false_eq_true]
      rw [show 16 + (i - 24) = i - 8 by omega]
      by_cases h32 : i < 32
      · simp [show i - 24 < 8 by omega]
      · simp [show ¬i - 24 < 8 by omega, BitVec.getLsbD_of_ge c (i - 8) (by omega)]

/-! ### Byte lists -/

/-- A step of the message polynomial. -/
noncomputable def appendByte (p : (ZMod 2)[X]) (o : Byte) : (ZMod 2)[X] :=
  p * X ^ 8 + bitsPoly 8 o

/-- `B(x)` of R100: the bits of the byte list, the first byte highest. -/
noncomputable def messagePoly (b : List Byte) : (ZMod 2)[X] :=
  b.foldl appendByte 0

theorem residue_foldl_crcBitByte (b : List Byte) (c : BitVec 24) (p : (ZMod 2)[X])
    (h : residue (bitsPoly 24 c) = residue p) :
    residue (bitsPoly 24 (b.foldl crcBitByte c)) = residue (b.foldl appendByte p) := by
  induction b generalizing c p with
  | nil => exact h
  | cons o b ih =>
    refine ih _ _ ?_
    rw [residue_crcBitByte, appendByte, map_add, map_add, map_mul, map_mul, h]

/-- R100: the register at the end is congruent to `B(x) · x^24`. -/
theorem residue_crcBitwise (b : List Byte) : residue (bitsPoly 24 (crcBitwise b)) = residue (messagePoly b * X ^ 24) := by
  rw [crcBitwise, residue_foldl_crcBitByte (b ++ flush) 0 0 (by rw [bitsPoly_zero]), List.foldl_append, ← messagePoly]
  congr 1
  simp only [flush, List.foldl_cons, List.foldl_nil, appendByte, bitsPoly_zero]
  ring

/-- Settles O29: the register is congruent to the product and of a lower degree than the generator. -/
theorem crcIsThePolynomialRemainder : Obligations.CrcIsThePolynomialRemainder := by
  intro poly hpoly b
  obtain rfl : poly = bitsPoly := funext fun w => funext fun v => hpoly w v
  have hdvd : genPoly ∣ messagePoly b * X ^ 24 - bitsPoly 24 (crcBitwise b) :=
    AdjoinRoot.mk_eq_mk.1 (residue_crcBitwise b).symm
  have hdeg : (bitsPoly 24 (crcBitwise b)).degree < genPoly.degree := by
    rw [degree_genPoly]
    exact degree_bitsPoly_lt _
  exact (modByMonic_eq_of_dvd_sub genPoly_monic hdvd).trans ((modByMonic_eq_self_iff genPoly_monic).2 hdeg)

/-! ### The table method -/

/-- R103: the table gives back what the byte that leaves the register is worth. -/
theorem crcTabByte_eq_crcBitByte (c : BitVec 24) (o : Byte) : crcTabByte c o = crcBitByte c o := by
  apply eq_of_residue_eq
  have htab : residue (bitsPoly 24 (crcTab (c.extractLsb' 16 8))) = residue (bitsPoly 8 (c.extractLsb' 16 8) * X ^ 24) := by
    rw [crcTab, residue_crcBitwise, messagePoly, List.foldl_cons, List.foldl_nil, appendByte, zero_mul, zero_add]
  rw [residue_crcBitByte, ← bitsPoly_shiftInByte, crcTabByte, bitsPoly_xor, map_add, map_add, htab]

theorem crcBytewise_eq_crcBitwise (b : List Byte) : crcBytewise b = crcBitwise b := by
  rw [crcBytewise, crcBitwise, funext fun c => funext fun o => crcTabByte_eq_crcBitByte c o]

/-- Settles O30: the two algorithms take the same step for each byte. -/
theorem crcTableMethodIsTheReference : Obligations.CrcTableMethodIsTheReference := by
  refine fun s b hf => ⟨crcBytewise_eq_crcBitwise b, ?_, stateless_of_none hf _⟩
  rw [← crcBytewise_eq_crcBitwise]
  exact stateless_of_none hf _

theorem residue_crcBytewise (b : List Byte) :
    residue (bitsPoly 24 (crcBytewise b)) = residue (messagePoly b * X ^ 24) := by
  rw [crcBytewise_eq_crcBitwise, residue_crcBitwise]

/-- Byte lists with congruent message polynomials have one CRC. -/
theorem crcBytewise_eq_of_messagePoly {b : List Byte} {c : BitVec 24}
    (h : residue (messagePoly b * X ^ 24) = residue (bitsPoly 24 c)) : crcBytewise b = c :=
  eq_of_residue_eq ((residue_crcBytewise b).trans h)

/-! ### Consequences -/

/-- A register is its three bytes. -/
theorem bitsPoly_bytes (c : BitVec 24) :
    bitsPoly 8 (c.extractLsb' 16 8) * X ^ 16 + bitsPoly 8 (c.extractLsb' 8 8) * X ^ 8 + bitsPoly 8 (c.extractLsb' 0 8) =
      bitsPoly 24 c := by
  simp only [bitsPoly, BitVec.getLsbD_extractLsb', Finset.sum_range_succ, Finset.sum_range_zero]
  simp only [add_mul, ite_mul, zero_mul, ← pow_add]
  simp
  ring

theorem messagePoly_append_crc (b : List Byte) (c : BitVec 24) :
    messagePoly (b ++ [c.extractLsb' 16 8, c.extractLsb' 8 8, c.extractLsb' 0 8]) =
      messagePoly b * X ^ 24 + bitsPoly 24 c := by
  rw [← bitsPoly_bytes c, messagePoly, List.foldl_append, ← messagePoly]
  simp only [List.foldl_cons, List.foldl_nil, appendByte]
  ring

/-- Settles O31: the CRC is congruent to what it is appended to, and over GF(2) their sum is 0. -/
theorem appendedCrcGivesZero : Obligations.AppendedCrcGivesZero := by
  rintro b c rfl
  apply crcBytewise_eq_of_messagePoly
  rw [messagePoly_append_crc, map_mul, map_add, residue_crcBytewise, ← map_add, add_self_eq_zero, map_zero, zero_mul,
    bitsPoly_zero, map_zero]

theorem foldl_appendByte_xor {a b : List Byte} (h : a.length = b.length) (p q : (ZMod 2)[X]) :
    (List.zipWith (· ^^^ ·) a b).foldl appendByte (p + q) = a.foldl appendByte p + b.foldl appendByte q := by
  induction a generalizing b p q with
  | nil =>
    obtain rfl := List.eq_nil_of_length_eq_zero h.symm
    rfl
  | cons x a ih =>
    cases b with
    | nil => cases h
    | cons y b =>
      have hstep : appendByte (p + q) (x ^^^ y) = appendByte p x + appendByte q y := by
        simp only [appendByte, bitsPoly_xor]
        ring
      rw [List.zipWith_cons_cons, List.foldl_cons, List.foldl_cons, List.foldl_cons, hstep, ih (Nat.succ.inj h)]

theorem messagePoly_xor {a b : List Byte} (h : a.length = b.length) :
    messagePoly (List.zipWith (· ^^^ ·) a b) = messagePoly a + messagePoly b := by
  have hsum := foldl_appendByte_xor h 0 0
  rwa [add_zero] at hsum

theorem messagePoly_zero_cons (b : List Byte) : messagePoly (0 :: b) = messagePoly b := by
  rw [messagePoly, List.foldl_cons, appendByte, bitsPoly_zero, zero_mul, zero_add, ← messagePoly]

/-- Settles O32: the message polynomial is linear, and a leading 0 does not change it. -/
theorem crcIsLinear : Obligations.CrcIsLinear := by
  refine ⟨fun a b h => crcBytewise_eq_of_messagePoly ?_, fun b => crcBytewise_eq_of_messagePoly ?_⟩
  · rw [messagePoly_xor h, bitsPoly_xor, add_mul, map_add, map_add, residue_crcBytewise, residue_crcBytewise]
  · rw [messagePoly_zero_cons, residue_crcBytewise]

end Sys2Proof.Proofs
end

