-- ==== Sys2Proof/Proofs/GrayAltitude.lean ====
section
/-! PROOF. The altitude with Q = 0 (R117, R120, R125): the reordering permutes the bits of the field, the Gray decode
permutes the values of each group, and the groups number the steps of 100 feet. -/

namespace Sys2Proof.Proofs

open Sys2Proof.Machine Sys2Proof.Laws

/-! ### The groups of a field -/

/-- Bit `i` of a field as a number. -/
def altBit (alt : BitVec 12) (i : Nat) : Nat :=
  (alt.getLsbD i).toNat

theorem altBit_le (alt : BitVec 12) (i : Nat) : altBit alt i ≤ 1 :=
  Bool.toNat_le _

/-- R117: the reordered field, its bits in the order of `ALT_PERM`. -/
theorem altReorder_iqd (alt : BitVec 12) :
    altReorder iqd alt =
      (altBit alt 4 * 256 + altBit alt 2 * 128 + altBit alt 0 * 64 + altBit alt 10 * 32 + altBit alt 8 * 16 +
        altBit alt 6 * 8 + altBit alt 5 * 4 + altBit alt 3 * 2 + altBit alt 1) * 8 +
        (altBit alt 11 * 4 + altBit alt 9 * 2 + altBit alt 7) := by
  simp only [altReorder, iqd, List.foldl_cons, List.foldl_nil, altBit]
  ring

/-- The Gray coded low group of a field. -/
def lowCode (alt : BitVec 12) : Nat := field (altReorder iqd alt) 0 3

/-- The Gray coded high group of a field. -/
def highCode (alt : BitVec 12) : Nat := field (altReorder iqd alt) 3 9

theorem lowCode_eq (alt : BitVec 12) : lowCode alt = altBit alt 11 * 4 + altBit alt 9 * 2 + altBit alt 7 := by
  have hb := altBit_le alt
  have h11 := hb 11
  have h9 := hb 9
  have h7 := hb 7
  rw [lowCode, field_eq, altReorder_iqd]
  omega

theorem highCode_eq (alt : BitVec 12) :
    highCode alt =
      altBit alt 4 * 256 + altBit alt 2 * 128 + altBit alt 0 * 64 + altBit alt 10 * 32 + altBit alt 8 * 16 +
        altBit alt 6 * 8 + altBit alt 5 * 4 + altBit alt 3 * 2 + altBit alt 1 := by
  have hb := altBit_le alt
  have h11 := hb 11
  have h9 := hb 9
  have h7 := hb 7
  have h4 := hb 4
  have h2 := hb 2
  have h0 := hb 0
  have h10 := hb 10
  have h8 := hb 8
  have h6 := hb 6
  have h5 := hb 5
  have h3 := hb 3
  have h1 := hb 1
  rw [highCode, field_eq, altReorder_iqd]
  omega

theorem altReorder_eq_codes (alt : BitVec 12) : altReorder iqd alt = highCode alt * 8 + lowCode alt := by
  rw [altReorder_iqd, highCode_eq, lowCode_eq]

theorem lowCode_lt (alt : BitVec 12) : lowCode alt < 2 ^ 3 := by
  rw [lowCode, field_eq]
  exact Nat.mod_lt _ (by decide)

/-- With Q = 0 the high group has eight bits. -/
theorem highCode_lt {alt : BitVec 12} (hq : alt.getLsbD 4 = false) : highCode alt < 2 ^ 8 := by
  have hb := altBit_le alt
  have h4 : altBit alt 4 = 0 := by rw [altBit, hq]; rfl
  have h2 := hb 2
  have h0 := hb 0
  have h10 := hb 10
  have h8 := hb 8
  have h6 := hb 6
  have h5 := hb 5
  have h3 := hb 3
  have h1 := hb 1
  rw [highCode_eq]
  omega

/-- R120: the altitude of the decoded groups. -/
theorem altDec_of_not_q {alt : BitVec 12} (hq : alt.getLsbD 4 = false) :
    altDec iqd alt = altFromGroups (grayDec (lowCode alt) 3) (grayDec (highCode alt) 9) := by
  rw [altDec, altQ, hq]
  rfl

/-! ### The altitude of the groups -/

/-- The low group `low` counts as `l` (R120): 7 is remapped to 5. -/
def CountsAs (low l : Nat) : Prop :=
  low = 7 ∧ l = 5 ∨ 1 ≤ low ∧ low ≤ 4 ∧ l = low

theorem altFromGroups_of_invalid {low : Nat} (h : low = 0 ∨ low = 5 ∨ low = 6) (high : Nat) :
    altFromGroups low high = none :=
  if_pos h

theorem altFromGroups_of_countsAs {low l : Nat} (h : CountsAs low l) (high : Nat) :
    altFromGroups low high = some ((if high % 2 = 1 then 6 - (l : Int) else l) * 100 + high * 500 - 1300) := by
  obtain ⟨rfl, rfl⟩ | ⟨h1, h4, rfl⟩ := h
  · rfl
  · rw [altFromGroups, if_neg (by omega)]
    simp only [show l ≠ 7 by omega, if_false]

theorem countsAs_or_invalid {low : Nat} (h : low < 8) : (low = 0 ∨ low = 5 ∨ low = 6) ∨ ∃ l, CountsAs low l := by
  by_cases h7 : low = 7
  · exact .inr ⟨5, .inl ⟨h7, rfl⟩⟩
  · by_cases h4 : 1 ≤ low ∧ low ≤ 4
    · exact .inr ⟨low, .inr ⟨h4.1, h4.2, rfl⟩⟩
    · exact .inl (by omega)

/-- Settles O39: the groups are the Gray decodes of the reordered bits. -/
theorem grayAltitudeFollowsItsGroups : Obligations.GrayAltitudeFollowsItsGroups := by
  intro s alt b hf hb hb4
  obtain rfl : b = altBit alt := funext hb
  have hq : alt.getLsbD 4 = false := by
    rw [altBit] at hb4
    exact Bool.toNat_eq_zero.1 hb4
  have hlow := lowCode_lt alt
  have hhigh := highCode_lt hq
  refine ⟨grayDec (lowCode alt) 3, grayDec (highCode alt) 9, grayDec_lt hlow 3, grayDec_lt hhigh 9, ?_, ?_, fun h => ?_,
    fun l h => ?_⟩
  · rw [encode_grayDec_of_lt hlow, lowCode_eq]
  · rw [encode_grayDec_of_lt (hhigh.trans (by decide)), highCode_eq, hb4]
    omega
  · rw [exec_altDec hf, altDec_of_not_q hq, altFromGroups_of_invalid h, altReply, State.reply]
  · obtain ⟨n, rfl, hn⟩ : ∃ n : Nat, l = n ∧ CountsAs (grayDec (lowCode alt) 3) n := by
      obtain ⟨h7, rfl⟩ | ⟨h1, h4, rfl⟩ := h
      · exact ⟨5, rfl, .inl ⟨h7, rfl⟩⟩
      · exact ⟨_, rfl, .inr ⟨h1, h4, rfl⟩⟩
    rw [exec_altDec hf, altDec_of_not_q hq, altFromGroups_of_countsAs hn, altReply, State.reply]

/-! ### The reordering is one to one -/

theorem altReorder_lt (alt : BitVec 12) : altReorder iqd alt < 4096 := by
  have hb := altBit_le alt
  have h4 := hb 4
  have h2 := hb 2
  have h0 := hb 0
  have h10 := hb 10
  have h8 := hb 8
  have h6 := hb 6
  have h5 := hb 5
  have h3 := hb 3
  have h1 := hb 1
  have hlow := lowCode_lt alt
  rw [altReorder_eq_codes, highCode_eq]
  omega

theorem altReorder_injective {alt alt' : BitVec 12} (h : altReorder iqd alt = altReorder iqd alt') : alt = alt' := by
  rw [altReorder_iqd, altReorder_iqd] at h
  have hbits : ∀ i, i < 12 → altBit alt i = altBit alt' i := by
    have hb := altBit_le alt
    have hb' := altBit_le alt'
    have h0 := And.intro (hb 0) (hb' 0)
    have h1 := And.intro (hb 1) (hb' 1)
    have h2 := And.intro (hb 2) (hb' 2)
    have h3 := And.intro (hb 3) (hb' 3)
    have h4 := And.intro (hb 4) (hb' 4)
    have h5 := And.intro (hb 5) (hb' 5)
    have h6 := And.intro (hb 6) (hb' 6)
    have h7 := And.intro (hb 7) (hb' 7)
    have h8 := And.intro (hb 8) (hb' 8)
    have h9 := And.intro (hb 9) (hb' 9)
    have h10 := And.intro (hb 10) (hb' 10)
    have h11 := And.intro (hb 11) (hb' 11)
    intro i hi
    interval_cases i <;> omega
  refine BitVec.eq_of_getLsbD_eq fun i hi => Bool.eq_iff_iff.2 ?_
  rw [← Bool.toNat_eq_one, ← Bool.toNat_eq_one]
  exact iff_of_eq (congrArg (· = 1) (hbits i hi))

/-- Every value of twelve bits is a reordered field, since there are as many of either. -/
theorem altReorder_surjective {u : Nat} (hu : u < 4096) : ∃ alt, altReorder iqd alt = u := by
  have hinj : Function.Injective fun x : Fin 4096 => (⟨altReorder iqd (BitVec.ofFin x), altReorder_lt _⟩ : Fin 4096) :=
    fun x y h => by simpa using altReorder_injective (Fin.mk.inj h)
  obtain ⟨x, hx⟩ := Finite.injective_iff_surjective.1 hinj ⟨u, hu⟩
  exact ⟨BitVec.ofFin x, congrArg Fin.val hx⟩

/-- Each pair of codes, of three and of eight bits, is that of a field with Q = 0. -/
theorem exists_codes {low high : Nat} (hlow : low < 2 ^ 3) (hhigh : high < 2 ^ 8) :
    ∃ alt, lowCode alt = low ∧ highCode alt = high ∧ alt.getLsbD 4 = false := by
  obtain ⟨alt, halt⟩ := altReorder_surjective (u := high * 8 + low) (by omega)
  have hlow' : lowCode alt = low := by
    rw [lowCode, halt, field_eq]
    omega
  have hhigh' : highCode alt = high := by
    rw [altReorder_eq_codes] at halt
    omega
  have h4 : altBit alt 4 = 0 := by
    rw [highCode_eq] at hhigh'
    omega
  exact ⟨alt, hlow', hhigh', Bool.toNat_eq_zero.1 h4⟩

theorem xor_half_lt {v w : Nat} (hv : v < 2 ^ w) : v ^^^ (v / 2) < 2 ^ w :=
  Nat.xor_lt_two_pow hv ((Nat.div_le_self v 2).trans_lt hv)

/-! ### The steps of 100 feet -/

/-- The count of the low group at step `n`: it runs up in an even high group and down in an odd one. -/
def lowCount (n : Nat) : Nat :=
  if n / 5 % 2 = 1 then 5 - n % 5 else n % 5 + 1

/-- The low group that counts so. -/
def lowGroup (n : Nat) : Nat :=
  if lowCount n = 5 then 7 else lowCount n

theorem lowCount_bounds (n : Nat) : 1 ≤ lowCount n ∧ lowCount n ≤ 5 := by
  rw [lowCount]
  split_ifs <;> omega

theorem countsAs_lowGroup (n : Nat) : CountsAs (lowGroup n) (lowCount n) := by
  have hb := lowCount_bounds n
  rw [lowGroup]
  split_ifs with h5
  · exact .inl ⟨rfl, h5⟩
  · exact .inr ⟨hb.1, by omega, rfl⟩

/-- Step `n` stands at one pair of groups alone. -/
theorem altFromGroups_eq_step {low high n : Nat} (hlow : low < 8) :
    altFromGroups low high = some (100 * (n : Int) - 1200) ↔ low = lowGroup n ∧ high = n / 5 := by
  have hb := lowCount_bounds n
  constructor
  · intro h
    obtain hinv | ⟨l, hl⟩ := countsAs_or_invalid hlow
    · rw [altFromGroups_of_invalid hinv] at h
      cases h
    · rw [altFromGroups_of_countsAs hl, Option.some.injEq] at h
      rw [lowGroup, lowCount]
      rw [CountsAs] at hl
      split_ifs at h ⊢ <;> omega
  · rintro ⟨rfl, rfl⟩
    rw [altFromGroups_of_countsAs (countsAs_lowGroup n), lowCount, Option.some.injEq]
    split_ifs <;> omega

theorem altFromGroups_range {low high : Nat} {ft : Int} (hlow : low < 8) (hhigh : high < 256)
    (h : altFromGroups low high = some ft) : -1200 ≤ ft ∧ ft ≤ 126700 ∧ ft % 100 = 0 := by
  obtain hinv | ⟨l, hl⟩ := countsAs_or_invalid hlow
  · rw [altFromGroups_of_invalid hinv] at h
    cases h
  · rw [altFromGroups_of_countsAs hl, Option.some.injEq] at h
    rw [CountsAs] at hl
    split_ifs at h <;> omega

theorem lowGroup_lt (n : Nat) : lowGroup n < 2 ^ 3 := by
  have hb := lowCount_bounds n
  rw [lowGroup]
  split_ifs <;> omega

theorem grayDec_eq_iff {gv v w : Nat} (hg : gv < 2 ^ w) (hv : v < 2 ^ w) : grayDec gv w = v ↔ gv = v ^^^ (v / 2) := by
  constructor
  · rintro rfl
    exact (encode_grayDec_of_lt hg).symm
  · rintro rfl
    exact grayDec_encode_of_lt hv

/-- The altitude of a field with Q = 0 is step `n` exactly where its groups are those of `n`. -/
theorem altDec_eq_step {alt : BitVec 12} (hq : alt.getLsbD 4 = false) {n : Nat} (hn : n < 1280) :
    altDec iqd alt = some (100 * (n : Int) - 1200) ↔
      lowCode alt = lowGroup n ^^^ (lowGroup n / 2) ∧ highCode alt = n / 5 ^^^ (n / 5 / 2) := by
  have hlow := lowCode_lt alt
  have hhigh : highCode alt < 2 ^ 9 := (highCode_lt hq).trans (by decide)
  rw [altDec_of_not_q hq, altFromGroups_eq_step (grayDec_lt hlow 3), grayDec_eq_iff hlow (lowGroup_lt n),
    grayDec_eq_iff hhigh (by omega)]

/-- Settles O40: steps and fields are numbered by the same codes. -/
theorem grayAltitudesCoverEveryStepOnce : Obligations.GrayAltitudesCoverEveryStepOnce := by
  refine ⟨fun n => ?_, fun alt ft hq h => ?_⟩
  · obtain ⟨alt, hlow, hhigh, hq⟩ := exists_codes (xor_half_lt (lowGroup_lt n.val)) (xor_half_lt (v := n.val / 5) (w := 8) (by omega))
    refine ⟨alt, ⟨hq, (altDec_eq_step hq n.isLt).2 ⟨hlow, hhigh⟩⟩, fun alt' ⟨hq', h'⟩ => ?_⟩
    obtain ⟨hlow', hhigh'⟩ := (altDec_eq_step hq' n.isLt).1 h'
    apply altReorder_injective
    rw [altReorder_eq_codes, altReorder_eq_codes, hlow, hlow', hhigh, hhigh']
  · rw [altDec_of_not_q hq] at h
    exact altFromGroups_range (grayDec_lt (lowCode_lt alt) 3) (grayDec_lt (highCode_lt hq) 9) h

end Sys2Proof.Proofs
end

