-- ==== Sys2Proof/Proofs/Rounding.lean ====
section
/-! PROOF. Rounding to the nearest integer (R12), and that `T32` meets no tie (R133 (b)). -/

namespace Sys2Proof.Proofs

open Sys2Proof.Machine Sys2Proof.Laws

/-! ### The nearest integer -/

/-- The three cases of `rne`, by the fractional part. -/
theorem rne_cases (q : ℚ) :
    (q - ⌊q⌋ < 1 / 2 ∧ rne q = ⌊q⌋) ∨ (1 / 2 < q - ⌊q⌋ ∧ rne q = ⌊q⌋ + 1) ∨
      (q - ⌊q⌋ = 1 / 2 ∧ rne q % 2 = 0 ∧ (rne q = ⌊q⌋ ∨ rne q = ⌊q⌋ + 1)) := by
  have hf : q.floor = ⌊q⌋ := rfl
  simp only [rne, hf]
  rcases lt_trichotomy (q - ⌊q⌋) (1 / 2) with h | h | h
  · exact .inl ⟨h, if_pos h⟩
  · refine .inr (.inr ⟨h, ?_⟩)
    rw [if_neg h.not_lt, if_neg h.not_gt]
    split_ifs with heven
    · exact ⟨heven, .inl rfl⟩
    · exact ⟨by omega, .inr rfl⟩
  · exact .inr (.inl ⟨h, by rw [if_neg h.not_gt, if_pos h]⟩)

theorem abs_sub_rne_le (q : ℚ) : |q - rne q| ≤ 1 / 2 := by
  have h0 := Int.floor_le q
  have h1 := Int.lt_floor_add_one q
  rw [abs_le]
  obtain ⟨hd, hr⟩ | ⟨hd, hr⟩ | ⟨hd, -, hr | hr⟩ := rne_cases q <;> rw [hr] <;> push_cast <;> constructor <;> linarith

theorem rne_even_of_tie {q : ℚ} (h : |q - rne q| = 1 / 2) : rne q % 2 = 0 := by
  have h0 := Int.floor_le q
  have h1 := Int.lt_floor_add_one q
  obtain ⟨hd, hr⟩ | ⟨hd, hr⟩ | ⟨-, heven, -⟩ := rne_cases q
  · rw [hr, abs_of_nonneg (by linarith)] at h
    linarith
  · rw [hr, abs_of_nonpos (by push_cast; linarith)] at h
    push_cast at h
    linarith
  · exact heven

/-- An integer is at most the rounded value of what it is at most, and so above. -/
theorem rne_le {q : ℚ} {n : Int} (h : q < n + 1 / 2) : rne q ≤ n := by
  have hd := abs_le.1 (abs_sub_rne_le q)
  have hlt : (rne q : ℚ) < n + 1 := by linarith
  exact Int.lt_add_one_iff.1 (by exact_mod_cast hlt)

theorem le_rne {q : ℚ} {n : Int} (h : (n : ℚ) - 1 / 2 < q) : n ≤ rne q := by
  have hd := abs_le.1 (abs_sub_rne_le q)
  have hlt : (n : ℚ) - 1 < rne q := by linarith
  exact Int.sub_one_lt_iff.1 (by exact_mod_cast hlt)

/-! ### No tie in `T32` -/

/-- A half-integer is no multiple of `2^15` over a number of zones: the zones would be a multiple of `2^16`. -/
theorem t32_no_tie {N k : Int} {zones : Nat} (hpos : 1 ≤ zones) (hle : zones ≤ 60) {e : Int} (he : e = 1 ∨ e = -1) :
    2 * 2 ^ 15 * N ≠ (2 * k + e) * zones := by
  intro h
  have hodd : IsCoprime (2 ^ 16 : Int) (2 * k + e) := by
    refine IsCoprime.pow_left ?_
    obtain rfl | rfl := he
    · exact ⟨-k, 1, by ring⟩
    · exact ⟨k, -1, by ring⟩
  have hdvd : (2 ^ 16 : Int) ∣ zones := hodd.dvd_of_dvd_mul_left ⟨N, by rw [← h]; ring⟩
  have hle' := Int.le_of_dvd (by omega) hdvd
  omega

/-- Settles O42: `rne` by its cases; a tie of `T32` would make the zones a multiple of `2^16`. -/
theorem roundingIsNearestTiesToEven : Obligations.RoundingIsNearestTiesToEven := by
  refine ⟨fun q => ⟨abs_sub_rne_le q, rne_even_of_tie⟩, fun z zones x t hpos hle ht => ?_⟩
  have hz : (zones : ℚ) ≠ 0 := by positivity
  have ht32 : t32 t = rne (t * 2 ^ 32) := by
    rw [t32]
    norm_num
  have hval : t * 2 ^ 32 * zones = 2 ^ 15 * ((z * 2 ^ 17 + x.toNat : Int) : ℚ) := by
    rw [ht]
    push_cast
    field_simp
    ring
  rw [ht32]
  refine lt_of_le_of_ne (abs_sub_rne_le _) fun htie => ?_
  generalize rne (t * 2 ^ 32) = k at htie
  generalize z * 2 ^ 17 + (x.toNat : Int) = N at hval
  rcases abs_eq (by norm_num : (0 : ℚ) ≤ 1 / 2) |>.1 htie with h | h
  · refine t32_no_tie (N := N) (k := k) hpos hle (.inl rfl) ?_
    have : (2 * 2 ^ 15 * N : ℚ) = (2 * k + 1) * zones := by
      rw [mul_assoc, ← hval, show t * 2 ^ 32 = k + 1 / 2 by linarith]
      ring
    exact_mod_cast this
  · refine t32_no_tie (N := N) (k := k) hpos hle (.inr rfl) ?_
    have : (2 * 2 ^ 15 * N : ℚ) = (2 * k + -1) * zones := by
      rw [mul_assoc, ← hval, show t * 2 ^ 32 = k - 1 / 2 by linarith]
      ring
    exact_mod_cast this

end Sys2Proof.Proofs
end

