-- ==== Sys2Proof/Proofs/Zones.lean ====
section
/-! PROOF. The latitude folded to a quarter turn, the range and the symmetries of `CPR.NL` (R131, R132), and that no
latitude of `CPR.DEC` is undecided. -/

namespace Sys2Proof.Proofs

open Sys2Proof.Machine Sys2Proof.Laws

/-! ### The folded latitude -/

/-- The folded latitude is the distance to the nearest half turn. -/
theorem foldLat_spec (lat : ℚ) : ∃ k : Int, foldLat lat = |lat - k / 2| ∧ foldLat lat ≤ 1 / 4 := by
  have h0 := Int.floor_le lat
  have h1 := Int.lt_floor_add_one lat
  have hf : lat.floor = ⌊lat⌋ := rfl
  simp only [foldLat, center, hf]
  by_cases hhalf : 1 / 2 ≤ lat - ⌊lat⌋
  · rw [if_pos hhalf, abs_of_nonpos (by linarith)]
    split_ifs with hq
    · refine ⟨2 * ⌊lat⌋ + 1, ?_, by linarith⟩
      push_cast
      rw [abs_of_nonneg (by linarith)]
      ring
    · refine ⟨2 * ⌊lat⌋ + 2, ?_, by linarith⟩
      push_cast
      rw [abs_of_nonpos (by linarith)]
      ring
  · rw [if_neg hhalf, abs_of_nonneg (by linarith)]
    split_ifs with hq
    · refine ⟨2 * ⌊lat⌋ + 1, ?_, by linarith⟩
      push_cast
      rw [abs_of_nonpos (by linarith)]
      ring
    · refine ⟨2 * ⌊lat⌋, ?_, by linarith⟩
      push_cast
      rw [abs_of_nonneg (by linarith)]
      ring

theorem foldLat_nonneg (lat : ℚ) : 0 ≤ foldLat lat := by
  obtain ⟨k, hk, -⟩ := foldLat_spec lat
  rw [hk]
  exact abs_nonneg _

/-- Any half turn within a quarter turn gives the distance: where two do, the latitude is midway. -/
theorem foldLat_eq_of_le {lat : ℚ} {k : Int} (h : |lat - k / 2| ≤ 1 / 4) : foldLat lat = |lat - k / 2| := by
  obtain ⟨j, hj, hle⟩ := foldLat_spec lat
  rw [hj] at hle ⊢
  have hj' := abs_le.1 hle
  have hk' := abs_le.1 h
  have hlo : ((j - k : Int) : ℚ) ≤ 1 := by push_cast; linarith
  have hhi : (-1 : ℚ) ≤ ((j - k : Int) : ℚ) := by push_cast; linarith
  have hlo' : j - k ≤ 1 := by exact_mod_cast hlo
  have hhi' : -1 ≤ j - k := by exact_mod_cast hhi
  obtain rfl | rfl | rfl : j = k ∨ j = k + 1 ∨ j = k - 1 := by omega
  · rfl
  · push_cast at hj' ⊢
    rw [abs_of_nonpos (by linarith), abs_of_nonneg (by linarith)]
    linarith
  · push_cast at hj' ⊢
    rw [abs_of_nonneg (by linarith), abs_of_nonpos (by linarith)]
    linarith

theorem foldLat_neg (lat : ℚ) : foldLat (-lat) = foldLat lat := by
  obtain ⟨k, hk, hle⟩ := foldLat_spec lat
  have habs : |(-lat) - ((-k : Int) : ℚ) / 2| = |lat - k / 2| := by
    rw [← abs_neg]
    congr 1
    push_cast
    ring
  rw [foldLat_eq_of_le (by rwa [habs, ← hk]), habs, hk]

theorem foldLat_add_half (lat : ℚ) : foldLat (lat + 1 / 2) = foldLat lat := by
  obtain ⟨k, hk, hle⟩ := foldLat_spec lat
  have habs : |lat + 1 / 2 - ((k + 1 : Int) : ℚ) / 2| = |lat - k / 2| := by
    congr 1
    push_cast
    ring
  rw [foldLat_eq_of_le (by rwa [habs, ← hk]), habs, hk]

/-! ### The zone count -/

theorem zonesFrom_cons (r : ZoneRow) (rest : List ZoneRow) (phi : ℚ) :
    zonesFrom (r :: rest) phi =
      if phi * r.den ≤ (r.num : ℚ) - r.slack then r.n
      else if (r.num : ℚ) + r.slack ≤ phi * r.den then zonesFrom rest phi
      else if Config.nlWithinDigit r.n phi then r.n else zonesFrom rest phi := rfl

/-- The table gives one of its counts, or 1 below them all. -/
theorem zonesFrom_mem (rows : List ZoneRow) (phi : ℚ) : zonesFrom rows phi = 1 ∨ ∃ r ∈ rows, zonesFrom rows phi = r.n := by
  induction rows with
  | nil => exact .inl rfl
  | cons r rest ih =>
    have hrest : zonesFrom rest phi = 1 ∨ ∃ r' ∈ r :: rest, zonesFrom rest phi = r'.n :=
      ih.imp id fun ⟨r', hr', h⟩ => ⟨r', List.mem_cons_of_mem r hr', h⟩
    have hhere : ∃ r' ∈ r :: rest, r.n = r'.n := ⟨r, List.mem_cons_self, rfl⟩
    rw [zonesFrom_cons]
    split_ifs
    · exact .inr hhere
    · exact hrest
    · exact .inr hhere
    · exact hrest

theorem zoneTable_bounds : ∀ r ∈ zoneTable, 2 ≤ r.n ∧ r.n ≤ 59 := by
  decide

theorem zoneCount_bounds (lat : ℚ) : 1 ≤ zoneCount lat ∧ zoneCount lat ≤ 60 := by
  unfold zoneCount
  split_ifs
  · unfold nlEquator
    split_ifs <;> decide
  · obtain h | ⟨r, hr, h⟩ := zonesFrom_mem zoneTable (foldLat lat)
    · rw [h]
      decide
    · have := zoneTable_bounds r hr
      omega

theorem zoneCount_congr {lat lat' : ℚ} (h : foldLat lat = foldLat lat') : zoneCount lat = zoneCount lat' := by
  rw [zoneCount, zoneCount, h]

theorem exec_cprNl {s : State} (hf : s.fault = none) (lat : ℚ) :
    exec (.cprNl lat) s = .next (s.reply (.zones (zoneCount lat))) :=
  stateless_of_none hf _

/-- Settles O43: the count rests on the folded latitude alone, which the symmetries keep. -/
theorem zoneCountCompletes : Obligations.ZoneCountCompletes := by
  intro s lat hf
  obtain ⟨hlo, hhi⟩ := zoneCount_bounds lat
  refine ⟨_, exec_cprNl hf lat, rfl, hlo, hhi, ?_, ?_⟩
  · rw [exec_cprNl hf, zoneCount_congr (foldLat_neg lat), State.reply]
  · rw [exec_cprNl hf, zoneCount_congr (foldLat_add_half lat), State.reply]

/-! ### The latitudes of `CPR.DEC` -/

/-- The folded latitude of a fraction of a turn is a fraction of the same denominator, where that is even. -/
theorem foldLat_of_fraction {lat : ℚ} {N : Int} {d : Nat} (hd : 0 < d) (hlat : lat = N / (2 * d : Nat)) :
    ∃ M : Int, foldLat lat * (2 * d : Nat) = M := by
  obtain ⟨k, hk, -⟩ := foldLat_spec lat
  have hd' : (0 : ℚ) < (2 * d : Nat) := by exact_mod_cast Nat.mul_pos two_pos hd
  refine ⟨|N - k * d|, ?_⟩
  have hsub : lat - k / 2 = ((N - k * d : Int) : ℚ) / (2 * d : Nat) := by
    rw [hlat]
    push_cast at hd' ⊢
    field_simp
  rw [hk, hsub, abs_div, abs_of_pos hd', div_mul_cancel₀ _ hd'.ne', Int.cast_abs]

/-- No multiple of `1 / D` lies within the slack of the row: the neighbours of the threshold among them are outside. -/
def clearOf (D : Nat) (r : ZoneRow) : Bool :=
  decide (r.num * D / r.den * r.den + r.slack * D ≤ r.num * D) &&
    decide (r.num * D + r.slack * D ≤ (r.num * D / r.den + 1) * r.den)

theorem not_within_of_clearOf {D : Nat} {r : ZoneRow} (h : clearOf D r = true) {phi : ℚ} (hD : 0 < D) {M : Int}
    (hM : phi * D = M) :
    ¬((r.num : ℚ) - r.slack < phi * r.den ∧ phi * r.den < (r.num : ℚ) + r.slack) := by
  rintro ⟨hlo, hhi⟩
  simp only [clearOf, Bool.and_eq_true, decide_eq_true_eq] at h
  generalize r.num * D / r.den = q at h
  obtain ⟨hq, hq'⟩ := h
  have hDq : (0 : ℚ) < D := by exact_mod_cast hD
  have hphi : phi * r.den * D = M * r.den := by rw [← hM]; ring
  have hlo' : ((r.num : ℚ) - r.slack) * D < M * r.den := hphi ▸ mul_lt_mul_of_pos_right hlo hDq
  have hhi' : M * r.den < ((r.num : ℚ) + r.slack) * D := hphi ▸ mul_lt_mul_of_pos_right hhi hDq
  have hlo'' : ((r.num : Int) - r.slack) * D < M * r.den := by exact_mod_cast hlo'
  have hhi'' : M * r.den < ((r.num : Int) + r.slack) * D := by exact_mod_cast hhi'
  have hq1 : (q : Int) * r.den + r.slack * D ≤ r.num * D := by exact_mod_cast hq
  have hq2 : (r.num : Int) * D + r.slack * D ≤ (q + 1) * r.den := by exact_mod_cast hq'
  rcases le_or_gt M q with hle | hgt
  · have := mul_le_mul_of_nonneg_right hle (Int.natCast_nonneg r.den)
    linarith
  · have := mul_le_mul_of_nonneg_right (Int.add_one_le_of_lt hgt) (Int.natCast_nonneg r.den)
    linarith

theorem zoneTable_clear : ∀ r ∈ zoneTable, clearOf (2 * (60 * 65536)) r = true ∧ clearOf (2 * (59 * 65536)) r = true := by
  decide +kernel

/-- An angle from a 17-bit local is a fraction of `zones · 2^17`. -/
theorem angle_localOf (z : Int) {zones : Nat} (hz : 0 < zones) (y : BitVec 17) :
    ∃ N : Int, angle z zones (localOf y) = N / (2 * (zones * 65536) : Nat) := by
  have hz' : (zones : ℚ) ≠ 0 := by positivity
  refine ⟨(if z < 0 then z + zones else z) * 131072 + y.toNat, ?_⟩
  rw [angle, localOf]
  push_cast
  field_simp
  ring

theorem angle_not_within (z : Int) {zones : Nat} (hz : 0 < zones) (y : BitVec 17) {r : ZoneRow}
    (hr : clearOf (2 * (zones * 65536)) r = true) :
    ¬((r.num : ℚ) - r.slack < foldLat (angle z zones (localOf y)) * r.den ∧
      foldLat (angle z zones (localOf y)) * r.den < (r.num : ℚ) + r.slack) := by
  obtain ⟨N, hN⟩ := angle_localOf z hz y
  obtain ⟨M, hM⟩ := foldLat_of_fraction (by positivity) hN
  exact not_within_of_clearOf hr (by positivity) hM

/-- Settles O45: both latitudes are fractions whose denominators are clear of every row. -/
theorem rawLatitudesAreNeverUndecided : Obligations.RawLatitudesAreNeverUndecided := by
  intro y0 y1 r hr lat hlat
  obtain ⟨h60, h59⟩ := zoneTable_clear r hr
  obtain rfl | hlat := List.mem_cons.1 hlat
  · exact angle_not_within _ (by decide) y0 h60
  · obtain rfl := List.mem_singleton.1 hlat
    exact angle_not_within _ (by decide) y1 h59

end Sys2Proof.Proofs
end

