-- ==== Sys2Proof/Proofs/Combiner.lean ====
section
/-! PROOF. The position combiner `CPR.DEC` step by step (R130), and the range of its results (R134). -/

namespace Sys2Proof.Proofs

open Sys2Proof.Machine Sys2Proof.Laws

/-! ### The helpers, as the spec writes them -/

theorem localOf_eq (x : BitVec 17) : localOf x = (x.toNat : ℚ) / 2 ^ 17 := by
  rw [localOf]
  norm_num

theorem localOf_bounds (x : BitVec 17) : 0 ≤ localOf x ∧ localOf x < 1 := by
  have hlt : (x.toNat : ℚ) < 131072 := by exact_mod_cast x.isLt
  rw [localOf]
  exact ⟨by positivity, by rw [div_lt_one (by norm_num)]; exact hlt⟩

theorem t32_eq (t : ℚ) : t32 t = rne (t * 2 ^ 32) := by
  rw [t32]
  norm_num

theorem latInRange_iff (l : Int) : latInRange l = true ↔ -2 ^ 30 ≤ l ∧ l ≤ 2 ^ 30 := by
  simp only [latInRange, Bool.and_eq_true, decide_eq_true_eq]
  norm_num

/-! ### The endings of the combiner -/

theorem cprFrom_of_zones_ne {n0 n1 : Nat} (h : n0 ≠ n1) (lat0 lat1 x0 x1 : ℚ) (recent : Bool) :
    cprFrom n0 n1 lat0 lat1 x0 x1 recent = none :=
  if_pos h

theorem cprFrom_of_out_of_range {n0 n1 : Nat} {lat0 lat1 : ℚ}
    (h : ¬(latInRange (t32 (center lat0)) = true ∧ latInRange (t32 (center lat1)) = true)) (x0 x1 : ℚ) (recent : Bool) :
    cprFrom n0 n1 lat0 lat1 x0 x1 recent = none := by
  by_cases hn : n0 = n1
  · rw [cprFrom, if_neg (not_not_intro hn)]
    exact if_neg (by rwa [Bool.and_eq_true])
  · exact cprFrom_of_zones_ne hn lat0 lat1 x0 x1 recent

theorem cprFrom_of_in_range {n : Nat} {lat0 lat1 : ℚ}
    (h : latInRange (t32 (center lat0)) = true ∧ latInRange (t32 (center lat1)) = true) (x0 x1 : ℚ) (recent : Bool) :
    cprFrom n n lat0 lat1 x0 x1 recent =
      some (if recent then ((longitudes n x0 x1).2, t32 (center lat1)) else ((longitudes n x0 x1).1, t32 (center lat0))) := by
  rw [cprFrom, if_neg (not_not_intro rfl)]
  exact if_pos (by rwa [Bool.and_eq_true])

theorem longitudes_one (x0 x1 : ℚ) : longitudes 1 x0 x1 = (t32 (center x0), t32 (center x1)) := rfl

theorem longitudes_of_ne_one {n : Nat} (h : n ≠ 1) (x0 x1 : ℚ) :
    longitudes n x0 x1 =
      (t32 (center (angle (rne (x0 * ((n : ℚ) - 1) - x1 * n)) n x0)),
        t32 (center (angle (rne (x0 * ((n : ℚ) - 1) - x1 * n)) ((n : Int) - 1) x1))) :=
  if_neg h

theorem exec_cprDec {s : State} (hf : s.fault = none) (x0 y0 x1 y1 : BitVec 17) (recent : Bool) :
    exec (.cprDec x0 y0 x1 y1 recent) s = .next (s.reply (globalReply (cprDec x0 y0 x1 y1 recent))) :=
  stateless_of_none hf _

/-- Settles O46: the steps of the model are those of R130, each helper as the spec writes it. -/
theorem combinerFollowsItsSteps : Obligations.CombinerFollowsItsSteps := by
  intro s bx0 by0 bx1 by1 x0 y0 x1 y1 lat0 lat1 z LAT0 LAT1 n c hf hc hx0 hy0 hx1 hy1 hz hlat0 hlat1 hLAT0 hLAT1 hn recent
  obtain rfl : c = center := funext hc
  have hdec : cprDec bx0 by0 bx1 by1 recent = cprFrom n (zoneCount lat1) lat0 lat1 x0 x1 recent := by
    have hzphi : zphi y0 y1 = z := hz.symm
    have h0 : angle z 60 y0 = lat0 := by
      rw [hlat0, angle]
      norm_num
    have h1 : angle z 59 y1 = lat1 := by
      rw [hlat1, angle]
      norm_num
    rw [cprDec, cprLocal, localOf_eq, localOf_eq, localOf_eq, localOf_eq, ← hx0, ← hy0, ← hx1, ← hy1, hzphi, h0, h1, hn]
  rw [← t32_eq] at hLAT0 hLAT1
  rw [exec_cprDec hf, hdec]
  refine ⟨fun hne => ?_, fun hrange => ?_, fun heq h0 h0' h1 h1' => ⟨fun h => ?_, fun h zlam hzlam => ?_⟩⟩
  · rw [cprFrom_of_zones_ne (Ne.symm hne), globalReply, State.reply]
  · rw [cprFrom_of_out_of_range (by rw [latInRange_iff, latInRange_iff, ← hLAT0, ← hLAT1]; tauto), globalReply, State.reply]
  all_goals
    rw [heq, cprFrom_of_in_range (by rw [latInRange_iff, latInRange_iff, ← hLAT0, ← hLAT1]; exact ⟨⟨h0, h0'⟩, h1, h1'⟩),
      ← hLAT0, ← hLAT1]
  · rw [h, longitudes_one, t32_eq, t32_eq]
    cases recent <;> rfl
  · rw [longitudes_of_ne_one h, ← hzlam, t32_eq, t32_eq, angle, angle]
    push_cast
    cases recent <;> rfl

/-! ### The range of the results -/

/-- A fraction of a turn over at most 60 zones, brought into the half-open half turn around 0, stays below `2^31`: the
greatest such fraction is `2^15 / 60` units below. -/
theorem t32_center_bounds {t : ℚ} {N : Int} {zones : Nat} (hz : 0 < zones) (hle : zones ≤ 60)
    (ht : t = N / (2 * (zones * 65536) : Nat)) (hlo : -1 / 2 ≤ t) (hhi : t < 3 / 2) :
    -2 ^ 31 ≤ t32 (center t) ∧ t32 (center t) ≤ 2 ^ 31 - 1 := by
  have hzq : (1 : ℚ) ≤ zones := by exact_mod_cast hz
  have hleq : (zones : ℚ) ≤ 60 := by exact_mod_cast hle
  obtain ⟨M, hM⟩ : ∃ M : Int, center t * (zones * 131072) = M := by
    have hN : t * (zones * 131072) = N := by
      rw [ht]
      push_cast
      field_simp
      ring
    rw [center]
    split_ifs
    · exact ⟨N - zones * 131072, by rw [sub_mul, hN]; push_cast; ring⟩
    · exact ⟨N, hN⟩
  have hc : -1 / 2 ≤ center t ∧ center t < 1 / 2 := by
    rw [center]
    split_ifs <;> constructor <;> linarith
  have hMlt : M < zones * 65536 := by
    have : (M : ℚ) < zones * 65536 := by
      rw [← hM]
      nlinarith [hc.2]
    exact_mod_cast this
  have hMle : (M : ℚ) ≤ zones * 65536 - 1 := by
    have := Int.le_sub_one_of_lt hMlt
    exact_mod_cast this
  rw [t32_eq]
  refine ⟨le_rne ?_, rne_le ?_⟩
  · push_cast
    linarith [hc.1]
  · have hgap : 1 ≤ (1 / 2 - center t) * (zones * 131072) := by
      rw [sub_mul, hM]
      linarith
    push_cast
    nlinarith [hc.2]

/-- `zlam` is the number of the zone of either message, up to the rounding (R130): both longitudes are fractions of a turn,
up to a half turn either way. -/
theorem longitude_angles_bounds {n : Nat} {x0 x1 : ℚ} (h0 : 0 ≤ x0 ∧ x0 < 1) (h1 : 0 ≤ x1 ∧ x1 < 1) :
    (-1 / 2 ≤ angle (rne (x0 * ((n + 2 : Nat) - 1) - x1 * (n + 2 : Nat))) (n + 2 : Nat) x0 ∧
      angle (rne (x0 * ((n + 2 : Nat) - 1) - x1 * (n + 2 : Nat))) (n + 2 : Nat) x0 < 3 / 2) ∧
    -1 / 2 ≤ angle (rne (x0 * ((n + 2 : Nat) - 1) - x1 * (n + 2 : Nat))) (n + 1 : Nat) x1 ∧
      angle (rne (x0 * ((n + 2 : Nat) - 1) - x1 * (n + 2 : Nat))) (n + 1 : Nat) x1 < 3 / 2 := by
  have hn : (0 : ℚ) ≤ n := Nat.cast_nonneg n
  have hround := abs_le.1 (abs_sub_rne_le (x0 * ((n + 2 : Nat) - 1) - x1 * (n + 2 : Nat)))
  generalize rne (x0 * ((n + 2 : Nat) - 1) - x1 * (n + 2 : Nat)) = z at hround ⊢
  push_cast at hround
  obtain ⟨hr, hr'⟩ := hround
  have hx0n : 0 ≤ x0 * n ∧ x0 * n ≤ n := ⟨mul_nonneg h0.1 hn, mul_le_of_le_one_left hn h0.2.le⟩
  have hx1n : 0 ≤ x1 * n ∧ x1 * n ≤ n := ⟨mul_nonneg h1.1 hn, mul_le_of_le_one_left hn h1.2.le⟩
  have hbound : ∀ (d w : ℚ), 0 < d → -(1 / 2) * d ≤ w → w < 3 / 2 * d → -1 / 2 ≤ 1 / d * w ∧ 1 / d * w < 3 / 2 := by
    intro d w hd hlo hhi
    rw [one_div_mul_eq_div, le_div_iff₀ hd, div_lt_iff₀ hd]
    exact ⟨by linarith, hhi⟩
  simp only [angle]
  push_cast
  rcases lt_or_ge z 0 with hz | hz
  · have hzq : (z : ℚ) ≤ -1 := by exact_mod_cast Int.le_sub_one_of_lt hz
    rw [if_pos hz, if_pos hz]
    exact ⟨hbound _ _ (by linarith) (by linarith) (by linarith), hbound _ _ (by linarith) (by linarith) (by linarith)⟩
  · have hzq : (0 : ℚ) ≤ z := by exact_mod_cast hz
    rw [if_neg hz.not_gt, if_neg hz.not_gt]
    exact ⟨hbound _ _ (by linarith) (by linarith) (by linarith), hbound _ _ (by linarith) (by linarith) (by linarith)⟩

theorem longitudes_bounds {n : Nat} (hlo : 1 ≤ n) (hhi : n ≤ 60) (x0 x1 : BitVec 17) :
    (-2 ^ 31 ≤ (longitudes n (localOf x0) (localOf x1)).1 ∧ (longitudes n (localOf x0) (localOf x1)).1 ≤ 2 ^ 31 - 1) ∧
      -2 ^ 31 ≤ (longitudes n (localOf x0) (localOf x1)).2 ∧ (longitudes n (localOf x0) (localOf x1)).2 ≤ 2 ^ 31 - 1 := by
  have h0 := localOf_bounds x0
  have h1 := localOf_bounds x1
  rcases Nat.eq_or_lt_of_le hlo with rfl | hn
  · have hfrac : ∀ x : BitVec 17, localOf x = ((x.toNat : Int) : ℚ) / (2 * (1 * 65536) : Nat) := by
      intro x
      rw [localOf]
      norm_num
    rw [longitudes_one]
    exact ⟨t32_center_bounds one_pos (by decide) (hfrac x0) (by linarith) (by linarith),
      t32_center_bounds one_pos (by decide) (hfrac x1) (by linarith) (by linarith)⟩
  · obtain ⟨m, rfl⟩ : ∃ m, n = m + 2 := ⟨n - 2, by omega⟩
    obtain ⟨⟨ha, ha'⟩, hb, hb'⟩ := longitude_angles_bounds (n := m) h0 h1
    have hodd : ((m + 2 : Nat) : Int) - 1 = (m + 1 : Nat) := by
      push_cast
      ring
    rw [longitudes_of_ne_one (by omega), hodd]
    obtain ⟨N0, hN0⟩ := angle_localOf
      (rne (localOf x0 * ((m + 2 : Nat) - 1) - localOf x1 * (m + 2 : Nat))) (zones := m + 2) (by omega) x0
    obtain ⟨N1, hN1⟩ := angle_localOf
      (rne (localOf x0 * ((m + 2 : Nat) - 1) - localOf x1 * (m + 2 : Nat))) (zones := m + 1) (by omega) x1
    exact ⟨t32_center_bounds (by omega) hhi hN0 ha ha', t32_center_bounds (by omega) (by omega) hN1 hb hb'⟩

theorem cprFrom_bounds {n0 n1 : Nat} {lat0 lat1 x0 x1 : ℚ} {recent : Bool} {lon lat : Int}
    (h : cprFrom n0 n1 lat0 lat1 x0 x1 recent = some (lon, lat)) :
    (-2 ^ 30 ≤ lat ∧ lat ≤ 2 ^ 30) ∧ (lon = (longitudes n0 x0 x1).1 ∨ lon = (longitudes n0 x0 x1).2) := by
  by_cases hn : n0 = n1
  · subst hn
    by_cases hrange : latInRange (t32 (center lat0)) = true ∧ latInRange (t32 (center lat1)) = true
    · rw [cprFrom_of_in_range hrange] at h
      cases recent with
      | true =>
        obtain ⟨rfl, rfl⟩ := Prod.mk.inj (Option.some.inj h)
        exact ⟨(latInRange_iff _).1 hrange.2, .inr rfl⟩
      | false =>
        obtain ⟨rfl, rfl⟩ := Prod.mk.inj (Option.some.inj h)
        exact ⟨(latInRange_iff _).1 hrange.1, .inl rfl⟩
    · rw [cprFrom_of_out_of_range hrange] at h
      cases h
  · rw [cprFrom_of_zones_ne hn] at h
    cases h

/-- Settles O47: the latitude was tested, and both longitudes are in range. -/
theorem combinedPositionIsInRange : Obligations.CombinedPositionIsInRange := by
  intro x0 y0 x1 y1 recent lon lat h
  obtain ⟨⟨hlo, hhi⟩, hlon⟩ := cprFrom_bounds h
  obtain ⟨hn, hn'⟩ := zoneCount_bounds (angle (zphi (localOf y0) (localOf y1)) 60 (localOf y0))
  obtain ⟨heven, hodd⟩ := longitudes_bounds hn hn' x0 x1
  obtain rfl | rfl := hlon
  · exact ⟨hlo, hhi, heven⟩
  · exact ⟨hlo, hhi, hodd⟩

end Sys2Proof.Proofs
end

