-- ==== Sys2Proof/Proofs/TrigBounds.lean ====
section
/-! PROOF. Rational bounds of sine and cosine at rational fractions of `π`, from the partial sums of their series. They
are computed by the kernel, for the thresholds of R132. -/

namespace Sys2Proof.Proofs

open Finset

/-! ### The partial sums -/

/-- The first `N` terms of the series of the cosine. -/
def cosSum (N : Nat) (x : ℚ) : ℚ :=
  ∑ k ∈ range N, (-1) ^ k * x ^ (2 * k) / (2 * k).factorial

/-- The first `N` terms of the series of the sine. -/
def sinSum (N : Nat) (x : ℚ) : ℚ :=
  ∑ k ∈ range N, (-1) ^ k * x ^ (2 * k + 1) / (2 * k + 1).factorial

/-- What the first `N` terms of either series leave out, at most. -/
def trigError (N : Nat) (x : ℚ) : ℚ :=
  x ^ (2 * N) / (2 * N).factorial * 2

/-- The partial sums of both series are the real and the imaginary part of that of the exponential. -/
theorem expSum_eq (N : Nat) (x : ℚ) :
    ∑ m ∈ range (2 * N), ((x : ℂ) * Complex.I) ^ m / (m.factorial : ℂ) = (cosSum N x : ℂ) + (sinSum N x : ℂ) * Complex.I := by
  induction N with
  | zero => simp [cosSum, sinSum]
  | succ N ih =>
    have heven : ((x : ℂ) * Complex.I) ^ (2 * N) = (-1) ^ N * (x : ℂ) ^ (2 * N) := by
      rw [mul_pow, pow_mul Complex.I, Complex.I_sq, mul_comm]
    have hodd : ((x : ℂ) * Complex.I) ^ (2 * N + 1) = (-1) ^ N * (x : ℂ) ^ (2 * N + 1) * Complex.I := by
      rw [pow_succ, heven]
      ring
    rw [Nat.mul_succ, sum_range_succ, sum_range_succ, ih, heven, hodd, cosSum, sinSum, cosSum, sinSum, sum_range_succ,
      sum_range_succ]
    push_cast
    ring

theorem abs_exp_sub_le {N : Nat} {x : ℚ} (h0 : 0 ≤ x) (h2 : x ≤ 2) (hN : 2 ≤ N) :
    ‖Complex.exp ((x : ℂ) * Complex.I) - ((cosSum N x : ℂ) + (sinSum N x : ℂ) * Complex.I)‖ ≤ (trigError N x : ℝ) := by
  have hnorm : ‖(x : ℂ) * Complex.I‖ = (x : ℝ) := by
    rw [norm_mul, Complex.norm_I, mul_one, ← Complex.ofReal_ratCast, Complex.norm_real, Real.norm_eq_abs,
      abs_of_nonneg (by exact_mod_cast h0)]
  have hsmall : ‖(x : ℂ) * Complex.I‖ / ((2 * N).succ : ℝ) ≤ 1 / 2 := by
    have hx : (x : ℝ) ≤ 2 := by exact_mod_cast h2
    have hNr : (2 : ℝ) ≤ N := by exact_mod_cast hN
    rw [hnorm, div_le_iff₀ (by positivity)]
    push_cast
    linarith
  have h := Complex.exp_bound' hsmall
  rw [expSum_eq, hnorm] at h
  simpa [trigError] using h

theorem abs_cos_sub_le {N : Nat} {x : ℚ} (h0 : 0 ≤ x) (h2 : x ≤ 2) (hN : 2 ≤ N) :
    |Real.cos x - cosSum N x| ≤ trigError N x := by
  refine le_trans (le_of_eq_of_le ?_ (Complex.abs_re_le_norm _)) (abs_exp_sub_le h0 h2 hN)
  rw [← Complex.ofReal_ratCast, ← Complex.ofReal_ratCast, ← Complex.ofReal_ratCast, Complex.sub_re,
    Complex.exp_ofReal_mul_I_re, Complex.add_re, Complex.re_ofReal_mul, Complex.I_re, Complex.ofReal_re, mul_zero, add_zero]

theorem abs_sin_sub_le {N : Nat} {x : ℚ} (h0 : 0 ≤ x) (h2 : x ≤ 2) (hN : 2 ≤ N) :
    |Real.sin x - sinSum N x| ≤ trigError N x := by
  refine le_trans (le_of_eq_of_le ?_ (Complex.abs_im_le_norm _)) (abs_exp_sub_le h0 h2 hN)
  rw [← Complex.ofReal_ratCast, ← Complex.ofReal_ratCast, ← Complex.ofReal_ratCast, Complex.sub_im,
    Complex.exp_ofReal_mul_I_im, Complex.add_im, Complex.im_ofReal_mul, Complex.I_im, Complex.ofReal_im, mul_one, zero_add]

/-! ### At fractions of `π` -/

/-- `π` from below, to twenty digits. -/
def piLo : ℚ := 314159265358979323846 / 10 ^ 20

/-- `π` from above, to twenty digits. -/
def piHi : ℚ := 314159265358979323847 / 10 ^ 20

theorem piLo_lt_pi : (piLo : ℝ) < Real.pi := by
  refine lt_of_eq_of_lt ?_ Real.pi_gt_d20
  norm_num [piLo]

theorem pi_lt_piHi : Real.pi < piHi := by
  refine Real.pi_lt_d20.trans_eq ?_
  norm_num [piHi]

def cosLower (y : ℚ) : ℚ := cosSum 14 (piHi * y) - trigError 14 (piHi * y)

def cosUpper (y : ℚ) : ℚ := cosSum 14 (piLo * y) + trigError 14 (piLo * y)

def sinLower (y : ℚ) : ℚ := sinSum 14 (piLo * y) - trigError 14 (piLo * y)

def sinUpper (y : ℚ) : ℚ := sinSum 14 (piHi * y) + trigError 14 (piHi * y)

section
variable {y : ℚ} (h0 : 0 ≤ y) (hhalf : y ≤ 1 / 2)
include h0 hhalf

theorem piLo_mul_bounds : 0 ≤ piLo * y ∧ piLo * y ≤ 2 ∧ ((piLo * y : ℚ) : ℝ) ≤ Real.pi * y := by
  have hlo : (0 : ℚ) < piLo ∧ piLo < 4 := by norm_num [piLo]
  refine ⟨by nlinarith, by nlinarith, ?_⟩
  rw [Rat.cast_mul]
  exact mul_le_mul_of_nonneg_right piLo_lt_pi.le (by exact_mod_cast h0)

theorem piHi_mul_bounds : 0 ≤ piHi * y ∧ piHi * y ≤ 2 ∧ Real.pi * y ≤ ((piHi * y : ℚ) : ℝ) := by
  have hlo : (0 : ℚ) < piHi ∧ piHi < 4 := by norm_num [piHi]
  refine ⟨by nlinarith, by nlinarith, ?_⟩
  rw [Rat.cast_mul]
  exact mul_le_mul_of_nonneg_right pi_lt_piHi.le (by exact_mod_cast h0)

theorem pi_mul_bounds : 0 ≤ Real.pi * y ∧ Real.pi * y ≤ Real.pi / 2 := by
  have h0' : (0 : ℝ) ≤ y := by exact_mod_cast h0
  have hhalf' : (y : ℝ) ≤ ((1 / 2 : ℚ) : ℝ) := Rat.cast_le.2 hhalf
  push_cast at hhalf'
  have hpi := Real.pi_pos
  exact ⟨by positivity, by nlinarith⟩

theorem cosLower_le : (cosLower y : ℝ) ≤ Real.cos (Real.pi * y) := by
  obtain ⟨hx0, hx2, hle⟩ := piHi_mul_bounds h0 hhalf
  have hb := abs_le.1 (abs_cos_sub_le (N := 14) hx0 hx2 (by decide))
  have hxpi : ((piHi * y : ℚ) : ℝ) ≤ Real.pi := le_trans (by exact_mod_cast hx2) Real.two_le_pi
  have hmono := Real.cos_le_cos_of_nonneg_of_le_pi (pi_mul_bounds h0 hhalf).1 hxpi hle
  rw [cosLower, Rat.cast_sub]
  linarith

theorem le_cosUpper : Real.cos (Real.pi * y) ≤ cosUpper y := by
  obtain ⟨hx0, hx2, hle⟩ := piLo_mul_bounds h0 hhalf
  have hb := abs_le.1 (abs_cos_sub_le (N := 14) hx0 hx2 (by decide))
  have hpi : Real.pi * y ≤ Real.pi := (pi_mul_bounds h0 hhalf).2.trans (half_le_self Real.pi_pos.le)
  have hmono := Real.cos_le_cos_of_nonneg_of_le_pi (by exact_mod_cast hx0) hpi hle
  rw [cosUpper, Rat.cast_add]
  linarith

theorem sinLower_le : (sinLower y : ℝ) ≤ Real.sin (Real.pi * y) := by
  obtain ⟨hx0, hx2, hle⟩ := piLo_mul_bounds h0 hhalf
  have hb := abs_le.1 (abs_sin_sub_le (N := 14) hx0 hx2 (by decide))
  have hx0' : (0 : ℝ) ≤ ((piLo * y : ℚ) : ℝ) := by exact_mod_cast hx0
  have hmono := Real.sin_le_sin_of_le_of_le_pi_div_two (by linarith [Real.pi_pos]) (pi_mul_bounds h0 hhalf).2 hle
  rw [sinLower, Rat.cast_sub]
  linarith

omit hhalf in
/-- Short of a quarter turn, so that `π` from above still is. -/
theorem le_sinUpper (hthird : y ≤ 1 / 3) : Real.sin (Real.pi * y) ≤ sinUpper y := by
  have hhalf : y ≤ 1 / 2 := hthird.trans (by norm_num)
  obtain ⟨hx0, hx2, hle⟩ := piHi_mul_bounds h0 hhalf
  have hb := abs_le.1 (abs_sin_sub_le (N := 14) hx0 hx2 (by decide))
  have hx : ((piHi * y : ℚ) : ℝ) ≤ ((3 / 2 : ℚ) : ℝ) := by
    have hpi : piHi < 4 := by norm_num [piHi]
    exact Rat.cast_le.2 (by nlinarith)
  push_cast at hx
  have hmono := Real.sin_le_sin_of_le_of_le_pi_div_two (by linarith [(pi_mul_bounds h0 hhalf).1, Real.pi_pos])
    (by push_cast; linarith [Real.pi_gt_three]) hle
  rw [sinUpper, Rat.cast_add]
  linarith

end

end Sys2Proof.Proofs
end

