-- ==== Sys2Proof/Proofs/ZoneFormula.lean ====
section
/-! PROOF. The table of R132 is the cosine inequality of R131: between its thresholds the inequality is that of two sines
and a cosine, which falls along a quarter turn, and at the two edges of a threshold's last digit the kernel computes it. -/

namespace Sys2Proof.Proofs

open Sys2Proof.Machine Sys2Proof.Laws

/-! ### The inequality -/

/-- `n` zones are admitted at the folded latitude `phi`: R131 under a square root. -/
def Admits (n : Nat) (phi : ℝ) : Prop :=
  Real.sin (Real.pi / 60) ≤ Real.cos (2 * Real.pi * phi) * Real.sin (Real.pi / n)

theorem cos_sq_foldLat (lat : ℚ) :
    Real.cos (2 * Real.pi * (lat : ℝ)) ^ 2 = Real.cos (2 * Real.pi * (foldLat lat : ℝ)) ^ 2 := by
  obtain ⟨k, hk, -⟩ := foldLat_spec lat
  have harg : 2 * Real.pi * (lat : ℝ) - k * Real.pi = 2 * Real.pi * ((lat : ℝ) - k / 2) := by ring
  have hcast : ((foldLat lat : ℚ) : ℝ) = |(lat : ℝ) - k / 2| := by
    rw [hk]
    push_cast
    rfl
  have hturn : Real.cos (2 * Real.pi * ((lat : ℝ) - k / 2)) ^ 2 = Real.cos (2 * Real.pi * (lat : ℝ)) ^ 2 := by
    rw [← harg, Real.cos_sub_int_mul_pi]
    rcases Int.even_or_odd k with hk | hk
    · rw [hk.neg_one_zpow, one_mul]
    · rw [hk.neg_one_zpow, neg_one_mul, neg_sq]
  rw [hcast, ← hturn]
  rcases abs_choice ((lat : ℝ) - k / 2) with h | h
  · rw [h]
  · rw [h, mul_neg, Real.cos_neg]

theorem one_sub_cos_two_pi_div (n : Nat) : 1 - Real.cos (2 * Real.pi / n) = 2 * Real.sin (Real.pi / n) ^ 2 := by
  rw [show 2 * Real.pi / n = 2 * (Real.pi / n) by ring, Real.cos_two_mul, Real.cos_sq']
  ring

theorem sin_pi_div_pos {n : Nat} (hn : 2 ≤ n) : 0 < Real.sin (Real.pi / n) := by
  have hn' : (2 : ℝ) ≤ n := by exact_mod_cast hn
  have hpi := Real.pi_pos
  refine Real.sin_pos_of_pos_of_lt_pi (by positivity) ?_
  rw [div_lt_iff₀ (by linarith)]
  nlinarith

theorem foldLat_real_bounds (lat : ℚ) : (0 : ℝ) ≤ foldLat lat ∧ (foldLat lat : ℝ) ≤ 1 / 4 := by
  obtain ⟨-, -, hle⟩ := foldLat_spec lat
  have hle' : (foldLat lat : ℝ) ≤ ((1 / 4 : ℚ) : ℝ) := Rat.cast_le.2 hle
  push_cast at hle'
  exact ⟨by exact_mod_cast foldLat_nonneg lat, hle'⟩

theorem cos_nonneg_of_quarter {phi : ℝ} (h0 : 0 ≤ phi) (hq : phi ≤ 1 / 4) : 0 ≤ Real.cos (2 * Real.pi * phi) := by
  have hpi := Real.pi_pos
  have hx : 0 ≤ 2 * Real.pi * phi := by positivity
  exact Real.cos_nonneg_of_neg_pi_div_two_le_of_le (by linarith) (by nlinarith)

/-- R131 is the inequality of the roots, which are not negative within a quarter turn. -/
theorem admits_iff {lat : ℚ} {n : Nat} (hn : 2 ≤ n) :
    1 - Real.cos (2 * Real.pi / 60) ≤ Real.cos (2 * Real.pi * (lat : ℝ)) ^ 2 * (1 - Real.cos (2 * Real.pi / n)) ↔
      Admits n (foldLat lat) := by
  obtain ⟨h0, hq⟩ := foldLat_real_bounds lat
  have h60 : 1 - Real.cos (2 * Real.pi / 60) = 2 * Real.sin (Real.pi / 60) ^ 2 := by
    exact_mod_cast one_sub_cos_two_pi_div 60
  have hs : 0 ≤ Real.sin (Real.pi / 60) := by exact_mod_cast (sin_pi_div_pos (n := 60) (by decide)).le
  have hc := mul_nonneg (cos_nonneg_of_quarter h0 hq) (sin_pi_div_pos hn).le
  rw [h60, one_sub_cos_two_pi_div, cos_sq_foldLat, Admits, ← sq_le_sq₀ hs hc, mul_pow]
  constructor <;> intro h <;> linarith

/-- Along a quarter turn the cosine falls. -/
theorem cos_lt_of_lt {phi phi' : ℝ} (h0 : 0 ≤ phi) (hlt : phi < phi') (hq : phi' ≤ 1 / 4) :
    Real.cos (2 * Real.pi * phi') < Real.cos (2 * Real.pi * phi) := by
  have hpi := Real.pi_pos
  exact Real.cos_lt_cos_of_nonneg_of_le_pi (by positivity) (by nlinarith) (by nlinarith)

theorem Admits.lt_of_lt {n : Nat} {phi phi' : ℝ} (hn : 2 ≤ n) (h : Admits n phi') (h0 : 0 ≤ phi) (hlt : phi < phi')
    (hq : phi' ≤ 1 / 4) : Real.sin (Real.pi / 60) < Real.cos (2 * Real.pi * phi) * Real.sin (Real.pi / n) :=
  h.trans_lt (mul_lt_mul_of_pos_right (cos_lt_of_lt h0 hlt hq) (sin_pi_div_pos hn))

theorem Admits.of_le {n : Nat} {phi phi' : ℝ} (hn : 2 ≤ n) (h : Admits n phi') (h0 : 0 ≤ phi) (hle : phi ≤ phi')
    (hq : phi' ≤ 1 / 4) : Admits n phi := by
  rcases hle.eq_or_lt with rfl | hlt
  · exact h
  · exact (h.lt_of_lt hn h0 hlt hq).le

/-! ### From rational bounds -/

theorem cos_two_pi_mul (a : ℚ) : Real.cos (2 * Real.pi * a) = Real.cos (Real.pi * ((2 * a : ℚ) : ℝ)) := by
  push_cast
  ring_nf

theorem sin_pi_div (n : Nat) : Real.sin (Real.pi / n) = Real.sin (Real.pi * ((1 / n : ℚ) : ℝ)) := by
  push_cast
  ring_nf

theorem sin_pi_div_sixty : Real.sin (Real.pi / 60) = Real.sin (Real.pi * ((1 / 60 : ℚ) : ℝ)) := by
  exact_mod_cast sin_pi_div 60

theorem one_div_bounds {n k : Nat} (hk : 0 < k) (hn : k ≤ n) : (0 : ℚ) ≤ 1 / n ∧ (1 : ℚ) / n ≤ 1 / k := by
  have hk' : (0 : ℚ) < k := by exact_mod_cast hk
  have hn' : (k : ℚ) ≤ n := by exact_mod_cast hn
  exact ⟨by positivity, one_div_le_one_div_of_le hk' hn'⟩

section
variable {n : Nat} {a : ℚ} (hn : 3 ≤ n) (h0 : 0 ≤ a) (hq : a ≤ 1 / 4)
include hn h0 hq

omit hn in
theorem cos_nonneg_of_rat : 0 ≤ Real.cos (2 * Real.pi * a) := by
  have hq' : (a : ℝ) ≤ ((1 / 4 : ℚ) : ℝ) := Rat.cast_le.2 hq
  push_cast at hq'
  exact cos_nonneg_of_quarter (by exact_mod_cast h0) hq'

theorem admits_of_bounds (hs : 0 ≤ sinLower (1 / n))
    (h : sinUpper (1 / 60) ≤ cosLower (2 * a) * sinLower (1 / n)) : Admits n a := by
  obtain ⟨hn0, hn1⟩ := one_div_bounds two_pos (show 2 ≤ n by omega)
  have hcos := cosLower_le (y := 2 * a) (by linarith) (by linarith)
  have hsin := sinLower_le hn0 (by exact_mod_cast hn1)
  have hsixty := le_sinUpper (y := 1 / 60) (by norm_num) (by norm_num)
  rw [← cos_two_pi_mul] at hcos
  rw [← sin_pi_div] at hsin
  rw [← sin_pi_div_sixty] at hsixty
  have h' : (sinUpper (1 / 60) : ℝ) ≤ cosLower (2 * a) * sinLower (1 / n) := by exact_mod_cast h
  exact hsixty.trans (h'.trans (mul_le_mul hcos hsin (by exact_mod_cast hs) (cos_nonneg_of_rat h0 hq)))

theorem not_admits_of_bounds (h : cosUpper (2 * a) * sinUpper (1 / n) < sinLower (1 / 60)) : ¬Admits n a := by
  obtain ⟨hn0, hn1⟩ := one_div_bounds three_pos hn
  have hcos := le_cosUpper (y := 2 * a) (by linarith) (by linarith)
  have hsin := le_sinUpper hn0 (by exact_mod_cast hn1)
  have hsixty := sinLower_le (y := 1 / 60) (by norm_num) (by norm_num)
  rw [← cos_two_pi_mul] at hcos
  rw [← sin_pi_div] at hsin
  rw [← sin_pi_div_sixty] at hsixty
  have h' : (cosUpper (2 * a) : ℝ) * sinUpper (1 / n) < sinLower (1 / 60) := by exact_mod_cast h
  have hc := cos_nonneg_of_rat h0 hq
  have hmul := mul_le_mul hcos hsin (sin_pi_div_pos (by omega)).le (hc.trans hcos)
  rw [Admits]
  linarith

end

/-! ### At the edges of a threshold -/

/-- The lower edge of the last printed digit. -/
def lowerEdge (r : ZoneRow) : ℚ := ((r.num : ℚ) - r.slack) / r.den

/-- The upper edge of the last printed digit. -/
def upperEdge (r : ZoneRow) : ℚ := ((r.num : ℚ) + r.slack) / r.den

/-- The rational bounds decide the inequality at both edges: admitted at the lower one, not at the upper one. -/
def edgesDecide (r : ZoneRow) : Bool :=
  decide (0 ≤ sinLower (1 / r.n)) && decide (sinUpper (1 / 60) ≤ cosLower (2 * lowerEdge r) * sinLower (1 / r.n)) &&
    decide (cosUpper (2 * upperEdge r) * sinUpper (1 / r.n) < sinLower (1 / 60))

/-- `Λ(2)` is exact; every other row is decided at its edges. -/
theorem zoneTable_edges : ∀ r ∈ zoneTable, r = ⟨2, 87, 360, 0⟩ ∨ 3 ≤ r.n ∧ edgesDecide r = true := by
  decide +kernel

theorem zoneTable_quarter : ∀ r ∈ zoneTable, 0 < r.den ∧ r.slack ≤ r.num ∧ 4 * (r.num + r.slack) ≤ r.den := by
  decide

section
variable {r : ZoneRow} (hr : r ∈ zoneTable)
include hr

theorem lowerEdge_bounds : 0 ≤ lowerEdge r ∧ lowerEdge r ≤ 1 / 4 := by
  obtain ⟨hden, hslack, hquarter⟩ := zoneTable_quarter r hr
  have hden' : (0 : ℚ) < r.den := by exact_mod_cast hden
  have hslack' : (r.slack : ℚ) ≤ r.num := by exact_mod_cast hslack
  have hquarter' : 4 * ((r.num : ℚ) + r.slack) ≤ r.den := by exact_mod_cast hquarter
  have hs : (0 : ℚ) ≤ r.slack := Nat.cast_nonneg _
  rw [lowerEdge, le_div_iff₀ hden', div_le_iff₀ hden']
  constructor <;> linarith

theorem upperEdge_bounds : 0 ≤ upperEdge r ∧ upperEdge r ≤ 1 / 4 := by
  obtain ⟨hden, -, hquarter⟩ := zoneTable_quarter r hr
  have hden' : (0 : ℚ) < r.den := by exact_mod_cast hden
  have hquarter' : 4 * ((r.num : ℚ) + r.slack) ≤ r.den := by exact_mod_cast hquarter
  rw [upperEdge, div_le_iff₀ hden']
  exact ⟨by positivity, by linarith⟩

theorem le_lowerEdge_iff {phi : ℚ} : phi * r.den ≤ (r.num : ℚ) - r.slack ↔ phi ≤ lowerEdge r := by
  have hden : (0 : ℚ) < r.den := by exact_mod_cast (zoneTable_quarter r hr).1
  rw [lowerEdge, le_div_iff₀ hden]

theorem upperEdge_le_iff {phi : ℚ} : (r.num : ℚ) + r.slack ≤ phi * r.den ↔ upperEdge r ≤ phi := by
  have hden : (0 : ℚ) < r.den := by exact_mod_cast (zoneTable_quarter r hr).1
  rw [upperEdge, div_le_iff₀ hden]

end

/-- At `Λ(2) = 87/360` both sides are one sine: 87 degrees and 3 degrees make a right angle. -/
theorem sin_eq_at_lambda_two :
    Real.sin (Real.pi / 60) = Real.cos (2 * Real.pi * ((87 / 360 : ℚ) : ℝ)) * Real.sin (Real.pi / (2 : Nat)) := by
  push_cast
  rw [Real.sin_pi_div_two, mul_one, ← Real.cos_pi_div_two_sub]
  congr 1
  ring

theorem edge_two : lowerEdge ⟨2, 87, 360, 0⟩ = 87 / 360 := by
  norm_num [lowerEdge]

/-- Up to its lower edge a row's count is admitted. -/
theorem admits_of_le_lowerEdge {r : ZoneRow} (hr : r ∈ zoneTable) {phi : ℚ} (h0 : 0 ≤ phi) (hle : phi ≤ lowerEdge r) :
    Admits r.n phi := by
  obtain ⟨he0, heq⟩ := lowerEdge_bounds hr
  have heq' : (lowerEdge r : ℝ) ≤ ((1 / 4 : ℚ) : ℝ) := Rat.cast_le.2 heq
  push_cast at heq'
  have hedge : Admits r.n (lowerEdge r) := by
    obtain rfl | ⟨hn, hdec⟩ := zoneTable_edges r hr
    · rw [edge_two]
      exact sin_eq_at_lambda_two.le
    · simp only [edgesDecide, Bool.and_eq_true, decide_eq_true_eq] at hdec
      obtain ⟨⟨hs, hlo⟩, -⟩ := hdec
      exact admits_of_bounds hn he0 heq hs hlo
  exact hedge.of_le (zoneTable_bounds r hr).1 (by exact_mod_cast h0) (Rat.cast_le.2 hle) heq'

/-- From its upper edge on a row's count is not admitted; the exact threshold itself is a lower edge. -/
theorem not_admits_of_upperEdge_le {r : ZoneRow} (hr : r ∈ zoneTable) {phi : ℚ} (hq : phi ≤ 1 / 4)
    (hle : upperEdge r ≤ phi) (hlt : lowerEdge r < phi) : ¬Admits r.n phi := by
  have hq' : (phi : ℝ) ≤ ((1 / 4 : ℚ) : ℝ) := Rat.cast_le.2 hq
  push_cast at hq'
  intro h
  obtain rfl | ⟨hn, hdec⟩ := zoneTable_edges r hr
  · rw [edge_two] at hlt
    refine absurd (h.lt_of_lt le_rfl ?_ (Rat.cast_lt.2 hlt) hq') sin_eq_at_lambda_two.not_lt
    norm_num
  · simp only [edgesDecide, Bool.and_eq_true, decide_eq_true_eq] at hdec
    obtain ⟨-, hhi⟩ := hdec
    obtain ⟨he0, heq⟩ := upperEdge_bounds hr
    exact not_admits_of_bounds hn he0 heq hhi
      (h.of_le (zoneTable_bounds r hr).1 (by exact_mod_cast he0) (Rat.cast_le.2 hle) hq')

/-- Sixty zones are admitted at latitude 0 alone. -/
theorem not_admits_sixty {phi : ℝ} (h0 : 0 < phi) (hq : phi ≤ 1 / 4) : ¬Admits 60 phi := by
  intro h
  have hlt := h.lt_of_lt (by decide) le_rfl h0 hq
  rw [mul_zero, Real.cos_zero, one_mul] at hlt
  exact lt_irrefl _ (by exact_mod_cast hlt)

/-! ### The count of the table -/

/-- Outside the digits that decide nothing, a table in falling order gives the first count whose threshold is not passed. -/
theorem zonesFrom_spec {rows : List ZoneRow} (hsorted : rows.Pairwise fun a b => b.n < a.n) {phi : ℚ}
    (hclear : ∀ r ∈ rows, ¬((r.num : ℚ) - r.slack < phi * r.den ∧ phi * r.den < (r.num : ℚ) + r.slack)) :
    (zonesFrom rows phi = 1 ∨ ∃ r ∈ rows, zonesFrom rows phi = r.n ∧ phi * r.den ≤ (r.num : ℚ) - r.slack) ∧
      ∀ r ∈ rows, zonesFrom rows phi < r.n →
        (r.num : ℚ) + r.slack ≤ phi * r.den ∧ ¬phi * r.den ≤ (r.num : ℚ) - r.slack := by
  induction rows with
  | nil => exact ⟨.inl rfl, nofun⟩
  | cons r rest ih =>
    obtain ⟨hfirst, hrest⟩ := List.pairwise_cons.1 hsorted
    obtain ⟨hcount, hpassed⟩ := ih hrest fun r' hr' => hclear r' (List.mem_cons_of_mem r hr')
    rw [zonesFrom_cons]
    by_cases hle : phi * r.den ≤ (r.num : ℚ) - r.slack
    · rw [if_pos hle]
      refine ⟨.inr ⟨r, List.mem_cons_self, rfl, hle⟩, fun r' hr' hlt => ?_⟩
      obtain rfl | hr' := List.mem_cons.1 hr'
      · exact absurd hlt (lt_irrefl _)
      · exact absurd (hfirst r' hr') hlt.not_gt
    · have hge : (r.num : ℚ) + r.slack ≤ phi * r.den := by
        by_contra h
        exact hclear r List.mem_cons_self ⟨not_le.1 hle, not_le.1 h⟩
      rw [if_neg hle, if_pos hge]
      refine ⟨hcount.imp id fun ⟨r', hr', h⟩ => ⟨r', List.mem_cons_of_mem r hr', h⟩, fun r' hr' hlt => ?_⟩
      obtain rfl | hr' := List.mem_cons.1 hr'
      · exact ⟨hge, hle⟩
      · exact hpassed r' hr' hlt

theorem zoneTable_sorted : zoneTable.Pairwise fun a b => b.n < a.n := by
  decide

theorem exists_zoneRow : ∀ m < 60, 2 ≤ m → ∃ r ∈ zoneTable, r.n = m := by
  decide

/-- Settles O44: the table's count is admitted, and every row above it has been passed. -/
theorem zoneCountIsTheCosineFormula : Obligations.ZoneCountIsTheCosineFormula := by
  intro lat n hne hn hclear
  obtain ⟨-, -, hq⟩ := foldLat_spec lat
  have h0 := foldLat_nonneg lat
  have hpos : (0 : ℝ) < foldLat lat := by exact_mod_cast lt_of_le_of_ne h0 (Ne.symm hne)
  rw [zoneCount, if_neg hne] at hn
  obtain ⟨hcount, hpassed⟩ := zonesFrom_spec zoneTable_sorted hclear
  rw [← hn] at hcount hpassed
  refine ⟨?_, fun m hm hm60 => ?_⟩
  · obtain h1 | ⟨r, hr, hrn, hle⟩ := hcount
    · exact .inl h1
    · rw [le_lowerEdge_iff hr] at hle
      rw [hrn, admits_iff (zoneTable_bounds r hr).1]
      exact .inr (admits_of_le_lowerEdge hr h0 hle)
  · have hm2 : 2 ≤ m := by
      obtain h1 | ⟨r, hr, hrn, -⟩ := hcount
      · omega
      · have := (zoneTable_bounds r hr).1
        omega
    rw [← not_le, admits_iff hm2]
    rcases Nat.lt_or_ge m 60 with hlt | hge
    · obtain ⟨r, hr, rfl⟩ := exists_zoneRow m hlt hm2
      obtain ⟨hle, hnle⟩ := hpassed r hr hm
      rw [upperEdge_le_iff hr] at hle
      rw [le_lowerEdge_iff hr, not_le] at hnle
      exact not_admits_of_upperEdge_le hr hq hle hnle
    · obtain rfl : m = 60 := by omega
      exact not_admits_sixty hpos (foldLat_real_bounds lat).2

end Sys2Proof.Proofs
end
